-- ==== Sys2Proof/Word.lean ====
section
/-! DEFINITION. The word types of the block (`00_scope.md` R13, R14): every value is an unsigned number of a stated width, bit 0 the least significant. -/

namespace Sys2Proof

/-- A sink byte, a byte operand, a status code (R13: sink data 8 bits, status 8 bits). -/
abbrev Byte := BitVec 8

/-- A 16-bit accumulator or block count (`10_state.md` R30: `S1`, `S2`, `ZBLK`). -/
abbrev Half := BitVec 16

/-- A 32-bit register, operand or response datum (R13). -/
abbrev Word := BitVec 32

/-- A command word `cmd[39:0]` (`30_encoding.md` R100). -/
abbrev CommandWord := BitVec 40

end Sys2Proof
end

