-- ==== Sys2Proof/Config.lean ====
section
/-! DEFINITION. What an implementation fixes (the four parameters of `00_scope.md` R12) and the one free value of the spec, the sink's answer (`93_implementation_defined.md` U7). -/

namespace Sys2Proof

/-- The parameters a model takes as arguments (`00_scope.md` R12). The widths hold the upper bounds of its constraint column; `Params.Valid` holds the rest. -/
structure Params where
  /-- `ZHDR0`, first zlib header byte. -/
  zhdr0 : Byte
  /-- `ZHDR1`, second zlib header byte. -/
  zhdr1 : Byte
  /-- `ZBLOCK_CAP`, largest number of data bytes in one stored block. -/
  zblockCap : Half
  /-- `CHUNK_LEN_MAX`, largest chunk length `CHUNK_BEGIN` accepts. -/
  chunkLenMax : Word
  deriving DecidableEq, Repr

/-- The constraint column of R12: the header pair meets the modulo-31 rule and the block cap is 1 to 65535. -/
abbrev Params.Valid (p : Params) : Prop :=
  (p.zhdr0.toNat * 256 + p.zhdr1.toNat) % 31 = 0 ∧ 1 ≤ p.zblockCap.toNat

/-- The values this hardware takes (R12, value column). -/
def Params.hardware : Params :=
  { zhdr0 := 0x78#8, zhdr1 := 0x01#8, zblockCap := 65535#16, chunkLenMax := 0x7FFFFFFF#32 }

/-- The sink's answer to one append (`20_memory.md` R73); that it never answers is left out (R90). Log entry 7. -/
inductive SinkAnswer where
  | ok
  | fail
  deriving DecidableEq, Repr, Inhabited

/-- The sink's answer to the `n`-th append where no script gives it: the sink's free choice (R73, U7), so a value nothing constrains. Log entry 2. -/
opaque Config.freeSinkAnswer : Nat → SinkAnswer

end Sys2Proof
end

