-- ==== Sys2Proof/Syntax.lean ====
section
/-! DEFINITION. The commands, one constructor per row of `spec/opcode_table.json` (35 rows, sixteen mnemonics; `30_encoding.md` R104). -/

namespace Sys2Proof

/-- A decoded command with its operands (`30_encoding.md` R101, R102, R104, R108). A row whose `fn` is a register number or a byte count is a constructor of its own, so the number is in the name. -/
inductive Instr where
  /-- `START`, `0x01` (R195). -/
  | start
  /-- `WRREG CTRL, v`, `0x11`; `v[31:1]` must be 0 (R197, R105). -/
  | wrregCtrl (v : Word)
  /-- `WRREG TAG, v`, `0x12`. -/
  | wrregTag (v : Word)
  /-- `WRREG COUNT, v`, `0x13`. -/
  | wrregCount (v : Word)
  /-- `RDREG` of registers 0 to 9, `0x20` to `0x29` (R196). -/
  | rdregStatus
  | rdregCtrl
  | rdregTag
  | rdregCount
  | rdregCrc
  | rdregAdler
  | rdregClen
  | rdregCcnt
  | rdregZrem
  | rdregZblk
  /-- `CRC_INIT`, `0x30` (R132). -/
  | crcInit
  /-- `CRC_UPDATE b`, `0x31` (R133). -/
  | crcUpdate (b : Byte)
  /-- `CRC_FINAL`, `0x32` (R134). -/
  | crcFinal
  /-- `ADL_INIT`, `0x40` (R142). -/
  | adlInit
  /-- `ADL_UPDATE b`, `0x41` (R143). -/
  | adlUpdate (b : Byte)
  /-- `ADL_FINAL`, `0x42` (R144). -/
  | adlFinal
  /-- `WRITE_BE n, v`, `0x50` to `0x54` (R152). -/
  | writeBe0 (v : Word)
  | writeBe1 (v : Word)
  | writeBe2 (v : Word)
  | writeBe3 (v : Word)
  | writeBe4 (v : Word)
  /-- `WRITE_LE n, v`, `0x60` to `0x64` (R153). -/
  | writeLe0 (v : Word)
  | writeLe1 (v : Word)
  | writeLe2 (v : Word)
  | writeLe3 (v : Word)
  | writeLe4 (v : Word)
  /-- `CHUNK_BEGIN L`, `0x70` (R163). -/
  | chunkBegin (len : Word)
  /-- `CHUNK_END`, `0x71` (R166). -/
  | chunkEnd
  /-- `Z_BEGIN N`, `0x80` (R177). -/
  | zBegin (total : Word)
  /-- `Z_DATA b`, `0x81` (R179). -/
  | zData (b : Byte)
  /-- `Z_END`, `0x82` (R180). -/
  | zEnd
  deriving DecidableEq, Repr

end Sys2Proof
end

