-- ==== Sys2Proof/WellFormed.lean ====
section
/-! DEFINITION. The operand checks that the operand types do not already make (`30_encoding.md` R105). -/

namespace Sys2Proof

/-- The command has an encoding. The only operand narrower than its field is that of `WRREG CTRL` (R105 item 4: `imm[31:1]` must be 0); byte operands are bytes and `fn` stands in the constructor, so the other items of R105 hold by typing. -/
def Instr.wellFormed : Instr → Bool
  | .wrregCtrl v => decide (v >>> 1 = 0#32)
  | .start | .wrregTag _ | .wrregCount _
  | .rdregStatus | .rdregCtrl | .rdregTag | .rdregCount | .rdregCrc
  | .rdregAdler | .rdregClen | .rdregCcnt | .rdregZrem | .rdregZblk
  | .crcInit | .crcUpdate _ | .crcFinal
  | .adlInit | .adlUpdate _ | .adlFinal
  | .writeBe0 _ | .writeBe1 _ | .writeBe2 _ | .writeBe3 _ | .writeBe4 _
  | .writeLe0 _ | .writeLe1 _ | .writeLe2 _ | .writeLe3 _ | .writeLe4 _
  | .chunkBegin _ | .chunkEnd
  | .zBegin _ | .zData _ | .zEnd => true

end Sys2Proof
end

