-- ==== Sys2Proof/Decode.lean ====
section
/-! DEFINITION. Decoding a 40-bit command word (`30_encoding.md` R100 to R108) and the encoder written from the same table. -/

namespace Sys2Proof

/-- Why a word is illegal: the four items of `30_encoding.md` R105. -/
inductive IllegalWord where
  /-- Item 1: the opcode byte is not one of the 35. -/
  | opcode
  /-- Item 2: format `N` or `RR` with `imm` not 0. -/
  | immNotZero
  /-- Item 3: format `B` with `imm[31:8]` not 0. -/
  | byteTooWide
  /-- Item 4: `WRREG CTRL` with `imm[31:1]` not 0. -/
  | ctrlReserved
  deriving DecidableEq, Repr

/-- What `Decode` answers (R108): a command, or `Illegal` with its reason. -/
inductive Decoded where
  | command (i : Instr)
  | illegal (why : IllegalWord)
  deriving DecidableEq, Repr

/-- `op = cmd[39:32]` (R100). -/
def opcodeOf (w : CommandWord) : Byte := w.extractLsb' 32 8

/-- `grp = cmd[39:36]` (R100). -/
def groupOf (w : CommandWord) : BitVec 4 := w.extractLsb' 36 4

/-- `fn = cmd[35:32]` (R100). -/
def functionOf (w : CommandWord) : BitVec 4 := w.extractLsb' 32 4

/-- `imm = cmd[31:0]` (R100). -/
def immOf (w : CommandWord) : Word := w.extractLsb' 0 32

/-- Formats `N` and `RR`: `imm` must be 0 (R101). -/
def decodeNone (imm : Word) (i : Instr) : Decoded :=
  if imm = 0#32 then .command i else .illegal .immNotZero

/-- Format `B`: the operand is `imm[7:0]`, `imm[31:8]` must be 0 (R101, R102). -/
def decodeByte (imm : Word) (i : Byte → Instr) : Decoded :=
  if imm >>> 8 = 0#32 then .command (i (imm.setWidth 8)) else .illegal .byteTooWide

/-- `WRREG CTRL`: `imm[31:1]` must be 0 (R105 item 4). -/
def decodeCtrl (imm : Word) : Decoded :=
  if imm >>> 1 = 0#32 then .command (.wrregCtrl imm) else .illegal .ctrlReserved

/-- The command of an opcode byte and an `imm` field: the 35 rows of R104, everything else illegal. -/
def decodeFields (op : Nat) (imm : Word) : Decoded :=
  match op with
  | 0x01 => decodeNone imm .start
  | 0x11 => decodeCtrl imm
  | 0x12 => .command (.wrregTag imm)
  | 0x13 => .command (.wrregCount imm)
  | 0x20 => decodeNone imm .rdregStatus
  | 0x21 => decodeNone imm .rdregCtrl
  | 0x22 => decodeNone imm .rdregTag
  | 0x23 => decodeNone imm .rdregCount
  | 0x24 => decodeNone imm .rdregCrc
  | 0x25 => decodeNone imm .rdregAdler
  | 0x26 => decodeNone imm .rdregClen
  | 0x27 => decodeNone imm .rdregCcnt
  | 0x28 => decodeNone imm .rdregZrem
  | 0x29 => decodeNone imm .rdregZblk
  | 0x30 => decodeNone imm .crcInit
  | 0x31 => decodeByte imm .crcUpdate
  | 0x32 => decodeNone imm .crcFinal
  | 0x40 => decodeNone imm .adlInit
  | 0x41 => decodeByte imm .adlUpdate
  | 0x42 => decodeNone imm .adlFinal
  | 0x50 => .command (.writeBe0 imm)
  | 0x51 => .command (.writeBe1 imm)
  | 0x52 => .command (.writeBe2 imm)
  | 0x53 => .command (.writeBe3 imm)
  | 0x54 => .command (.writeBe4 imm)
  | 0x60 => .command (.writeLe0 imm)
  | 0x61 => .command (.writeLe1 imm)
  | 0x62 => .command (.writeLe2 imm)
  | 0x63 => .command (.writeLe3 imm)
  | 0x64 => .command (.writeLe4 imm)
  | 0x70 => .command (.chunkBegin imm)
  | 0x71 => decodeNone imm .chunkEnd
  | 0x80 => .command (.zBegin imm)
  | 0x81 => decodeByte imm .zData
  | 0x82 => decodeNone imm .zEnd
  | _ => .illegal .opcode

/-- `Decode` (R108). It reads nothing but the word (R107). -/
def decode (w : CommandWord) : Decoded := decodeFields (opcodeOf w).toNat (immOf w)

/-- The opcode byte of each command (R104, column `op`). -/
def Instr.opcode : Instr → Byte
  | .start => 0x01#8
  | .wrregCtrl _ => 0x11#8
  | .wrregTag _ => 0x12#8
  | .wrregCount _ => 0x13#8
  | .rdregStatus => 0x20#8
  | .rdregCtrl => 0x21#8
  | .rdregTag => 0x22#8
  | .rdregCount => 0x23#8
  | .rdregCrc => 0x24#8
  | .rdregAdler => 0x25#8
  | .rdregClen => 0x26#8
  | .rdregCcnt => 0x27#8
  | .rdregZrem => 0x28#8
  | .rdregZblk => 0x29#8
  | .crcInit => 0x30#8
  | .crcUpdate _ => 0x31#8
  | .crcFinal => 0x32#8
  | .adlInit => 0x40#8
  | .adlUpdate _ => 0x41#8
  | .adlFinal => 0x42#8
  | .writeBe0 _ => 0x50#8
  | .writeBe1 _ => 0x51#8
  | .writeBe2 _ => 0x52#8
  | .writeBe3 _ => 0x53#8
  | .writeBe4 _ => 0x54#8
  | .writeLe0 _ => 0x60#8
  | .writeLe1 _ => 0x61#8
  | .writeLe2 _ => 0x62#8
  | .writeLe3 _ => 0x63#8
  | .writeLe4 _ => 0x64#8
  | .chunkBegin _ => 0x70#8
  | .chunkEnd => 0x71#8
  | .zBegin _ => 0x80#8
  | .zData _ => 0x81#8
  | .zEnd => 0x82#8

/-- The `imm` field of each command (R101): the operand where there is one, else 0. -/
def Instr.immediate : Instr → Word
  | .wrregCtrl v | .wrregTag v | .wrregCount v => v
  | .writeBe0 v | .writeBe1 v | .writeBe2 v | .writeBe3 v | .writeBe4 v => v
  | .writeLe0 v | .writeLe1 v | .writeLe2 v | .writeLe3 v | .writeLe4 v => v
  | .chunkBegin len => len
  | .zBegin total => total
  | .crcUpdate b | .adlUpdate b | .zData b => b.setWidth 32
  | .start | .rdregStatus | .rdregCtrl | .rdregTag | .rdregCount | .rdregCrc
  | .rdregAdler | .rdregClen | .rdregCcnt | .rdregZrem | .rdregZblk
  | .crcInit | .crcFinal | .adlInit | .adlFinal | .chunkEnd | .zEnd => 0#32

/-- The word of a well-formed command (R100: opcode byte above `imm`). -/
def encode (i : Instr) : CommandWord := i.opcode ++ i.immediate

/-- The word that `spec/opcode_table.json` numbers: a command is one 40-bit word (R100), so the table's bit `k` is `cmd[k]`, and bits at and above `nbits` are 0. Log entry 10. -/
def tableWord (nbits w : Nat) : CommandWord := BitVec.ofNat 40 (w % 2 ^ nbits)

/-- The command the decoder reads from a table word; none where it refuses, and none for a word longer than 40 bits, which the command interface cannot carry (R72, R100). -/
def decodeTableWord (nbits w : Nat) : Option Instr :=
  if nbits ≤ 40 then
    match decode (tableWord nbits w) with
    | .command i => some i
    | .illegal _ => none
  else none

end Sys2Proof
end

