-- ==== Sys2Proof/Machine/State.lean ====
section
/-! DEFINITION. The state: the block's fourteen registers (`10_state.md` R30), what the step takes besides them (R52), what has left the block (`20_memory.md` R70), and the reset state (R53, `70_reset_and_hazards.md` R270). -/

namespace Sys2Proof.Machine

/-- `CSTATE` (`10_state.md` R37). -/
inductive CState where
  /-- `C_IDLE`, 0: no chunk is open. -/
  | cIdle
  /-- `C_OPEN`, 1: length and tag are emitted, the CRC field is not. -/
  | cOpen
  deriving DecidableEq, Repr

/-- `ZSTATE` (`10_state.md` R38). -/
inductive ZState where
  /-- `Z_IDLE`, 0: no zlib stream is open. -/
  | zIdle
  /-- `Z_OPEN`, 1: the header has been or is being emitted, the trailer has not. -/
  | zOpen
  deriving DecidableEq, Repr

/-- The fault codes that are recorded (`60_exceptions.md` R231); their numbers are `FaultCode.code`. -/
inductive FaultCode where
  /-- Any word that decodes to `Illegal` (R232). -/
  | illegalCmd
  /-- Every command but `START`, `RDREG`, in a state that does not admit it (R233). -/
  | badState
  /-- `CHUNK_BEGIN` (R234). -/
  | chunkOrder
  /-- `CHUNK_BEGIN` (R235). -/
  | chunkLength
  /-- Every command that emits through `Pay` (R238). -/
  | chunkOverrun
  /-- `CHUNK_END` (R239). -/
  | chunkUnderrun
  /-- `Z_DATA` (R242). -/
  | zOverrun
  /-- `Z_END` (R243). -/
  | zUnderrun
  /-- Every emitting command, in normal mode (R244). -/
  | sinkFail
  /-- Every emitting command (R245). -/
  | countOverflow
  deriving DecidableEq, Repr

/-- The whole architectural state of the block (`10_state.md` R30). -/
structure Regs where
  /-- `CRC`, the accumulator before the final exclusive-or (R34). -/
  crc : Word
  /-- `S1` (R35). -/
  s1 : Half
  /-- `S2` (R35). -/
  s2 : Half
  /-- `CSTATE` (R37). -/
  cstate : CState
  /-- `ZSTATE` (R38). -/
  zstate : ZState
  /-- `CSEQ`, chunks completed in this session (R39). -/
  cseq : BitVec 2
  /-- `CLEN`, declared payload length (R40). -/
  clen : Word
  /-- `CCNT`, payload bytes emitted (R40). -/
  ccnt : Word
  /-- `ZREM`, data bytes the zlib stream still expects (R41). -/
  zrem : Word
  /-- `ZBLK`, data bytes still to come in the stored block (R41). -/
  zblk : Half
  /-- `TAG` (R42). -/
  tag : Word
  /-- `CTRL.MEASURE` (R43): true in measure mode. -/
  measure : Bool
  /-- `COUNT`, bytes emitted (R44). -/
  count : Word
  /-- `FAULT`, the fault record; 0 means none (R46). -/
  fault : Byte
  deriving DecidableEq, Repr

/-- What the host can do to the block (`20_memory.md` R70, `70_reset_and_hazards.md` R271). -/
inductive HostEvent where
  /-- Send one command word. -/
  | command (w : CommandWord)
  /-- Assert hardware reset between commands. -/
  | reset
  /-- Send a command word and assert hardware reset while it is in progress, when at most `k` of its bytes have been appended. -/
  | resetDuring (w : CommandWord) (k : Nat)
  deriving DecidableEq, Repr

/-- One response (`30_encoding.md` R109). -/
structure Response where
  status : Byte
  data : Word
  deriving DecidableEq, Repr

/-- The block's registers, the step's inputs and what has left the block. -/
structure State where
  /-- The block (`10_state.md` R30). -/
  regs : Regs
  /-- The parameters (`00_scope.md` R12, `10_state.md` R52). Log entry 5. -/
  params : Params
  /-- The host's pending events, oldest first (`20_memory.md` R71). Log entry 1. -/
  events : List HostEvent
  /-- The sink's coming answers, the next one first (`20_memory.md` R73). Log entry 2. -/
  sinkScript : List SinkAnswer
  /-- How many appends the sink has been asked for: the model's own counter, the index of the free answers. Log entry 2. -/
  asked : Nat
  /-- `OUT`, the bytes the sink has accepted, oldest first (`20_memory.md` R74). Log entry 4. -/
  out : List Byte
  /-- The responses produced, oldest first (`30_encoding.md` R109). Log entry 4. -/
  responses : List Response
  deriving DecidableEq, Repr

/-- Why a step would stop the machine: never. Every fault of `60_exceptions.md` is a next state with a response, and for every state and every word the step gives one response and one next state (`93_implementation_defined.md`, end of section 1). Log entry 14. -/
inductive Fault where
  deriving DecidableEq, Repr

/-- Why an instruction would have no meaning. -/
inductive Refusal where
  /-- Raised by `exec` for an instruction that has no meaning yet; safe. No arm raises it. -/
  | notModelled (mnemonic : String)
  deriving DecidableEq, Repr

/-- The reset value of every register (`10_state.md` R53, `70_reset_and_hazards.md` R270). -/
def Regs.reset : Regs :=
  { crc := 0xFFFFFFFF#32, s1 := 1#16, s2 := 0#16, cstate := .cIdle, zstate := .zIdle,
    cseq := 0#2, clen := 0#32, ccnt := 0#32, zrem := 0#32, zblk := 0#16, tag := 0#32,
    measure := false, count := 0#32, fault := 0#8 }

/-- The machine right after hardware reset (`70_reset_and_hazards.md` R271) with this hardware's parameters (`00_scope.md` R12). Reset has no say over the host, `OUT` and the sink (R273, R280): no event is pending, nothing has been appended or answered. Log entry 12. -/
def State.reset : State :=
  { regs := Regs.reset, params := Params.hardware, events := [], sinkScript := [], asked := 0,
    out := [], responses := [] }

end Sys2Proof.Machine
end

