-- ==== Sys2Proof/Machine/Operands.lean ====
section
/-! DEFINITION. Operand forms: cutting bytes out of a value in either byte order (`42_byte_order_writer.md` R150, R151), widening (`00_scope.md` R15), the tag the chunk order calls for (`43_chunk_framer.md` R161). -/

namespace Sys2Proof.Machine

/-- Byte `i` of `v`, byte 0 the least significant: `(v >> (8*i)) & 0xFF` (R150). -/
def byteAt (v : Word) (i : Nat) : Byte := (v >>> (8 * i)).setWidth 8

/-- The `n` least significant bytes of `v`, most significant of them first: `i` from `n-1` down to 0 (R150). -/
def beBytes (v : Word) : Nat → List Byte
  | 0 => []
  | n + 1 => byteAt v n :: beBytes v n

/-- The `n` least significant bytes of `v`, least significant first: `i` from 0 to `n-1` (R151). -/
def leBytes (v : Word) : Nat → List Byte
  | 0 => []
  | n + 1 => leBytes v n ++ [byteAt v n]

/-- `ExpectedTag(s)` for `s` = 0, 1, 2: `IHDR`, `IDAT`, `IEND`; after three chunks no tag is expected (R161, R163). The letters' codes are log entry 15. -/
def expectedTag (s : BitVec 2) : Option Word :=
  if s = 0#2 then some 0x49484452#32
  else if s = 1#2 then some 0x49444154#32
  else if s = 2#2 then some 0x49454E44#32
  else none

end Sys2Proof.Machine
end

