-- ==== Sys2Proof/Machine/Flags.lean ====
section
/-! DEFINITION. Status and views. The block has no arithmetic flags (`10_state.md` R33); what a host can read of its condition are the fault codes (`60_exceptions.md` R231) and the numbered registers (`10_state.md` R44 to R47, `45_system_commands.md` R196). -/

namespace Sys2Proof.Machine

/-- The 8-bit number of each recorded fault (`60_exceptions.md` R231). -/
def FaultCode.code : FaultCode → Byte
  | .illegalCmd => 0x01#8
  | .badState => 0x02#8
  | .chunkOrder => 0x03#8
  | .chunkLength => 0x04#8
  | .chunkOverrun => 0x05#8
  | .chunkUnderrun => 0x06#8
  | .zOverrun => 0x07#8
  | .zUnderrun => 0x08#8
  | .sinkFail => 0x09#8
  | .countOverflow => 0x0A#8

/-- Status `OK` (R231). -/
def statusOk : Byte := 0x00#8

/-- Status `HALTED`, a response only (R231, R246). -/
def statusHalted : Byte := 0x0B#8

/-- `CSTATE` as its bit (`10_state.md` R37). -/
def CState.bit : CState → Word
  | .cIdle => 0#32
  | .cOpen => 1#32

/-- `ZSTATE` as its bit (`10_state.md` R38). -/
def ZState.bit : ZState → Word
  | .zIdle => 0#32
  | .zOpen => 1#32

/-- `STATUS` (`10_state.md` R45, `45_system_commands.md` R196 row 0). -/
def Regs.status (r : Regs) : Word :=
  r.fault.setWidth 32 ||| (r.cstate.bit <<< 8) ||| (r.zstate.bit <<< 9) ||| (r.cseq.setWidth 32 <<< 10)

/-- `CTRL` read as a 32-bit value (`10_state.md` R43, R44). -/
def Regs.ctrl (r : Regs) : Word := if r.measure then 1#32 else 0#32

/-- `ADLER`, the packed pair (`10_state.md` R47). -/
def Regs.adler (r : Regs) : Word := (r.s2.setWidth 32 <<< 16) ||| r.s1.setWidth 32

/-- The ten numbered registers (`10_state.md` R44). -/
inductive RegName where
  | status
  | ctrl
  | tag
  | count
  | crc
  | adler
  | clen
  | ccnt
  | zrem
  | zblk
  deriving DecidableEq, Repr

/-- `Reg(r)` (`10_state.md` R44, `45_system_commands.md` R196). -/
def Regs.read (r : Regs) : RegName → Word
  | .status => r.status
  | .ctrl => r.ctrl
  | .tag => r.tag
  | .count => r.count
  | .crc => r.crc
  | .adler => r.adler
  | .clen => r.clen
  | .ccnt => r.ccnt
  | .zrem => r.zrem
  | .zblk => r.zblk.setWidth 32

end Sys2Proof.Machine
end

