-- ==== Sys2Proof/Machine/Ops.lean ====
section
/-! DEFINITION. The shared operations: the checksum steps, the sink and the emission primitives, responding, taking a fault and leaving it, and the frame every command but `START` and `RDREG` runs in (`60_exceptions.md` R240). -/

namespace Sys2Proof.Machine

/-! ## Checksum steps -/

/-- One iteration of the table rule (`40_crc32.md` R130). -/
def crcStep (c : Word) : Word :=
  if c.getLsbD 0 then 0xEDB88320#32 ^^^ (c >>> 1) else c >>> 1

/-- The table entry `T[n]`: eight iterations from `n` (R130). The table is a constant (`10_state.md` R36). -/
def crcTable (n : Byte) : Word := crcStep^[8] (n.setWidth 32)

/-- `Fold(c, b)` (R131). -/
def fold (c : Word) (b : Byte) : Word := crcTable (c.setWidth 8 ^^^ b) ^^^ (c >>> 8)

/-- The CRC accumulator's initial value and final exclusive-or (`00_scope.md` R11). -/
def crcOnes : Word := 0xFFFFFFFF#32

/-- A sum of the Adler step: taken in the integers, reduced modulo 65521 (`41_adler32.md` R141). -/
def adlerAdd (a b : Nat) : Half := BitVec.ofNat 16 ((a + b) % 65521)

/-- `AdlerStep(b)`: the second line uses the `S1` the first has just written (R141). -/
def adlerStep (b : Byte) (r : Regs) : Regs :=
  let s1 := adlerAdd r.s1.toNat b.toNat
  { r with s1 := s1, s2 := adlerAdd r.s2.toNat s1.toNat }

/-- The Adler pair's initial state (R142). -/
def adlerInit (r : Regs) : Regs := { r with s1 := 1#16, s2 := 0#16 }

/-! ## Responding, taking a fault, reset -/

/-- The state with the registers `r`. -/
def State.withRegs (s : State) (r : Regs) : State := { s with regs := r }

/-- Produce one response (`30_encoding.md` R109). -/
def State.respond (s : State) (status : Byte) (data : Word) : State :=
  { s with responses := s.responses ++ [{ status := status, data := data }] }

/-- Taking a fault: `FAULT` records the code and the response carries it; nothing else changes, there is no vector and no mode (`60_exceptions.md` R236). -/
def State.takeFault (s : State) (f : FaultCode) : State :=
  (s.withRegs { s.regs with fault := f.code }).respond f.code 0#32

/-- `ResetState()`, the one way out of the halted state (`70_reset_and_hazards.md` R270, `60_exceptions.md` R249). It does not touch the sink. -/
def State.resetRegs (s : State) : State := s.withRegs Regs.reset

/-- Hardware reset cuts a command short (`70_reset_and_hazards.md` R271). `before` is the state before the command, `after` the state it would have ended in. The registers are reset, there is no response, and of the bytes the command would have appended the first `k` have been. The sink has been asked for those appends only (log entry 6). -/
def State.cutByReset (before after : State) (k : Nat) : State :=
  let n := min k (after.out.length - before.out.length)
  { before with
    regs := Regs.reset
    out := after.out.take (before.out.length + n)
    sinkScript := before.sinkScript.drop n
    asked := before.asked + n }

/-! ## Runs of pseudocode -/

/-- How a piece of pseudocode ends (`00_scope.md` R17): at its end, or at a `raise` with everything before it done. -/
inductive Ran where
  | done (s : State)
  | raised (f : FaultCode) (s : State)
  deriving DecidableEq, Repr

/-- The next lines run only if the lines before ran to their end (R17). -/
def Ran.andThen (r : Ran) (k : State → Ran) : Ran :=
  match r with
  | .done s => k s
  | .raised f s => .raised f s

/-- `require c else raise f` (R17). -/
def require (c : Bool) (f : FaultCode) (s : State) : Ran :=
  if c then .done s else .raised f s

/-! ## The sink and the emission primitives -/

/-- The sink's answer to the append it is asked for next (`20_memory.md` R73). -/
def State.nextAnswer (s : State) : SinkAnswer :=
  match s.sinkScript with
  | a :: _ => a
  | [] => Config.freeSinkAnswer s.asked

/-- The sink has answered one append. -/
def State.sinkAsked (s : State) : State :=
  { s with sinkScript := s.sinkScript.tail, asked := s.asked + 1 }

/-- `SinkAppend(b)`: on `ok` the byte is at the end of `OUT`, on `fail` `OUT` is unchanged (`20_memory.md` R73). -/
def sinkAppend (b : Byte) (s : State) : Ran :=
  match s.nextAnswer with
  | .ok => .done { s.sinkAsked with out := s.out ++ [b] }
  | .fail => .raised .sinkFail s.sinkAsked

/-- `COUNT <- COUNT + 1`. -/
def State.counted (s : State) : State := s.withRegs { s.regs with count := s.regs.count + 1#32 }

/-- `Out(b)` (`20_memory.md` R76). -/
def outByte (b : Byte) (s : State) : Ran :=
  if s.regs.count = 0xFFFFFFFF#32 then .raised .countOverflow s
  else if s.regs.measure then .done s.counted
  else (sinkAppend b s).andThen fun t => .done t.counted

/-- `CRC <- Fold(CRC, b)`. -/
def State.folded (b : Byte) (s : State) : State := s.withRegs { s.regs with crc := fold s.regs.crc b }

/-- `CCNT <- CCNT + 1`. -/
def State.paid (s : State) : State := s.withRegs { s.regs with ccnt := s.regs.ccnt + 1#32 }

/-- `Pay(b)` (`20_memory.md` R77). -/
def payByte (b : Byte) (s : State) : Ran :=
  match s.regs.cstate with
  | .cOpen =>
    if s.regs.ccnt = s.regs.clen then .raised .chunkOverrun s
    else (outByte b s).andThen fun t => .done (t.folded b).paid
  | .cIdle => outByte b s

/-- The tag bytes of `CHUNK_BEGIN`: through `Out`, then folded (`43_chunk_framer.md` R163). -/
def outFolded (b : Byte) (s : State) : Ran :=
  (outByte b s).andThen fun t => .done (t.folded b)

/-- Emit bytes in order with one primitive, stopping at the first fault (`20_memory.md` R78). -/
def emitAll (one : Byte → State → Ran) : List Byte → State → Ran
  | [], s => .done s
  | b :: bs, s => (one b s).andThen (emitAll one bs)

/-- `WriteBE(v, n)` (`42_byte_order_writer.md` R150). -/
def writeBE (v : Word) (n : Nat) (s : State) : Ran := emitAll payByte (beBytes v n) s

/-- `WriteLE(v, n)` (`42_byte_order_writer.md` R151). -/
def writeLE (v : Word) (n : Nat) (s : State) : Ran := emitAll payByte (leBytes v n) s

/-! ## The frame of a command -/

/-- The end of a command's pseudocode (`60_exceptions.md` R240): `OK` with the data, or the fault taken. -/
def finish (data : Word) : Ran → State
  | .done s => s.respond statusOk data
  | .raised f s => s.takeFault f

/-- Every command but `START` and `RDREG` (R240): a halted block answers `HALTED` and changes nothing, otherwise the pseudocode runs. -/
def runCommand (data : Word) (body : State → Ran) (s : State) : State :=
  if s.regs.fault = 0#8 then finish data (body s) else s.respond statusHalted 0#32

/-- A word that decodes to `Illegal` (R240, R232). -/
def illegalCommand (s : State) : State := runCommand 0#32 (fun t => .raised .illegalCmd t) s

/-- `RDREG(r)`: legal in every state, halted included (R240, `45_system_commands.md` R196). -/
def readRegister (r : RegName) (s : State) : State := s.respond statusOk (s.regs.read r)

/-- Admitted only with no chunk open (`60_exceptions.md` R241). -/
def requireNoChunk (s : State) : Ran := require (s.regs.cstate = .cIdle) .badState s

/-- Admitted only with no zlib stream open (R241). -/
def requireNoStream (s : State) : Ran := require (s.regs.zstate = .zIdle) .badState s

/-- Admitted only when idle (R241). -/
def requireIdle (s : State) : Ran :=
  require (s.regs.cstate = .cIdle ∧ s.regs.zstate = .zIdle) .badState s

/-- Admitted only with a zlib stream open (R241). -/
def requireStream (s : State) : Ran := require (s.regs.zstate = .zOpen) .badState s

/-- Admitted only with a chunk open and no zlib stream (R241). -/
def requireChunk (s : State) : Ran :=
  require (s.regs.cstate = .cOpen ∧ s.regs.zstate = .zIdle) .badState s

end Sys2Proof.Machine
end

