-- ==== Sys2Proof/Machine/Adler.lean ====
section
/-! DEFINITION. The Adler-32 accumulator's commands (`41_adler32.md`). -/

namespace Sys2Proof.Machine

/-- `ADL_INIT` (R142). -/
def execAdlInit (s : State) : Host.Outcome State Fault Refusal :=
  .next (runCommand 0#32
    (fun t => (requireNoStream t).andThen fun u => .done (u.withRegs (adlerInit u.regs))) s)

/-- `ADL_UPDATE b` (R143). -/
def execAdlUpdate (b : Byte) (s : State) : Host.Outcome State Fault Refusal :=
  .next (runCommand 0#32
    (fun t => (requireNoStream t).andThen fun u => .done (u.withRegs (adlerStep b u.regs))) s)

/-- `ADL_FINAL` (R144): the pair is left as it is. -/
def execAdlFinal (s : State) : Host.Outcome State Fault Refusal :=
  .next (runCommand s.regs.adler requireNoStream s)

end Sys2Proof.Machine
end

