-- ==== Sys2Proof/Machine/Crc.lean ====
section
/-! DEFINITION. The CRC-32 engine's commands (`40_crc32.md`). -/

namespace Sys2Proof.Machine

/-- `CRC_INIT` (R132). -/
def execCrcInit (s : State) : Host.Outcome State Fault Refusal :=
  .next (runCommand 0#32
    (fun t => (requireNoChunk t).andThen fun u => .done (u.withRegs { u.regs with crc := crcOnes })) s)

/-- `CRC_UPDATE b` (R133). -/
def execCrcUpdate (b : Byte) (s : State) : Host.Outcome State Fault Refusal :=
  .next (runCommand 0#32 (fun t => (requireNoChunk t).andThen fun u => .done (u.folded b)) s)

/-- `CRC_FINAL` (R134): the accumulator is left as it is. -/
def execCrcFinal (s : State) : Host.Outcome State Fault Refusal :=
  .next (runCommand (s.regs.crc ^^^ crcOnes) requireNoChunk s)

end Sys2Proof.Machine
end

