-- ==== Sys2Proof/Machine/Framer.lean ====
section
/-! DEFINITION. The PNG chunk framer's commands (`43_chunk_framer.md`). -/

namespace Sys2Proof.Machine

/-- `CLEN <- L`, `CCNT <- 0`. -/
def declareLength (len : Word) (s : State) : State :=
  s.withRegs { s.regs with clen := len, ccnt := 0#32 }

/-- `CRC <- 0xFFFFFFFF`. -/
def startCrc (s : State) : State := s.withRegs { s.regs with crc := crcOnes }

/-- `CSTATE <- 1`. -/
def openChunk (s : State) : State := s.withRegs { s.regs with cstate := .cOpen }

/-- `CSTATE <- 0`, `CSEQ <- CSEQ + 1`. -/
def closeChunk (s : State) : State :=
  s.withRegs { s.regs with cstate := .cIdle, cseq := s.regs.cseq + 1#2 }

/-- `CHUNK_BEGIN L` after its three checks: the length field, unfolded, then the tag, folded into a fresh CRC, then the chunk is open (R163). -/
def emitChunkHead (len : Word) (s : State) : Ran :=
  (emitAll outByte (beBytes len 4) (declareLength len s)).andThen fun t =>
    (emitAll outFolded (beBytes t.regs.tag 4) (startCrc t)).andThen fun u =>
      .done (openChunk u)

/-- `CHUNK_BEGIN L` (R163). -/
def execChunkBegin (len : Word) (s : State) : Host.Outcome State Fault Refusal :=
  .next (runCommand 0#32
    (fun t =>
      (requireIdle t).andThen fun t =>
        (require (expectedTag t.regs.cseq = some t.regs.tag) .chunkOrder t).andThen fun t =>
          (require (len ≤ t.params.chunkLenMax) .chunkLength t).andThen (emitChunkHead len)) s)

/-- `CHUNK_END` (R166). -/
def execChunkEnd (s : State) : Host.Outcome State Fault Refusal :=
  .next (runCommand 0#32
    (fun t =>
      (requireChunk t).andThen fun t =>
        (require (t.regs.ccnt = t.regs.clen) .chunkUnderrun t).andThen fun t =>
          (emitAll outByte (beBytes (t.regs.crc ^^^ crcOnes) 4) t).andThen fun u =>
            .done (closeChunk u)) s)

end Sys2Proof.Machine
end

