-- ==== Sys2Proof/Machine/System.lean ====
section
/-! DEFINITION. The system commands `START`, `RDREG`, `WRREG` (`45_system_commands.md`). -/

namespace Sys2Proof.Machine

/-- `START` (R195): legal in every state, halted included. -/
def execStart (s : State) : Host.Outcome State Fault Refusal := .next (s.resetRegs.respond statusOk 0#32)

/-- `WRREG` of the three writable registers (R197). -/
def writeRegister (w : Regs → Regs) (s : State) : State :=
  runCommand 0#32 (fun t => (requireIdle t).andThen fun u => .done (u.withRegs (w u.regs))) s

/-- `WRREG CTRL, v`: `CTRL.MEASURE <- v[0]` (R197). Log entry 13. -/
def execWrregCtrl (v : Word) (s : State) : Host.Outcome State Fault Refusal :=
  .next (writeRegister (fun r => { r with measure := v.getLsbD 0 }) s)

/-- `WRREG TAG, v` (R197). -/
def execWrregTag (v : Word) (s : State) : Host.Outcome State Fault Refusal :=
  .next (writeRegister (fun r => { r with tag := v }) s)

/-- `WRREG COUNT, v` (R197). -/
def execWrregCount (v : Word) (s : State) : Host.Outcome State Fault Refusal :=
  .next (writeRegister (fun r => { r with count := v }) s)

/-- `RDREG STATUS` (R196). -/
def execRdregStatus (s : State) : Host.Outcome State Fault Refusal := .next (readRegister .status s)

/-- `RDREG CTRL` (R196). -/
def execRdregCtrl (s : State) : Host.Outcome State Fault Refusal := .next (readRegister .ctrl s)

/-- `RDREG TAG` (R196). -/
def execRdregTag (s : State) : Host.Outcome State Fault Refusal := .next (readRegister .tag s)

/-- `RDREG COUNT` (R196). -/
def execRdregCount (s : State) : Host.Outcome State Fault Refusal := .next (readRegister .count s)

/-- `RDREG CRC` (R196): the raw accumulator. -/
def execRdregCrc (s : State) : Host.Outcome State Fault Refusal := .next (readRegister .crc s)

/-- `RDREG ADLER` (R196). -/
def execRdregAdler (s : State) : Host.Outcome State Fault Refusal := .next (readRegister .adler s)

/-- `RDREG CLEN` (R196). -/
def execRdregClen (s : State) : Host.Outcome State Fault Refusal := .next (readRegister .clen s)

/-- `RDREG CCNT` (R196). -/
def execRdregCcnt (s : State) : Host.Outcome State Fault Refusal := .next (readRegister .ccnt s)

/-- `RDREG ZREM` (R196). -/
def execRdregZrem (s : State) : Host.Outcome State Fault Refusal := .next (readRegister .zrem s)

/-- `RDREG ZBLK` (R196). -/
def execRdregZblk (s : State) : Host.Outcome State Fault Refusal := .next (readRegister .zblk s)

end Sys2Proof.Machine
end

