-- ==== Sys2Proof/Machine/Writer.lean ====
section
/-! DEFINITION. The byte-order writer's commands (`42_byte_order_writer.md`). -/

namespace Sys2Proof.Machine

/-- `WRITE_BE n, v` (R152). -/
def writeBeCommand (n : Nat) (v : Word) (s : State) : State :=
  runCommand 0#32 (fun t => (requireNoStream t).andThen (writeBE v n)) s

/-- `WRITE_LE n, v` (R153). -/
def writeLeCommand (n : Nat) (v : Word) (s : State) : State :=
  runCommand 0#32 (fun t => (requireNoStream t).andThen (writeLE v n)) s

/-- `WRITE_BE 0, v` (R152): emits nothing. -/
def execWriteBe0 (v : Word) (s : State) : Host.Outcome State Fault Refusal := .next (writeBeCommand 0 v s)

/-- `WRITE_BE 1, v` (R152). -/
def execWriteBe1 (v : Word) (s : State) : Host.Outcome State Fault Refusal := .next (writeBeCommand 1 v s)

/-- `WRITE_BE 2, v` (R152). -/
def execWriteBe2 (v : Word) (s : State) : Host.Outcome State Fault Refusal := .next (writeBeCommand 2 v s)

/-- `WRITE_BE 3, v` (R152). -/
def execWriteBe3 (v : Word) (s : State) : Host.Outcome State Fault Refusal := .next (writeBeCommand 3 v s)

/-- `WRITE_BE 4, v` (R152). -/
def execWriteBe4 (v : Word) (s : State) : Host.Outcome State Fault Refusal := .next (writeBeCommand 4 v s)

/-- `WRITE_LE 0, v` (R153): emits nothing. -/
def execWriteLe0 (v : Word) (s : State) : Host.Outcome State Fault Refusal := .next (writeLeCommand 0 v s)

/-- `WRITE_LE 1, v` (R153). -/
def execWriteLe1 (v : Word) (s : State) : Host.Outcome State Fault Refusal := .next (writeLeCommand 1 v s)

/-- `WRITE_LE 2, v` (R153). -/
def execWriteLe2 (v : Word) (s : State) : Host.Outcome State Fault Refusal := .next (writeLeCommand 2 v s)

/-- `WRITE_LE 3, v` (R153). -/
def execWriteLe3 (v : Word) (s : State) : Host.Outcome State Fault Refusal := .next (writeLeCommand 3 v s)

/-- `WRITE_LE 4, v` (R153). -/
def execWriteLe4 (v : Word) (s : State) : Host.Outcome State Fault Refusal := .next (writeLeCommand 4 v s)

end Sys2Proof.Machine
end

