-- ==== Sys2Proof/Machine/Zlib.lean ====
section
/-! DEFINITION. The zlib stored-block wrapper's commands (`44_zlib_stored.md`). -/

namespace Sys2Proof.Machine

/-- `L = min(ZREM, ZBLOCK_CAP)`, the data bytes the next stored block will carry (R178). -/
def blockLength (zrem : Word) (cap : Half) : Half :=
  if zrem ≤ cap.setWidth 32 then zrem.setWidth 16 else cap

/-- The stored block's header byte: `0x01` when no data will remain after the block, else `0x00` (R176, R178). -/
def blockFinal (zrem : Word) (cap : Half) : Byte :=
  if zrem ≤ cap.setWidth 32 then 0x01#8 else 0x00#8

/-- `ZBLK <- L`. -/
def setBlock (len : Half) (s : State) : State := s.withRegs { s.regs with zblk := len }

/-- `StartBlock()` (R178): header byte, `LEN`, its one's complement, both little-endian, then `ZBLK`. -/
def startBlock (s : State) : Ran :=
  let len := blockLength s.regs.zrem s.params.zblockCap
  (payByte (blockFinal s.regs.zrem s.params.zblockCap) s).andThen fun t =>
    (writeLE (len.setWidth 32) 2 t).andThen fun t =>
      (writeLE ((len ^^^ 0xFFFF#16).setWidth 32) 2 t).andThen fun t =>
        .done (setBlock len t)

/-- `S1 <- 1`, `S2 <- 0`, `ZREM <- N`, `ZBLK <- 0`, `ZSTATE <- 1` (R177). -/
def openStream (total : Word) (s : State) : State :=
  s.withRegs { adlerInit s.regs with zrem := total, zblk := 0#16, zstate := .zOpen }

/-- `Z_BEGIN N` (R177). -/
def execZBegin (total : Word) (s : State) : Host.Outcome State Fault Refusal :=
  .next (runCommand 0#32
    (fun t =>
      (requireNoStream t).andThen fun t =>
        (payByte t.params.zhdr0 (openStream total t)).andThen fun t =>
          (payByte t.params.zhdr1 t).andThen startBlock) s)

/-- `AdlerStep(b)`, `ZREM <- ZREM - 1`, `ZBLK <- ZBLK - 1` (R179). -/
def tookData (b : Byte) (s : State) : State :=
  s.withRegs { adlerStep b s.regs with zrem := s.regs.zrem - 1#32, zblk := s.regs.zblk - 1#16 }

/-- `if ZBLK = 0 and ZREM > 0 then StartBlock()` (R179). -/
def nextBlock (s : State) : Ran :=
  if s.regs.zblk = 0#16 ∧ s.regs.zrem ≠ 0#32 then startBlock s else .done s

/-- `Z_DATA b` (R179). -/
def execZData (b : Byte) (s : State) : Host.Outcome State Fault Refusal :=
  .next (runCommand 0#32
    (fun t =>
      (requireStream t).andThen fun t =>
        (require (t.regs.zrem ≠ 0#32) .zOverrun t).andThen fun t =>
          (payByte b t).andThen fun t => nextBlock (tookData b t)) s)

/-- `ZSTATE <- 0`. -/
def closeStream (s : State) : State := s.withRegs { s.regs with zstate := .zIdle }

/-- `Z_END` (R180): the trailer big-endian, through `Pay`. -/
def execZEnd (s : State) : Host.Outcome State Fault Refusal :=
  .next (runCommand 0#32
    (fun t =>
      (requireStream t).andThen fun t =>
        (require (t.regs.zrem = 0#32) .zUnderrun t).andThen fun t =>
          (writeBE t.regs.adler 4 t).andThen fun t => .done (closeStream t)) s)

end Sys2Proof.Machine
end

