-- ==== Sys2Proof/Machine/Dispatch.lean ====
section
/-! DEFINITION. One arm per command: its meaning (`60_exceptions.md` R240). -/

namespace Sys2Proof.Machine

def exec (i : Instr) (s : State) : Host.Outcome State Fault Refusal :=
  match i with
  | .start => Sys2Proof.Machine.execStart s
  | .wrregCtrl v => Sys2Proof.Machine.execWrregCtrl v s
  | .wrregTag v => Sys2Proof.Machine.execWrregTag v s
  | .wrregCount v => Sys2Proof.Machine.execWrregCount v s
  | .rdregStatus => Sys2Proof.Machine.execRdregStatus s
  | .rdregCtrl => Sys2Proof.Machine.execRdregCtrl s
  | .rdregTag => Sys2Proof.Machine.execRdregTag s
  | .rdregCount => Sys2Proof.Machine.execRdregCount s
  | .rdregCrc => Sys2Proof.Machine.execRdregCrc s
  | .rdregAdler => Sys2Proof.Machine.execRdregAdler s
  | .rdregClen => Sys2Proof.Machine.execRdregClen s
  | .rdregCcnt => Sys2Proof.Machine.execRdregCcnt s
  | .rdregZrem => Sys2Proof.Machine.execRdregZrem s
  | .rdregZblk => Sys2Proof.Machine.execRdregZblk s
  | .crcInit => Sys2Proof.Machine.execCrcInit s
  | .crcUpdate b => Sys2Proof.Machine.execCrcUpdate b s
  | .crcFinal => Sys2Proof.Machine.execCrcFinal s
  | .adlInit => Sys2Proof.Machine.execAdlInit s
  | .adlUpdate b => Sys2Proof.Machine.execAdlUpdate b s
  | .adlFinal => Sys2Proof.Machine.execAdlFinal s
  | .writeBe0 v => Sys2Proof.Machine.execWriteBe0 v s
  | .writeBe1 v => Sys2Proof.Machine.execWriteBe1 v s
  | .writeBe2 v => Sys2Proof.Machine.execWriteBe2 v s
  | .writeBe3 v => Sys2Proof.Machine.execWriteBe3 v s
  | .writeBe4 v => Sys2Proof.Machine.execWriteBe4 v s
  | .writeLe0 v => Sys2Proof.Machine.execWriteLe0 v s
  | .writeLe1 v => Sys2Proof.Machine.execWriteLe1 v s
  | .writeLe2 v => Sys2Proof.Machine.execWriteLe2 v s
  | .writeLe3 v => Sys2Proof.Machine.execWriteLe3 v s
  | .writeLe4 v => Sys2Proof.Machine.execWriteLe4 v s
  | .chunkBegin len => Sys2Proof.Machine.execChunkBegin len s
  | .chunkEnd => Sys2Proof.Machine.execChunkEnd s
  | .zBegin total => Sys2Proof.Machine.execZBegin total s
  | .zData b => Sys2Proof.Machine.execZData b s
  | .zEnd => Sys2Proof.Machine.execZEnd s

end Sys2Proof.Machine
end

