-- ==== Sys2Proof/Machine/Fetch.lean ====
section
/-! DEFINITION. Taking a host event: the block fetches nothing, the host presents each command word (`10_state.md` R32, `20_memory.md` R71). -/

namespace Sys2Proof.Machine

/-- The block's step for one command word (`60_exceptions.md` R240). -/
def execWord (w : CommandWord) (s : State) : Host.Outcome State Fault Refusal :=
  match decode w with
  | .command i => exec i s
  | .illegal _ => .next (illegalCommand s)

/-- A command word cut short by hardware reset (`70_reset_and_hazards.md` R271). -/
def execCut (w : CommandWord) (k : Nat) (s : State) : Host.Outcome State Fault Refusal :=
  match execWord w s with
  | .next t => .next (s.cutByReset t k)
  | .fault f => .fault f
  | .refused r => .refused r

/-- What the block does with one event (R71, R240, R271). -/
def handle (e : HostEvent) (s : State) : Host.Outcome State Fault Refusal :=
  match e with
  | .command w => execWord w s
  | .reset => .next s.resetRegs
  | .resetDuring w k => execCut w k s

/-- Take the oldest pending event. With none the block holds its registers unchanged (`60_exceptions.md` R258; log entry 3). -/
def takeEvent (s : State) : Host.Outcome State Fault Refusal :=
  match s.events with
  | [] => .next s
  | e :: rest => handle e { s with events := rest }

/-- The command word `w` is the next event; everything else as it was. -/
def placeCommand (w : CommandWord) (s : State) : State := { s with events := .command w :: s.events }

end Sys2Proof.Machine
end

