-- ==== Sys2Proof/Machine/Step.lean ====
section
/-! DEFINITION. One step of the machine, and placing a command where the step takes it from. -/

namespace Sys2Proof.Machine

/-- One step: the oldest host event is taken and handled whole (`00_scope.md` R9, `20_memory.md` R71). Log entry 9. -/
def step (s : State) : Host.Outcome State Fault Refusal := takeEvent s

/-- The table word `w` as the next command (log entry 1). -/
def State.withFetchWord (s : State) (nbits w : Nat) : State := placeCommand (tableWord nbits w) s

end Sys2Proof.Machine
end

