-- ==== Sys2Proof/Machine/Assembler.lean ====
section
/-! DEFINITION. The assembler syntax, "a convenience of the spec" (`30_encoding.md` R110). A line is a list of characters. What R110 leaves open (spaces, letter case of hexadecimal digits) is log entry 11. -/

namespace Sys2Proof.Machine

/-- The value of a digit: decimal, or hexadecimal in either case. -/
def digitValue (c : Char) : Option Nat :=
  let n := c.toNat
  if 48 ≤ n ∧ n ≤ 57 then some (n - 48)
  else if 65 ≤ n ∧ n ≤ 70 then some (n - 55)
  else if 97 ≤ n ∧ n ≤ 102 then some (n - 87)
  else none

/-- The digits of a number, most significant first. -/
def digitsValue (base : Nat) : Nat → List Char → Option Nat
  | acc, [] => some acc
  | acc, c :: cs =>
    match digitValue c with
    | some d => if d < base then digitsValue base (acc * base + d) cs else none
    | none => none

/-- A number, decimal or `0x` hexadecimal. -/
def parseNumber : List Char → Option Nat
  | '0' :: 'x' :: c :: cs => digitsValue 16 0 (c :: cs)
  | c :: cs => digitsValue 10 0 (c :: cs)
  | [] => none

/-- A value operand: a number, or a chunk tag as four characters in single quotes, most significant first. -/
def parseValue : List Char → Option Nat
  | ['\'', a, b, c, d, '\''] =>
    if a.toNat < 128 ∧ b.toNat < 128 ∧ c.toNat < 128 ∧ d.toNat < 128 then
      some (((a.toNat * 256 + b.toNat) * 256 + c.toNat) * 256 + d.toNat)
    else none
  | cs => parseNumber cs

/-- A register operand, by name or by number. -/
def parseRegister : List Char → Option Nat
  | ['S', 'T', 'A', 'T', 'U', 'S'] => some 0
  | ['C', 'T', 'R', 'L'] => some 1
  | ['T', 'A', 'G'] => some 2
  | ['C', 'O', 'U', 'N', 'T'] => some 3
  | ['C', 'R', 'C'] => some 4
  | ['A', 'D', 'L', 'E', 'R'] => some 5
  | ['C', 'L', 'E', 'N'] => some 6
  | ['C', 'C', 'N', 'T'] => some 7
  | ['Z', 'R', 'E', 'M'] => some 8
  | ['Z', 'B', 'L', 'K'] => some 9
  | cs => parseNumber cs

/-- Cut at the commas. -/
def splitCommas : List Char → List (List Char)
  | [] => [[]]
  | c :: cs =>
    match c, splitCommas cs with
    | ',', parts => [] :: parts
    | c, part :: parts => (c :: part) :: parts
    | c, [] => [[c]]

/-- The word of group, function and immediate (R100), refused where a field does not hold its operand or the word is illegal (R105, R110). -/
def assembleWord (grp : Nat) (fn imm : Option Nat) : Option CommandWord :=
  match fn, imm with
  | some f, some v =>
    if f < 16 ∧ v < 2 ^ 32 then
      let w := BitVec.ofNat 40 (grp * 2 ^ 36 + f * 2 ^ 32 + v)
      match decode w with
      | .command _ => some w
      | .illegal _ => none
    else none
  | _, _ => none

/-- One mnemonic with its operands, in the order R110 gives. -/
def assembleCommand : List Char → List (List Char) → Option CommandWord
  | ['S', 'T', 'A', 'R', 'T'], [[]] => assembleWord 0x0 (some 1) (some 0)
  | ['W', 'R', 'R', 'E', 'G'], [r, v] => assembleWord 0x1 (parseRegister r) (parseValue v)
  | ['R', 'D', 'R', 'E', 'G'], [r] => assembleWord 0x2 (parseRegister r) (some 0)
  | ['C', 'R', 'C', '_', 'I', 'N', 'I', 'T'], [[]] => assembleWord 0x3 (some 0) (some 0)
  | ['C', 'R', 'C', '_', 'U', 'P', 'D', 'A', 'T', 'E'], [b] => assembleWord 0x3 (some 1) (parseValue b)
  | ['C', 'R', 'C', '_', 'F', 'I', 'N', 'A', 'L'], [[]] => assembleWord 0x3 (some 2) (some 0)
  | ['A', 'D', 'L', '_', 'I', 'N', 'I', 'T'], [[]] => assembleWord 0x4 (some 0) (some 0)
  | ['A', 'D', 'L', '_', 'U', 'P', 'D', 'A', 'T', 'E'], [b] => assembleWord 0x4 (some 1) (parseValue b)
  | ['A', 'D', 'L', '_', 'F', 'I', 'N', 'A', 'L'], [[]] => assembleWord 0x4 (some 2) (some 0)
  | ['W', 'R', 'I', 'T', 'E', '_', 'B', 'E'], [n, v] => assembleWord 0x5 (parseNumber n) (parseValue v)
  | ['W', 'R', 'I', 'T', 'E', '_', 'L', 'E'], [n, v] => assembleWord 0x6 (parseNumber n) (parseValue v)
  | ['C', 'H', 'U', 'N', 'K', '_', 'B', 'E', 'G', 'I', 'N'], [l] => assembleWord 0x7 (some 0) (parseValue l)
  | ['C', 'H', 'U', 'N', 'K', '_', 'E', 'N', 'D'], [[]] => assembleWord 0x7 (some 1) (some 0)
  | ['Z', '_', 'B', 'E', 'G', 'I', 'N'], [n] => assembleWord 0x8 (some 0) (parseValue n)
  | ['Z', '_', 'D', 'A', 'T', 'A'], [b] => assembleWord 0x8 (some 1) (parseValue b)
  | ['Z', '_', 'E', 'N', 'D'], [[]] => assembleWord 0x8 (some 2) (some 0)
  | _, _ => none

/-- One line: mnemonic, operands separated by commas, an optional comment from `;` on. -/
def assembleLine (line : List Char) : Option CommandWord :=
  let text := (line.takeWhile (fun c => c ≠ ';')).dropWhile (fun c => c = ' ')
  assembleCommand (text.takeWhile (fun c => c ≠ ' '))
    (splitCommas ((text.dropWhile (fun c => c ≠ ' ')).filter (fun c => c ≠ ' ')))

end Sys2Proof.Machine
end

