-- ==== Sys2Proof/Machine/Streams.lean ====
section
/-! DEFINITION. The byte streams the rules speak of, as functions of their data: checksums of a whole sequence (`40_crc32.md` R135, `41_adler32.md` R145), chunks (`43_chunk_framer.md` R160), zlib streams (`44_zlib_stored.md` R175, R176, R181, R182, R184). The block computes none of these as a whole; laws compare what it emits with them. -/

namespace Sys2Proof.Machine

/-- The CRC accumulator after a sequence of bytes (`40_crc32.md` R135). -/
def foldBytes (c : Word) (bs : List Byte) : Word := bs.foldl fold c

/-- `Crc32(s)` (R135). -/
def crc32 (bs : List Byte) : Word := foldBytes crcOnes bs ^^^ crcOnes

/-- The registers after `AdlerStep` of each byte in order (`41_adler32.md` R141, R145). -/
def adlerBytes (r : Regs) (bs : List Byte) : Regs := bs.foldl (fun r b => adlerStep b r) r

/-- `Adler32(s)` (R145): from the initial pair, packed. -/
def adler32 (bs : List Byte) : Word := (adlerBytes (adlerInit Regs.reset) bs).adler

/-- `BE32(x)` (`43_chunk_framer.md` R167). -/
def be32 (v : Word) : List Byte := beBytes v 4

/-- `LE16(x)` (`44_zlib_stored.md` R184). -/
def le16 (v : Half) : List Byte := leBytes (v.setWidth 32) 2

/-- `Chunk(t, p)` (`43_chunk_framer.md` R160, `46_png_host_sequence.md` R215). -/
def chunkBytes (tag : Word) (payload : List Byte) : List Byte :=
  be32 (BitVec.ofNat 32 payload.length) ++ be32 tag ++ payload ++ be32 (crc32 (be32 tag ++ payload))

/-- `NBlocks(N) = max(1, ceil(N / ZBLOCK_CAP))` (`44_zlib_stored.md` R181, R182). -/
def nBlocks (cap n : Nat) : Nat := max 1 ((n + cap - 1) / cap)

/-- `ZLen(N) = 6 + 5 * NBlocks(N) + N`, a mathematical integer (R182). -/
def zLen (cap n : Nat) : Nat := 6 + 5 * nBlocks cap n + n

/-- One stored block: header byte, `LEN`, its complement, the data (R176). -/
def storedBlock (final : Bool) (data : List Byte) : List Byte :=
  let len := BitVec.ofNat 16 data.length
  [if final then 0x01#8 else 0x00#8] ++ le16 len ++ le16 (len ^^^ 0xFFFF#16) ++ data

/-- Block `k` of the greedy cut carries the data bytes from `k * cap` on, at most `cap` of them, and only the last is final (R181, R184). -/
def storedBlocks (cap : Nat) (data : List Byte) : List Byte :=
  (List.range (nBlocks cap data.length)).flatMap fun k =>
    storedBlock (decide (k + 1 = nBlocks cap data.length)) ((data.drop (k * cap)).take cap)

/-- The zlib stream of `data` (R175, R184). -/
def zlibStream (p : Params) (data : List Byte) : List Byte :=
  [p.zhdr0, p.zhdr1] ++ storedBlocks p.zblockCap.toNat data ++ be32 (adler32 data)

end Sys2Proof.Machine
end

