-- ==== Sys2Proof/Machine/HostProgramme.lean ====
section
/-! DEFINITION. The host's programme (`46_png_host_sequence.md`) and the pseudo-instructions it is made of (`30_encoding.md` R111). It is not part of the block (`00_scope.md` R5); the block does not enforce any of it. -/

namespace Sys2Proof.Machine

/-! ## Pseudo-instructions (`30_encoding.md` R111) -/

/-- `'IHDR'` (`30_encoding.md` R110). -/
def tagIHDR : Word := 0x49484452#32

/-- `'IDAT'`. -/
def tagIDAT : Word := 0x49444154#32

/-- `'IEND'`. -/
def tagIEND : Word := 0x49454E44#32

/-- `EMIT b`. -/
def pseudoEmit (b : Word) : List Instr := [.writeBe1 b]

/-- `PNG_SIG` (R210). -/
def pseudoPngSig : List Instr := [.writeBe4 0x89504E47#32, .writeBe4 0x0D0A1A0A#32]

/-- `CHUNK t, L`. -/
def pseudoChunk (t len : Word) : List Instr := [.wrregTag t, .chunkBegin len]

/-- `PNG_IHDR W, H` (R211). -/
def pseudoPngIhdr (w h : Word) : List Instr :=
  pseudoChunk tagIHDR 13#32 ++ [.writeBe4 w, .writeBe4 h] ++ pseudoEmit 8#32 ++ pseudoEmit 6#32
    ++ pseudoEmit 0#32 ++ pseudoEmit 0#32 ++ pseudoEmit 0#32 ++ [.chunkEnd]

/-- `PNG_IDAT_BEGIN N`. Where `N` or `ZLen(N)` does not fit 32 bits R111 is silent, and the operand is taken modulo `2^32`: DESIGN CHOICE, log entry 16. An accepted image never comes to that (R209). -/
def pseudoPngIdatBegin (p : Params) (n : Nat) : List Instr :=
  pseudoChunk tagIDAT (BitVec.ofNat 32 (zLen p.zblockCap.toNat n)) ++ [.zBegin (BitVec.ofNat 32 n)]

/-- `SCANLINE b1, ..., bk`: the filter byte 0, then the row (R212). -/
def pseudoScanline (row : List Byte) : List Instr := .zData 0x00#8 :: row.map .zData

/-- `PNG_IDAT_END`. -/
def pseudoPngIdatEnd : List Instr := [.zEnd, .chunkEnd]

/-- `PNG_IEND`. -/
def pseudoPngIend : List Instr := pseudoChunk tagIEND 0#32 ++ [.chunkEnd]

/-- `MEASURE_ON`. -/
def pseudoMeasureOn : List Instr := [.wrregCount 0#32, .wrregCtrl 1#32]

/-- `MEASURE_OFF`. -/
def pseudoMeasureOff : List Instr := [.wrregCtrl 0#32]

/-! ## The image (R205, R206) -/

/-- The caller's input (R205). -/
structure Image where
  width : Word
  height : Word
  pixels : List Byte
  deriving DecidableEq, Repr

/-- `Row(y)` (R206). -/
def Image.row (g : Image) (y : Nat) : List Byte :=
  (g.pixels.drop (4 * y * g.width.toNat)).take (4 * g.width.toNat)

/-- The rows, top first. -/
def Image.rows (g : Image) : List (List Byte) := (List.range g.height.toNat).map g.row

/-- `Payload(W, H, pixels)`: a filter byte 0 before each row (R206). -/
def Image.payload (g : Image) : List Byte := g.rows.flatMap fun row => 0x00#8 :: row

/-- `N = H * (1 + 4 * W)`, a mathematical integer (R206, R209). -/
def Image.payloadLength (g : Image) : Nat := g.height.toNat * (1 + 4 * g.width.toNat)

/-- The host's preconditions, checked before any command: buffer length (R207), zero dimensions (R208), oversize (R209). -/
def Image.accepted (p : Params) (g : Image) : Bool :=
  decide (g.pixels.length = g.width.toNat * g.height.toNat * 4)
    && decide (g.width ≠ 0#32) && decide (g.height ≠ 0#32)
    && decide (zLen p.zblockCap.toNat g.payloadLength ≤ p.chunkLenMax.toNat)

/-! ## The programme (R213, R214) -/

/-- The `Z_DATA` commands of the IDAT payload (R212). -/
def Image.dataCommands (g : Image) : List Instr := g.rows.flatMap pseudoScanline

/-- `EncodePng` (R213); none where the host rejects the image and sends no command (R207 to R209). -/
def encodePng (p : Params) (g : Image) : Option (List Instr) :=
  if g.accepted p then
    some ([.start] ++ pseudoPngSig ++ pseudoPngIhdr g.width g.height
      ++ pseudoPngIdatBegin p g.payloadLength ++ g.dataCommands ++ pseudoPngIdatEnd ++ pseudoPngIend)
  else none

/-- The measuring pass that replaces `ZLen(N)` (R214); its last command, `RDREG COUNT`, responds the length. An `N` above 32 bits is as in log entry 16. -/
def measuringPass (g : Image) : List Instr :=
  pseudoMeasureOn ++ [.zBegin (BitVec.ofNat 32 g.payloadLength)] ++ g.dataCommands ++ [.zEnd, .rdregCount]

/-- The commands of `EncodePng` with the IDAT length measured: those up to the `RDREG COUNT`, then, for the length `L` it responds, the rest (R214). `runEncodePngMeasured` takes `L` from the response. -/
def encodePngMeasured (p : Params) (g : Image) : Option (List Instr × (Word → List Instr)) :=
  if g.accepted p then
    some ([.start] ++ pseudoPngSig ++ pseudoPngIhdr g.width g.height ++ measuringPass g,
      fun len => pseudoMeasureOff ++ pseudoChunk tagIDAT len ++ [.zBegin (BitVec.ofNat 32 g.payloadLength)]
        ++ g.dataCommands ++ pseudoPngIdatEnd ++ pseudoPngIend)
  else none

/-- `PngBytes(W, H, pixels)` (R215). -/
def pngBytes (p : Params) (g : Image) : List Byte :=
  be32 0x89504E47#32 ++ be32 0x0D0A1A0A#32
    ++ chunkBytes tagIHDR (be32 g.width ++ be32 g.height ++ [0x08#8, 0x06#8, 0x00#8, 0x00#8, 0x00#8])
    ++ chunkBytes tagIDAT (zlibStream p g.payload) ++ chunkBytes tagIEND []

/-- How a host's sequence ended (R216). -/
inductive HostRun where
  /-- Every command responded `OK`. -/
  | succeeded (s : State)
  /-- The first response that was not `OK`: the host sends no further command. -/
  | failed (s : State)
  deriving DecidableEq, Repr

/-- The host sends the words one at a time, reads each response and stops at the first that is not `OK` (R213, R216). -/
def hostRun : List Instr → State → HostRun
  | [], s => .succeeded s
  | i :: rest, s =>
    match step (placeCommand (encode i) s) with
    | .next t =>
      match t.responses.getLast? with
      | some r => if r.status = statusOk then hostRun rest t else .failed t
      | none => .failed t
    | .fault _ => .failed s
    | .refused _ => .failed s

/-- The host goes on only if every command so far responded `OK` (R216). -/
def HostRun.andThen (r : HostRun) (k : State → HostRun) : HostRun :=
  match r with
  | .succeeded s => k s
  | .failed s => .failed s

/-- The data of the response the host has just read (`30_encoding.md` R109). -/
def State.lastData (s : State) : Option Word := s.responses.getLast?.map Response.data

/-- The host runs `EncodePng` (R213, R216); none where it rejects the image and sends no command (R207 to R209). -/
def runEncodePng (p : Params) (g : Image) (s : State) : Option HostRun :=
  (encodePng p g).map fun commands => hostRun commands s

/-- The host runs `EncodePng` with the IDAT length measured: `L` of `CHUNK_BEGIN L` is the data of the response to its `RDREG COUNT` (R214, R216). -/
def runEncodePngMeasured (p : Params) (g : Image) (s : State) : Option HostRun :=
  (encodePngMeasured p g).map fun commands =>
    (hostRun commands.1 s).andThen fun t =>
      match t.lastData with
      | some len => hostRun (commands.2 len) t
      | none => .failed t

end Sys2Proof.Machine
end

