-- ==== Sys2Proof/Safety.lean ====
section
/-! DEFINITION. The terms statements use: the halted condition and the invariants of the registers (`10_state.md` R50), the legality and fault tables of `60_exceptions.md` as tables (R241, R247), what the sink is willing to take, and the closed form of a completed emission. -/

namespace Sys2Proof.Machine

/-! ## Halted, and the invariants -/

/-- The block is halted exactly when `FAULT` is not 0 (`60_exceptions.md` R237). -/
abbrev State.Halted (s : State) : Prop := s.regs.fault ≠ 0#8

/-- The invariants of the registers (`10_state.md` R50), for parameters within R12's constraints; the last two hold while `FAULT` is 0. That `FAULT` holds a recorded code (R231, R236) is stated with them. -/
abbrev State.Inv (s : State) : Prop :=
  s.params.Valid
    ∧ s.regs.s1.toNat < 65521
    ∧ s.regs.s2.toNat < 65521
    ∧ s.regs.ccnt.toNat ≤ s.regs.clen.toNat
    ∧ s.regs.zblk.toNat ≤ s.regs.zrem.toNat
    ∧ s.regs.zblk.toNat ≤ s.params.zblockCap.toNat
    ∧ (s.regs.cstate = .cOpen → s.regs.cseq.toNat ≤ 2)
    ∧ s.regs.fault.toNat ≤ 0x0A
    ∧ (s.regs.fault = 0#8 → s.regs.zstate = .zIdle → s.regs.zrem = 0#32 ∧ s.regs.zblk = 0#16)
    ∧ (s.regs.fault = 0#8 → s.regs.zstate = .zOpen → s.regs.zrem ≠ 0#32 → s.regs.zblk ≠ 0#16)

/-! ## The tables of `60_exceptions.md` -/

/-- `START` and `RDREG`, which run in every state (R240). -/
def bypassesHalt : Instr → Bool
  | .start => true
  | .rdregStatus | .rdregCtrl | .rdregTag | .rdregCount | .rdregCrc
  | .rdregAdler | .rdregClen | .rdregCcnt | .rdregZrem | .rdregZblk => true
  | .wrregCtrl _ | .wrregTag _ | .wrregCount _
  | .crcInit | .crcUpdate _ | .crcFinal
  | .adlInit | .adlUpdate _ | .adlFinal
  | .writeBe0 _ | .writeBe1 _ | .writeBe2 _ | .writeBe3 _ | .writeBe4 _
  | .writeLe0 _ | .writeLe1 _ | .writeLe2 _ | .writeLe3 _ | .writeLe4 _
  | .chunkBegin _ | .chunkEnd
  | .zBegin _ | .zData _ | .zEnd => false

/-- One row of the state legality table: is the command admitted idle, with a chunk open, in a raw zlib stream, in a zlib stream in a chunk (R241). -/
structure LegalityRow where
  idle : Bool
  chunk : Bool
  rawStream : Bool
  streamInChunk : Bool
  deriving DecidableEq, Repr

/-- The table of R241. -/
def legalityRow : Instr → LegalityRow
  | .start => ⟨true, true, true, true⟩
  | .rdregStatus | .rdregCtrl | .rdregTag | .rdregCount | .rdregCrc
  | .rdregAdler | .rdregClen | .rdregCcnt | .rdregZrem | .rdregZblk => ⟨true, true, true, true⟩
  | .wrregCtrl _ | .wrregTag _ | .wrregCount _ => ⟨true, false, false, false⟩
  | .crcInit | .crcUpdate _ | .crcFinal => ⟨true, false, true, false⟩
  | .adlInit | .adlUpdate _ | .adlFinal => ⟨true, true, false, false⟩
  | .writeBe0 _ | .writeBe1 _ | .writeBe2 _ | .writeBe3 _ | .writeBe4 _
  | .writeLe0 _ | .writeLe1 _ | .writeLe2 _ | .writeLe3 _ | .writeLe4 _ => ⟨true, true, false, false⟩
  | .chunkBegin _ => ⟨true, false, false, false⟩
  | .chunkEnd => ⟨false, true, false, false⟩
  | .zBegin _ => ⟨true, true, false, false⟩
  | .zData _ | .zEnd => ⟨false, false, true, true⟩

/-- The column of the table for the present `CSTATE`, `ZSTATE` (R241). -/
def LegalityRow.column (r : LegalityRow) : CState → ZState → Bool
  | .cIdle, .zIdle => r.idle
  | .cOpen, .zIdle => r.chunk
  | .cIdle, .zOpen => r.rawStream
  | .cOpen, .zOpen => r.streamInChunk

/-- The command is admitted in the present state of the framer and the wrapper (R241). -/
def State.admits (s : State) (i : Instr) : Bool := (legalityRow i).column s.regs.cstate s.regs.zstate

/-- The matrix of R247: the faults a command can raise. `ILLEGAL_CMD` belongs to the word, not to a command. -/
def raisable : Instr → List FaultCode
  | .start => []
  | .rdregStatus | .rdregCtrl | .rdregTag | .rdregCount | .rdregCrc
  | .rdregAdler | .rdregClen | .rdregCcnt | .rdregZrem | .rdregZblk => []
  | .wrregCtrl _ | .wrregTag _ | .wrregCount _ => [.badState]
  | .crcInit | .crcUpdate _ | .crcFinal => [.badState]
  | .adlInit | .adlUpdate _ | .adlFinal => [.badState]
  | .writeBe0 _ | .writeLe0 _ => [.badState]
  | .writeBe1 _ | .writeBe2 _ | .writeBe3 _ | .writeBe4 _
  | .writeLe1 _ | .writeLe2 _ | .writeLe3 _ | .writeLe4 _ =>
    [.badState, .chunkOverrun, .sinkFail, .countOverflow]
  | .chunkBegin _ => [.badState, .chunkOrder, .chunkLength, .sinkFail, .countOverflow]
  | .chunkEnd => [.badState, .chunkUnderrun, .sinkFail, .countOverflow]
  | .zBegin _ => [.badState, .chunkOverrun, .sinkFail, .countOverflow]
  | .zData _ => [.badState, .chunkOverrun, .zOverrun, .sinkFail, .countOverflow]
  | .zEnd => [.badState, .chunkOverrun, .zUnderrun, .sinkFail, .countOverflow]

/-! ## Emission -/

/-- The sink's answer to the `j`-th append from now, counted from 0 (`20_memory.md` R73). -/
def State.answerAt (s : State) (j : Nat) : SinkAnswer :=
  match s.sinkScript.drop j with
  | a :: _ => a
  | [] => Config.freeSinkAnswer (s.asked + j)

/-- `Out` takes the next `n` bytes without a fault: `COUNT` has room, and in normal mode the sink answers `ok` to each (`20_memory.md` R76). -/
abbrev State.Takes (s : State) (n : Nat) : Prop :=
  s.regs.count.toNat + n < 2 ^ 32 ∧ (s.regs.measure = true ∨ ∀ j < n, s.answerAt j = .ok)

/-- `Pay` finds room for `n` payload bytes: no chunk is open, or the declared length has `n` bytes left (`20_memory.md` R77). -/
abbrev State.Fits (s : State) (n : Nat) : Prop :=
  s.regs.cstate = .cIdle ∨ s.regs.ccnt.toNat + n ≤ s.regs.clen.toNat

/-- The state once `bs` have gone out through `Out`: counted, and in normal mode appended (`20_memory.md` R73, R76). -/
def State.afterOut (s : State) (bs : List Byte) : State :=
  let r := { s.regs with count := s.regs.count + BitVec.ofNat 32 bs.length }
  if s.regs.measure then { s with regs := r }
  else
    { s with
      regs := r
      sinkScript := s.sinkScript.drop bs.length
      asked := s.asked + bs.length
      out := s.out ++ bs }

/-- The state once `bs` have gone out through `Pay`: as through `Out`, and with a chunk open folded into `CRC` and counted in `CCNT` (`20_memory.md` R77). -/
def State.afterPay (s : State) (bs : List Byte) : State :=
  match s.regs.cstate with
  | .cIdle => s.afterOut bs
  | .cOpen =>
    let t := s.afterOut bs
    { t with regs := { t.regs with
        crc := foldBytes s.regs.crc bs
        ccnt := s.regs.ccnt + BitVec.ofNat 32 bs.length } }

/-- The response `(OK, data)` (`30_encoding.md` R109). -/
def State.answering (s : State) (data : Word) : State :=
  { s with responses := s.responses ++ [{ status := 0x00#8, data := data }] }

/-- The fault `code` is taken: recorded in `FAULT` and answered, nothing else changed (`60_exceptions.md` R236). -/
def State.faulting (s : State) (code : Byte) : State :=
  { s with
    regs := { s.regs with fault := code }
    responses := s.responses ++ [{ status := code, data := 0#32 }] }

/-- Answered `HALTED`, nothing else changed (`60_exceptions.md` R246). -/
def State.refusingHalted (s : State) : State :=
  { s with responses := s.responses ++ [{ status := 0x0B#8, data := 0#32 }] }

/-- A command that has come to a byte for `Out`, in the state `t`, ends so where the byte is stopped: `COUNT_OVERFLOW` where the count is full, whatever the sink would answer, else `SINK_FAIL` where the sink fails the byte (`20_memory.md` R76, `60_exceptions.md` R244, R245, R250). -/
abbrev State.OutStopped (t : State) (outcome : Host.Outcome State Fault Refusal) : Prop :=
  (t.regs.count = 0xFFFFFFFF#32 → outcome = .next (t.faulting 0x0A#8))
    ∧ (t.regs.count ≠ 0xFFFFFFFF#32 → t.regs.measure = false → t.answerAt 0 = .fail →
        outcome = .next (State.faulting
          { t with sinkScript := t.sinkScript.drop 1, asked := t.asked + 1 } 0x09#8))

/-- A command that has come to a byte for `Pay`, in the state `t`, ends so where the byte is stopped: `CHUNK_OVERRUN` where the open chunk is full, whatever the count and the sink, else as for `Out` (`20_memory.md` R77, `60_exceptions.md` R238, R250). -/
abbrev State.PayStopped (t : State) (outcome : Host.Outcome State Fault Refusal) : Prop :=
  (t.regs.cstate = .cOpen ∧ t.regs.ccnt = t.regs.clen → outcome = .next (t.faulting 0x05#8))
    ∧ (t.Fits 1 → t.OutStopped outcome)

/-- Byte `k` of `v` as a number, byte 0 the least significant (`42_byte_order_writer.md` R150). -/
def octet (v : Word) (k : Nat) : Byte := BitVec.ofNat 8 (v.toNat / 256 ^ k)

/-- The bytes a writer command asks to emit, in order (`42_byte_order_writer.md` R150 to R153); none for any other command. -/
def writerBytes : Instr → Option (List Byte)
  | .writeBe0 _ | .writeLe0 _ => some []
  | .writeBe1 v | .writeLe1 v => some [octet v 0]
  | .writeBe2 v => some [octet v 1, octet v 0]
  | .writeBe3 v => some [octet v 2, octet v 1, octet v 0]
  | .writeBe4 v => some [octet v 3, octet v 2, octet v 1, octet v 0]
  | .writeLe2 v => some [octet v 0, octet v 1]
  | .writeLe3 v => some [octet v 0, octet v 1, octet v 2]
  | .writeLe4 v => some [octet v 0, octet v 1, octet v 2, octet v 3]
  | .start | .wrregCtrl _ | .wrregTag _ | .wrregCount _
  | .rdregStatus | .rdregCtrl | .rdregTag | .rdregCount | .rdregCrc
  | .rdregAdler | .rdregClen | .rdregCcnt | .rdregZrem | .rdregZblk
  | .crcInit | .crcUpdate _ | .crcFinal
  | .adlInit | .adlUpdate _ | .adlFinal
  | .chunkBegin _ | .chunkEnd
  | .zBegin _ | .zData _ | .zEnd => none

/-- The header of a stored block when `n` data bytes are still to come and a block holds `cap` (`44_zlib_stored.md` R176, R178), as arithmetic: header byte, `LEN`, and `LEN`'s complement, which is 255 less each byte. -/
def blockHeader (n cap : Nat) : List Byte :=
  let len := min n cap
  [BitVec.ofNat 8 (if n ≤ cap then 1 else 0),
    BitVec.ofNat 8 (len % 256), BitVec.ofNat 8 (len / 256),
    BitVec.ofNat 8 (255 - len % 256), BitVec.ofNat 8 (255 - len / 256)]

/-! ## Sequences of commands -/

/-- The state after the commands, one after another; none if one of them does not answer a next state. -/
def execAll : List Instr → State → Option State
  | [], s => some s
  | i :: rest, s =>
    match exec i s with
    | .next t => execAll rest t
    | .fault _ => none
    | .refused _ => none

/-- The data byte of a `Z_DATA` command. -/
def zDataByte : Instr → Option Byte
  | .zData b => some b
  | .start | .wrregCtrl _ | .wrregTag _ | .wrregCount _
  | .rdregStatus | .rdregCtrl | .rdregTag | .rdregCount | .rdregCrc
  | .rdregAdler | .rdregClen | .rdregCcnt | .rdregZrem | .rdregZblk
  | .crcInit | .crcUpdate _ | .crcFinal
  | .adlInit | .adlUpdate _ | .adlFinal
  | .writeBe0 _ | .writeBe1 _ | .writeBe2 _ | .writeBe3 _ | .writeBe4 _
  | .writeLe0 _ | .writeLe1 _ | .writeLe2 _ | .writeLe3 _ | .writeLe4 _
  | .chunkBegin _ | .chunkEnd
  | .zBegin _ | .zEnd => none

end Sys2Proof.Machine
end

