-- ==== Sys2Proof/Certificates/Slice0/Obligations.lean ====
section
/-! DEFINITION. The statements about the model, from the spec's rules. -/

open Sys2Proof Sys2Proof.Machine

/-! ## Encoding -/

/-- Words written out from the opcode map decode to their commands (`30_encoding.md` R100 to R104). -/
def Obligations.DecodeSampleWords : Prop :=
  decode 0x0100000000#40 = .command .start
    ∧ decode 0x1100000001#40 = .command (.wrregCtrl 1#32)
    ∧ decode 0x1249484452#40 = .command (.wrregTag 0x49484452#32)
    ∧ decode 0x2900000000#40 = .command .rdregZblk
    ∧ decode 0x31000000FF#40 = .command (.crcUpdate 0xFF#8)
    ∧ decode 0x4200000000#40 = .command .adlFinal
    ∧ decode 0x54FFFFFFFF#40 = .command (.writeBe4 0xFFFFFFFF#32)
    ∧ decode 0x6200000012#40 = .command (.writeLe2 0x12#32)
    ∧ decode 0x70FFFFFFFF#40 = .command (.chunkBegin 0xFFFFFFFF#32)
    ∧ decode 0x8000000003#40 = .command (.zBegin 3#32)
    ∧ decode 0x3100000100#40 = .illegal .byteTooWide
    ∧ decode 0x1100000002#40 = .illegal .ctrlReserved
    ∧ decode 0x7100000001#40 = .illegal .immNotZero
    ∧ decode 0x0000000000#40 = .illegal .opcode

/-- Decode and encode agree in both directions: every well-formed command's word decodes to it, and every word that decodes to a command is the word of that command (`30_encoding.md` R100, R102, R108). -/
def Obligations.DecodeAndEncodeAgree : Prop :=
  (∀ i : Instr, i.wellFormed = true → decode (encode i) = .command i)
    ∧ (∀ (w : CommandWord) (i : Instr), decode w = .command i → i.wellFormed = true ∧ encode i = w)

/-- A word is illegal exactly by the four items of `30_encoding.md` R105; it raises `ILLEGAL_CMD` and changes nothing else, except that a halted block answers `HALTED`. -/
def Obligations.IllegalWordsExactly : Prop :=
  ∀ w : CommandWord,
    let g := (groupOf w).toNat
    let f := (functionOf w).toNat
    let v := (immOf w).toNat
    let noOpcode := 9 ≤ g ∨ (g = 0 ∧ f ≠ 1) ∨ (g = 1 ∧ (f = 0 ∨ 4 ≤ f)) ∨ (g = 2 ∧ 10 ≤ f)
      ∨ ((g = 3 ∨ g = 4 ∨ g = 8) ∧ 3 ≤ f) ∨ (g = 7 ∧ 2 ≤ f) ∨ ((g = 5 ∨ g = 6) ∧ 5 ≤ f)
    let noneFormat := (g = 0 ∧ f = 1) ∨ (g = 2 ∧ f ≤ 9) ∨ ((g = 3 ∨ g = 4) ∧ (f = 0 ∨ f = 2))
      ∨ (g = 7 ∧ f = 1) ∨ (g = 8 ∧ f = 2)
    let byteFormat := (g = 3 ∨ g = 4 ∨ g = 8) ∧ f = 1
    let illegal := noOpcode ∨ (noneFormat ∧ v ≠ 0) ∨ (byteFormat ∧ 256 ≤ v) ∨ (g = 1 ∧ f = 1 ∧ 2 ≤ v)
    ((∃ why, decode w = .illegal why) ↔ illegal)
      ∧ (illegal → ∀ s : State,
          (s.regs.fault = 0#8 → execWord w s = .next (s.faulting 0x01#8))
            ∧ (s.regs.fault ≠ 0#8 → execWord w s = .next s.refusingHalted))

/-! ## The step and reset -/

/-- A pending command word that decodes to `i` is run as `exec i`, the event taken from the queue; so is a word placed by `withFetchWord` (`60_exceptions.md` R240, `20_memory.md` R71). -/
def Obligations.StepRunsDecodedCommand : Prop :=
  (∀ (s : State) (w : CommandWord) (rest : List HostEvent) (i : Instr),
      s.events = .command w :: rest → decode w = .command i →
        step s = exec i { s with events := rest })
    ∧ (∀ (s : State) (nbits w : Nat) (i : Instr),
        decodeTableWord nbits w = some i → step (s.withFetchWord nbits w) = exec i s)

/-- `ResetState()`: after a hardware reset event every register has its reset value, `RDREG` of registers 0 to 9 would respond the values the rule lists, and `OUT`, the responses, the parameters and the sink's answers are as before; the state after reset has the same registers (`70_reset_and_hazards.md` R270). -/
def Obligations.ResetLeavesResetValues : Prop :=
  ∀ (s : State) (rest : List HostEvent), s.events = .reset :: rest →
    ∃ t, step s = .next t
      ∧ t.regs.crc = 0xFFFFFFFF#32 ∧ t.regs.s1 = 1#16 ∧ t.regs.s2 = 0#16
      ∧ t.regs.cstate = .cIdle ∧ t.regs.zstate = .zIdle ∧ t.regs.cseq = 0#2
      ∧ t.regs.clen = 0#32 ∧ t.regs.ccnt = 0#32 ∧ t.regs.zrem = 0#32 ∧ t.regs.zblk = 0#16
      ∧ t.regs.tag = 0#32 ∧ t.regs.measure = false ∧ t.regs.count = 0#32 ∧ t.regs.fault = 0#8
      ∧ [RegName.status, .ctrl, .tag, .count, .crc, .adler, .clen, .ccnt, .zrem, .zblk].map t.regs.read
          = [0#32, 0#32, 0#32, 0#32, 0xFFFFFFFF#32, 1#32, 0#32, 0#32, 0#32, 0#32]
      ∧ t.params = s.params ∧ t.events = rest ∧ t.sinkScript = s.sinkScript ∧ t.asked = s.asked
      ∧ t.out = s.out ∧ t.responses = s.responses
      ∧ State.reset.regs = t.regs

/-- Hardware reset during a command: whatever the command would have done, the registers end in the reset state, there is no response, and of the bytes the command would have appended exactly the first `k` have been; every length of such a beginning is reached by some `k` (`70_reset_and_hazards.md` R271). -/
def Obligations.ResetCutsCommandShort : Prop :=
  ∀ (s t : State) (w : CommandWord) (k : Nat) (rest : List HostEvent),
    s.events = .resetDuring w k :: rest → execWord w { s with events := rest } = .next t →
      ∃ u emitted, step s = .next u ∧ t.out = s.out ++ emitted
        ∧ u.out = s.out ++ emitted.take k
        ∧ u.regs = Regs.reset ∧ u.responses = s.responses ∧ u.events = rest ∧ u.params = s.params

/-- With no event pending the block holds its state (`60_exceptions.md` R258 for the registers; that a step with no event is an idle step is the model's choice, log entry 3). -/
def Obligations.NoEventHoldsState : Prop :=
  ∀ s : State, s.events = [] → step s = .next s

/-! ## The system commands -/

/-- `START` in every state, halted included: every register takes its reset value, the response is `(OK, 0)`, the sink is not touched (`45_system_commands.md` R195). -/
def Obligations.StartResetsEveryRegister : Prop :=
  ∀ s : State, exec .start s = .next (State.answering
    { s with regs :=
      { crc := 0xFFFFFFFF#32, s1 := 1#16, s2 := 0#16, cstate := .cIdle, zstate := .zIdle,
        cseq := 0#2, clen := 0#32, ccnt := 0#32, zrem := 0#32, zblk := 0#16, tag := 0#32,
        measure := false, count := 0#32, fault := 0#8 } } 0#32)

/-- `RDREG` of each of the ten registers, in every state: the response is `(OK, Reg(r))` and nothing else changes. `STATUS` and `ADLER` are stated as sums of their fields, which also says that the other bits of `STATUS` read 0 (`10_state.md` R44, R45, R47, `45_system_commands.md` R196). -/
def Obligations.RdregRespondsRegister : Prop :=
  ∀ s : State,
    (∃ v : Word, exec .rdregStatus s = .next (s.answering v)
      ∧ v.toNat = s.regs.fault.toNat + 256 * (if s.regs.cstate = .cOpen then 1 else 0)
          + 512 * (if s.regs.zstate = .zOpen then 1 else 0) + 1024 * s.regs.cseq.toNat)
    ∧ exec .rdregCtrl s = .next (s.answering (if s.regs.measure = true then 1#32 else 0#32))
    ∧ exec .rdregTag s = .next (s.answering s.regs.tag)
    ∧ exec .rdregCount s = .next (s.answering s.regs.count)
    ∧ exec .rdregCrc s = .next (s.answering s.regs.crc)
    ∧ (∃ v : Word, exec .rdregAdler s = .next (s.answering v)
      ∧ v.toNat = 65536 * s.regs.s2.toNat + s.regs.s1.toNat)
    ∧ exec .rdregClen s = .next (s.answering s.regs.clen)
    ∧ exec .rdregCcnt s = .next (s.answering s.regs.ccnt)
    ∧ exec .rdregZrem s = .next (s.answering s.regs.zrem)
    ∧ (∃ v : Word, exec .rdregZblk s = .next (s.answering v) ∧ v.toNat = s.regs.zblk.toNat)

/-- `WRREG` when idle and not halted writes the one register named and responds `(OK, 0)`; with a chunk or a zlib stream open it raises `BAD_STATE` and writes nothing else (`45_system_commands.md` R197). -/
def Obligations.WrregWritesOneRegister : Prop :=
  ∀ (s : State) (v : Word), s.regs.fault = 0#8 →
    (s.regs.cstate = .cIdle → s.regs.zstate = .zIdle →
      (v.toNat ≤ 1 → exec (.wrregCtrl v) s
        = .next (State.answering { s with regs := { s.regs with measure := decide (v.toNat = 1) } } 0#32))
      ∧ exec (.wrregTag v) s = .next (State.answering { s with regs := { s.regs with tag := v } } 0#32)
      ∧ exec (.wrregCount v) s = .next (State.answering { s with regs := { s.regs with count := v } } 0#32))
    ∧ (s.regs.cstate = .cOpen ∨ s.regs.zstate = .zOpen →
      exec (.wrregCtrl v) s = .next (s.faulting 0x02#8)
      ∧ exec (.wrregTag v) s = .next (s.faulting 0x02#8)
      ∧ exec (.wrregCount v) s = .next (s.faulting 0x02#8))

/-! ## The checksum engines -/

/-- The direct CRC commands with no chunk open: `CRC_INIT` sets the accumulator, `CRC_UPDATE` folds one byte, `CRC_FINAL` responds the accumulator exclusive-or `0xFFFFFFFF` and leaves it; with a chunk open each raises `BAD_STATE` (`40_crc32.md` R132 to R134). -/
def Obligations.CrcCommandsEffect : Prop :=
  ∀ (s : State) (b : Byte), s.regs.fault = 0#8 →
    (s.regs.cstate = .cIdle →
      exec .crcInit s = .next (State.answering { s with regs := { s.regs with crc := 0xFFFFFFFF#32 } } 0#32)
      ∧ exec (.crcUpdate b) s
          = .next (State.answering { s with regs := { s.regs with crc := fold s.regs.crc b } } 0#32)
      ∧ exec .crcFinal s = .next (s.answering (s.regs.crc ^^^ 0xFFFFFFFF#32)))
    ∧ (s.regs.cstate = .cOpen →
      exec .crcInit s = .next (s.faulting 0x02#8)
      ∧ exec (.crcUpdate b) s = .next (s.faulting 0x02#8)
      ∧ exec .crcFinal s = .next (s.faulting 0x02#8))

/-- The table-driven byte step is the bit-serial division step taken eight times on the accumulator with the byte exclusive-ored into its low end (`40_crc32.md` R130, R131). -/
def Obligations.FoldIsBitSerialDivision : Prop :=
  ∀ (c : Word) (b : Byte),
    fold c b = (fun x : Word => if x.getLsbD 0 then 0xEDB88320#32 ^^^ (x >>> 1) else x >>> 1)^[8]
      (c ^^^ b.setWidth 32)

/-- `CRC_INIT`, one `CRC_UPDATE` per byte and `CRC_FINAL`, from any state that is not halted and has no chunk open, respond `OK` throughout and end with `Crc32` of the bytes; nothing is emitted and only `CRC` changes (`40_crc32.md` R132 to R135). -/
def Obligations.CrcEngineComputesCrc32 : Prop :=
  ∀ (s : State) (bs : List Byte), s.regs.fault = 0#8 → s.regs.cstate = .cIdle →
    execAll ([.crcInit] ++ bs.map .crcUpdate ++ [.crcFinal]) s
      = some { s with
          regs := { s.regs with crc := foldBytes 0xFFFFFFFF#32 bs }
          responses := s.responses ++ List.replicate (bs.length + 1) { status := 0x00#8, data := 0#32 }
            ++ [{ status := 0x00#8, data := crc32 bs }] }

/-- Changing exactly one byte always changes `Crc32` (`40_crc32.md` R137, `95_test_vectors.md` V-CRC-9). -/
def Obligations.Crc32DetectsOneChangedByte : Prop :=
  ∀ (before after : List Byte) (a b : Byte), a ≠ b →
    crc32 (before ++ a :: after) ≠ crc32 (before ++ b :: after)

/-- A sequence followed by its own `Crc32`, least significant byte first, always leaves the same accumulator (`95_test_vectors.md` section 2.1, residue). -/
def Obligations.Crc32Residue : Prop :=
  ∀ bs : List Byte,
    foldBytes 0xFFFFFFFF#32
      (bs ++ [octet (crc32 bs) 0, octet (crc32 bs) 1, octet (crc32 bs) 2, octet (crc32 bs) 3])
      = 0xDEBB20E3#32

/-- The direct Adler commands with no zlib stream open, as arithmetic modulo 65521, the second sum using the new first; with a stream open each raises `BAD_STATE` (`41_adler32.md` R141 to R144). -/
def Obligations.AdlerCommandsEffect : Prop :=
  ∀ (s : State) (b : Byte), s.regs.fault = 0#8 →
    (s.regs.zstate = .zIdle →
      exec .adlInit s
        = .next (State.answering { s with regs := { s.regs with s1 := 1#16, s2 := 0#16 } } 0#32)
      ∧ (∃ x y : Half, x.toNat = (s.regs.s1.toNat + b.toNat) % 65521
          ∧ y.toNat = (s.regs.s2.toNat + x.toNat) % 65521
          ∧ exec (.adlUpdate b) s
            = .next (State.answering { s with regs := { s.regs with s1 := x, s2 := y } } 0#32))
      ∧ (∃ v : Word, v.toNat = 65536 * s.regs.s2.toNat + s.regs.s1.toNat
          ∧ exec .adlFinal s = .next (s.answering v)))
    ∧ (s.regs.zstate = .zOpen →
      exec .adlInit s = .next (s.faulting 0x02#8)
      ∧ exec (.adlUpdate b) s = .next (s.faulting 0x02#8)
      ∧ exec .adlFinal s = .next (s.faulting 0x02#8))

/-- Reducing at every byte gives the same residues as reducing once: `Adler32` in closed form, each byte weighted by how many sums it enters (`41_adler32.md` R141, R145). -/
def Obligations.Adler32ClosedForm : Prop :=
  ∀ bs : List Byte,
    (adler32 bs).toNat
      = 65536 * ((bs.length + (bs.zipIdx.map fun x => (bs.length - x.2) * x.1.toNat).sum) % 65521)
        + (1 + (bs.map fun b => b.toNat).sum) % 65521

/-- `ADL_INIT`, one `ADL_UPDATE` per byte and `ADL_FINAL`, from any state that is not halted and has no zlib stream open (a chunk may be open), respond `OK` throughout and end with `Adler32` of the bytes; nothing is emitted and only `S1`, `S2` change (`41_adler32.md` R142 to R145). -/
def Obligations.AdlerEngineComputesAdler32 : Prop :=
  ∀ (s : State) (bs : List Byte), s.regs.fault = 0#8 → s.regs.zstate = .zIdle →
    ∃ x y : Half, execAll ([.adlInit] ++ bs.map .adlUpdate ++ [.adlFinal]) s
      = some { s with
          regs := { s.regs with s1 := x, s2 := y }
          responses := s.responses ++ List.replicate (bs.length + 1) { status := 0x00#8, data := 0#32 }
            ++ [{ status := 0x00#8, data := adler32 bs }] }

/-! ## The byte-order writer -/

/-- A writer command, not halted, with no zlib stream open, where the sink takes its bytes and an open chunk has room for them: the bytes go out in the command's order, raw or as payload, and the response is `(OK, 0)`; inside a zlib stream it raises `BAD_STATE`, also for `n = 0` (`42_byte_order_writer.md` R150 to R153). -/
def Obligations.WriterEmitsItsBytes : Prop :=
  ∀ (i : Instr) (bs : List Byte) (s : State), writerBytes i = some bs → s.regs.fault = 0#8 →
    (s.regs.zstate = .zIdle → s.Takes bs.length → s.Fits bs.length →
      exec i s = .next ((s.afterPay bs).answering 0#32))
    ∧ (s.regs.zstate = .zOpen → exec i s = .next (s.faulting 0x02#8))

/-- A writer command that stops at a byte: the bytes before it stay emitted, that byte and the rest do not go out, and the fault is `CHUNK_OVERRUN` where the chunk is full whatever the count and the sink, else `COUNT_OVERFLOW` where the count is full and the sink is not asked, else `SINK_FAIL` where the sink fails the byte (`20_memory.md` R76 to R78, `60_exceptions.md` R238, R244, R245, R250). -/
def Obligations.WriterStopsAtFaultingByte : Prop :=
  ∀ (i : Instr) (sent : List Byte) (b : Byte) (unsent : List Byte) (s : State),
    writerBytes i = some (sent ++ b :: unsent) → s.regs.fault = 0#8 → s.regs.zstate = .zIdle →
    s.Takes sent.length → s.Fits sent.length →
      (s.afterPay sent).PayStopped (exec i s)

/-! ## The chunk framer -/

/-- `CHUNK_BEGIN L` when idle and not halted, with the expected tag, a length within the limit and a sink that takes eight bytes: length field and tag go out big-endian through `Out`, `CRC` covers the tag alone, the chunk is open with no payload counted (`43_chunk_framer.md` R163). -/
def Obligations.ChunkBeginOpensChunk : Prop :=
  ∀ (s : State) (len : Word), s.regs.fault = 0#8 → s.regs.cstate = .cIdle → s.regs.zstate = .zIdle →
    expectedTag s.regs.cseq = some s.regs.tag → len.toNat ≤ s.params.chunkLenMax.toNat → s.Takes 8 →
      let tagBytes := [octet s.regs.tag 3, octet s.regs.tag 2, octet s.regs.tag 1, octet s.regs.tag 0]
      let t := s.afterOut ([octet len 3, octet len 2, octet len 1, octet len 0] ++ tagBytes)
      exec (.chunkBegin len) s = .next (State.answering
        { t with regs := { t.regs with
            clen := len, ccnt := 0#32, crc := foldBytes 0xFFFFFFFF#32 tagBytes, cstate := .cOpen } } 0#32)

/-- The checks of `CHUNK_BEGIN` in their order, each leaving all but `FAULT` as it was: state, then order, then length (`60_exceptions.md` R233, R234, R235, R250). -/
def Obligations.ChunkBeginChecksInOrder : Prop :=
  ∀ (s : State) (len : Word), s.regs.fault = 0#8 →
    (s.regs.cstate = .cOpen ∨ s.regs.zstate = .zOpen →
      exec (.chunkBegin len) s = .next (s.faulting 0x02#8))
    ∧ (s.regs.cstate = .cIdle → s.regs.zstate = .zIdle →
      (s.regs.cseq = 3#2 ∨ expectedTag s.regs.cseq ≠ some s.regs.tag →
        exec (.chunkBegin len) s = .next (s.faulting 0x03#8))
      ∧ (expectedTag s.regs.cseq = some s.regs.tag → s.params.chunkLenMax.toNat < len.toNat →
        exec (.chunkBegin len) s = .next (s.faulting 0x04#8)))

/-- `CHUNK_END`, not halted, with a chunk open, no zlib stream, the declared payload complete and a sink that takes four bytes: the finished CRC goes out big-endian, the chunk is closed and counted (`43_chunk_framer.md` R166). In states with a chunk open and `CSEQ = 3`, which no run reaches, the sum wraps to 0: the model's choice, log entry 8, and no rule's (`10_state.md` R39 says that `CSEQ` never wraps). -/
def Obligations.ChunkEndClosesChunk : Prop :=
  ∀ s : State, s.regs.fault = 0#8 → s.regs.cstate = .cOpen → s.regs.zstate = .zIdle →
    s.regs.ccnt = s.regs.clen → s.Takes 4 →
      let v := s.regs.crc ^^^ 0xFFFFFFFF#32
      let t := s.afterOut [octet v 3, octet v 2, octet v 1, octet v 0]
      exec .chunkEnd s = .next (State.answering
        { t with regs := { t.regs with cstate := .cIdle, cseq := s.regs.cseq + 1#2 } } 0#32)

/-- The checks of `CHUNK_END` in their order: `BAD_STATE` unless a chunk and no zlib stream is open, then `CHUNK_UNDERRUN`, nothing emitted and the chunk still open (`43_chunk_framer.md` R166, `60_exceptions.md` R239). -/
def Obligations.ChunkEndChecksInOrder : Prop :=
  ∀ s : State, s.regs.fault = 0#8 →
    (s.regs.cstate = .cIdle ∨ s.regs.zstate = .zOpen → exec .chunkEnd s = .next (s.faulting 0x02#8))
    ∧ (s.regs.cstate = .cOpen → s.regs.zstate = .zIdle → s.regs.ccnt ≠ s.regs.clen →
      exec .chunkEnd s = .next (s.faulting 0x06#8))

/-- A framer command that stops at a byte. `CHUNK_BEGIN`: the bytes before it stay emitted, `CLEN` and `CCNT` are written, `CRC` covers the tag bytes sent so far, or is as it was while the length field is not complete, and no chunk is open. `CHUNK_END`: the bytes before it stay emitted, the chunk stays open and uncounted (`43_chunk_framer.md` R163, R166, `20_memory.md` R78). -/
def Obligations.FramerStopsAtFaultingByte : Prop :=
  ∀ (s : State) (sent : List Byte) (b : Byte) (unsent : List Byte), s.regs.fault = 0#8 →
    s.regs.zstate = .zIdle → s.Takes sent.length →
      (∀ len : Word, s.regs.cstate = .cIdle → expectedTag s.regs.cseq = some s.regs.tag →
        len.toNat ≤ s.params.chunkLenMax.toNat →
        [octet len 3, octet len 2, octet len 1, octet len 0,
          octet s.regs.tag 3, octet s.regs.tag 2, octet s.regs.tag 1, octet s.regs.tag 0]
            = sent ++ b :: unsent →
          let t := s.afterOut sent
          State.OutStopped
            { t with regs := { t.regs with
                clen := len, ccnt := 0#32
                crc := if sent.length < 4 then s.regs.crc else foldBytes 0xFFFFFFFF#32 (sent.drop 4) } }
            (exec (.chunkBegin len) s))
      ∧ (s.regs.cstate = .cOpen → s.regs.ccnt = s.regs.clen →
          [octet (s.regs.crc ^^^ 0xFFFFFFFF#32) 3, octet (s.regs.crc ^^^ 0xFFFFFFFF#32) 2,
            octet (s.regs.crc ^^^ 0xFFFFFFFF#32) 1, octet (s.regs.crc ^^^ 0xFFFFFFFF#32) 0]
              = sent ++ b :: unsent →
          (s.afterOut sent).OutStopped (exec .chunkEnd s))

/-- The chunk law. `CHUNK_BEGIN L`, then any commands but `START` and `CHUNK_END`, then `CHUNK_END`, with no fault at the end: in normal mode `OUT` has grown by exactly the length, the tag, the `L` bytes the commands between emitted, and `Crc32` of tag and payload; in measure mode by nothing; and `COUNT` by `12 + L` in both (`43_chunk_framer.md` R160, R164, R167). -/
def Obligations.ChunkLaw : Prop :=
  ∀ (s s1 s2 s3 : State) (len : Word) (between : List Instr),
    exec (.chunkBegin len) s = .next s1 → execAll between s1 = some s2 →
    (∀ i ∈ between, i ≠ .start ∧ i ≠ .chunkEnd) →
    exec .chunkEnd s2 = .next s3 → s3.regs.fault = 0#8 →
      (s.regs.measure = false → ∃ payload : List Byte, payload.length = len.toNat
        ∧ s2.out = s.out ++ be32 len ++ be32 s.regs.tag ++ payload
        ∧ s3.out = s.out ++ be32 len ++ be32 s.regs.tag ++ payload
            ++ be32 (crc32 (be32 s.regs.tag ++ payload)))
      ∧ (s.regs.measure = true → s3.out = s.out)
      ∧ s3.regs.count.toNat = s.regs.count.toNat + 12 + len.toNat
      ∧ s3.regs.cstate = .cIdle ∧ s3.regs.cseq.toNat = s.regs.cseq.toNat + 1

/-! ## The zlib wrapper -/

/-- `Z_BEGIN N`, not halted, with no zlib stream open, where seven bytes are taken and fit: the header pair and the first stored block's header go out through `Pay`, the Adler pair is initial, the stream is open with `N` bytes to come; with a stream open it raises `BAD_STATE` (`44_zlib_stored.md` R176 to R178). -/
def Obligations.ZBeginOpensStream : Prop :=
  ∀ (s : State) (total : Word), s.regs.fault = 0#8 →
    (s.regs.zstate = .zIdle → s.Takes 7 → s.Fits 7 →
      let cap := s.params.zblockCap.toNat
      let opened := { s with regs := { s.regs with
        s1 := 1#16, s2 := 0#16, zrem := total, zblk := BitVec.ofNat 16 (min total.toNat cap), zstate := .zOpen } }
      exec (.zBegin total) s = .next (State.answering
        (State.afterPay opened ([s.params.zhdr0, s.params.zhdr1] ++ blockHeader total.toNat cap)) 0#32))
    ∧ (s.regs.zstate = .zOpen → exec (.zBegin total) s = .next (s.faulting 0x02#8))

/-- `Z_DATA b`, not halted, in a stream that expects data: the byte goes out through `Pay` and steps the Adler pair, and where it fills its block with more to come the next block's header follows at once (`44_zlib_stored.md` R178, R179). In states with `ZBLK = 0` and `ZREM` not 0, which no run that has not faulted reaches, `ZBLK` wraps to 65535: the model's choice, log entry 8, and no rule's (R179 says that it never underflows). -/
def Obligations.ZDataTakesOneByte : Prop :=
  ∀ (s : State) (b : Byte), s.regs.fault = 0#8 → s.regs.zstate = .zOpen → s.regs.zrem ≠ 0#32 →
    ∃ x y : Half, x.toNat = (s.regs.s1.toNat + b.toNat) % 65521 ∧ y.toNat = (s.regs.s2.toNat + x.toNat) % 65521
      ∧ (s.regs.zblk ≠ 1#16 ∨ s.regs.zrem = 1#32 → s.Takes 1 → s.Fits 1 →
          exec (.zData b) s = .next (State.answering (State.afterPay { s with regs := { s.regs with
            s1 := x, s2 := y, zrem := s.regs.zrem - 1#32, zblk := s.regs.zblk - 1#16 } } [b]) 0#32))
      ∧ (s.regs.zblk = 1#16 → s.regs.zrem ≠ 1#32 → s.Takes 6 → s.Fits 6 →
          let left := s.regs.zrem.toNat - 1
          let cap := s.params.zblockCap.toNat
          exec (.zData b) s = .next (State.answering (State.afterPay { s with regs := { s.regs with
            s1 := x, s2 := y, zrem := BitVec.ofNat 32 left, zblk := BitVec.ofNat 16 (min left cap) } }
              ([b] ++ blockHeader left cap)) 0#32))

/-- `Z_END`, not halted, in a stream whose data is complete, where four bytes are taken and fit: the Adler pair goes out, `S2` first, big-endian, through `Pay`, and the stream is closed (`44_zlib_stored.md` R180). -/
def Obligations.ZEndClosesStream : Prop :=
  ∀ s : State, s.regs.fault = 0#8 → s.regs.zstate = .zOpen → s.regs.zrem = 0#32 → s.Takes 4 → s.Fits 4 →
    exec .zEnd s = .next (State.answering (State.afterPay
      { s with regs := { s.regs with zstate := .zIdle } }
      [BitVec.ofNat 8 (s.regs.s2.toNat / 256), BitVec.ofNat 8 s.regs.s2.toNat,
        BitVec.ofNat 8 (s.regs.s1.toNat / 256), BitVec.ofNat 8 s.regs.s1.toNat]) 0#32)

/-- One data byte too many raises `Z_OVERRUN`, a trailer too soon `Z_UNDERRUN`, and outside a stream both commands raise `BAD_STATE`, whatever `ZREM` is; each leaves all but `FAULT` as it was (`60_exceptions.md` R233, R242, R243, R250). -/
def Obligations.StreamLengthChecks : Prop :=
  ∀ (s : State) (b : Byte), s.regs.fault = 0#8 →
    (s.regs.zstate = .zOpen → s.regs.zrem = 0#32 → exec (.zData b) s = .next (s.faulting 0x07#8))
    ∧ (s.regs.zstate = .zOpen → s.regs.zrem ≠ 0#32 → exec .zEnd s = .next (s.faulting 0x08#8))
    ∧ (s.regs.zstate = .zIdle →
      exec (.zData b) s = .next (s.faulting 0x02#8) ∧ exec .zEnd s = .next (s.faulting 0x02#8))

/-- A wrapper command that stops at a byte: the bytes before it stay emitted. `Z_BEGIN` has written the Adler pair, `ZREM`, `ZSTATE`, and 0 to `ZBLK`; `Z_DATA` has done nothing when its data byte stops, and has stepped the pair and both counters when a byte of the next header stops; `Z_END` leaves the stream open (`44_zlib_stored.md` R177 to R180, `20_memory.md` R78). -/
def Obligations.WrapperStopsAtFaultingByte : Prop :=
  ∀ (s : State) (sent : List Byte) (c : Byte) (unsent : List Byte), s.regs.fault = 0#8 →
    (∀ total : Word, s.regs.zstate = .zIdle → s.Takes sent.length → s.Fits sent.length →
      [s.params.zhdr0, s.params.zhdr1] ++ blockHeader total.toNat s.params.zblockCap.toNat
        = sent ++ c :: unsent →
        State.PayStopped
          (State.afterPay { s with regs := { s.regs with
            s1 := 1#16, s2 := 0#16, zrem := total, zblk := 0#16, zstate := .zOpen } } sent)
          (exec (.zBegin total) s))
    ∧ (∀ b : Byte, s.regs.zstate = .zOpen → s.regs.zrem ≠ 0#32 →
        s.PayStopped (exec (.zData b) s)
        ∧ (∀ x y : Half, x.toNat = (s.regs.s1.toNat + b.toNat) % 65521 →
            y.toNat = (s.regs.s2.toNat + x.toNat) % 65521 →
            s.regs.zblk = 1#16 → s.regs.zrem ≠ 1#32 →
            s.Takes (sent.length + 1) → s.Fits (sent.length + 1) →
            blockHeader (s.regs.zrem.toNat - 1) s.params.zblockCap.toNat = sent ++ c :: unsent →
              State.PayStopped
                (State.afterPay { s with regs := { s.regs with
                  s1 := x, s2 := y, zrem := s.regs.zrem - 1#32, zblk := 0#16 } } (b :: sent))
                (exec (.zData b) s)))
    ∧ (s.regs.zstate = .zOpen → s.regs.zrem = 0#32 → s.Takes sent.length → s.Fits sent.length →
        [BitVec.ofNat 8 (s.regs.s2.toNat / 256), BitVec.ofNat 8 s.regs.s2.toNat,
          BitVec.ofNat 8 (s.regs.s1.toNat / 256), BitVec.ofNat 8 s.regs.s1.toNat] = sent ++ c :: unsent →
          (s.afterPay sent).PayStopped (exec .zEnd s))

/-- The zlib law. `Z_BEGIN N`, then any commands but `START` and `Z_END`, then `Z_END`, with no fault at the end and parameters within their constraints: exactly `N` data bytes were given; in normal mode `OUT` has grown by exactly their zlib stream, in measure mode by nothing; `COUNT` has grown by `ZLen(N)`; with a chunk open every byte has been folded into `CRC` in order and `CCNT` has grown by `ZLen(N)`, without wrapping where it was within `CLEN` as `10_state.md` R50 has it (`44_zlib_stored.md` R175, R176, R181, R182, R184). -/
def Obligations.ZlibLaw : Prop :=
  ∀ (s s1 s2 s3 : State) (total : Word) (between : List Instr),
    s.params.Valid →
    exec (.zBegin total) s = .next s1 → execAll between s1 = some s2 →
    (∀ i ∈ between, i ≠ .start ∧ i ≠ .zEnd) →
    exec .zEnd s2 = .next s3 → s3.regs.fault = 0#8 →
      let data := between.filterMap zDataByte
      let stream := zlibStream s.params data
      data.length = total.toNat
      ∧ stream.length = zLen s.params.zblockCap.toNat total.toNat
      ∧ (s.regs.measure = false → s3.out = s.out ++ stream)
      ∧ (s.regs.measure = true → s3.out = s.out)
      ∧ s3.regs.count.toNat = s.regs.count.toNat + stream.length
      ∧ (s.regs.cstate = .cOpen →
          s3.regs.crc = foldBytes s.regs.crc stream
            ∧ s3.regs.ccnt = s.regs.ccnt + BitVec.ofNat 32 stream.length
            ∧ (s.regs.ccnt.toNat ≤ s.regs.clen.toNat →
                s3.regs.ccnt.toNat = s.regs.ccnt.toNat + stream.length))
      ∧ s3.regs.zstate = .zIdle

/-- While a zlib stream is open no command but `Z_DATA` and `Z_END` sends or counts a byte (`44_zlib_stored.md` R186); `START` abandons the stream and clears `COUNT`. -/
def Obligations.OnlyStreamCommandsEmitInStream : Prop :=
  ∀ (i : Instr) (s t : State), s.regs.zstate = .zOpen → exec i s = .next t →
    (∀ b, i ≠ .zData b) → i ≠ .zEnd →
      t.out = s.out ∧ t.asked = s.asked ∧ t.sinkScript = s.sinkScript
        ∧ (i ≠ .start → t.regs.count = s.regs.count ∧ t.regs.zstate = .zOpen)

/-- The largest payload whose zlib stream fits one chunk of this hardware (`44_zlib_stored.md` R182, `46_png_host_sequence.md` R209). -/
def Obligations.LargestPayloadOfOneChunk : Prop :=
  ∀ n : Nat, zLen Params.hardware.zblockCap.toNat n ≤ Params.hardware.chunkLenMax.toNat ↔ n ≤ 2147319810

/-- An accepted image's output has `57 + ZLen(N)` bytes, for every valid parameter set (`46_png_host_sequence.md` R206, R215). -/
def Obligations.PngStreamLength : Prop :=
  ∀ (p : Params) (g : Image), p.Valid → g.accepted p = true →
    g.payload.length = g.payloadLength
      ∧ (pngBytes p g).length = 57 + zLen p.zblockCap.toNat g.payloadLength

/-! ## Faults and the halted state -/

/-- A halted block answers `HALTED` to every word that is not a well-formed `START` or `RDREG`, legal or not, and changes nothing (`60_exceptions.md` R246). -/
def Obligations.HaltedRefusesEveryOtherWord : Prop :=
  ∀ (w : CommandWord) (s : State), s.regs.fault ≠ 0#8 →
    (∀ i, decode w = .command i → bypassesHalt i = false) →
      execWord w s = .next s.refusingHalted

/-- The state legality table: a command that is not admitted raises `BAD_STATE` and changes nothing but `FAULT`, and a command that is admitted never raises it (`60_exceptions.md` R241). -/
def Obligations.BadStateExactlyWhereNotAdmitted : Prop :=
  ∀ (i : Instr) (s : State), s.regs.fault = 0#8 →
    (s.admits i = false → exec i s = .next (s.faulting 0x02#8))
    ∧ (s.admits i = true → ∃ t, exec i s = .next t ∧ t.regs.fault ≠ 0x02#8)

/-- No command raises a fault the command by fault matrix does not give it (`60_exceptions.md` R247). -/
def Obligations.FaultsOnlyFromMatrix : Prop :=
  ∀ (i : Instr) (s t : State) (f : FaultCode), s.regs.fault = 0#8 → exec i s = .next t →
    t.regs.fault = f.code → f ∈ raisable i

/-- Every command word gets exactly one response: `OK`, with `FAULT` as it was unless the word is `START`; or `HALTED` from a halted block, `FAULT` as it was; or a fault's code, which was recorded in a `FAULT` that held 0. Data other than 0 comes only with `OK` from `RDREG`, `CRC_FINAL`, `ADL_FINAL` (`30_encoding.md` R109, `60_exceptions.md` R231, R236). -/
def Obligations.OneResponsePerCommand : Prop :=
  ∀ (w : CommandWord) (s : State), ∃ t r, execWord w s = .next t ∧ t.responses = s.responses ++ [r]
    ∧ (r.status = 0x00#8 ∧ (t.regs.fault = s.regs.fault ∨ decode w = .command .start)
      ∨ r.status = 0x0B#8 ∧ s.regs.fault ≠ 0#8 ∧ t.regs.fault = s.regs.fault
      ∨ ∃ f : FaultCode, r.status = f.code ∧ s.regs.fault = 0#8 ∧ t.regs.fault = f.code)
    ∧ (r.data ≠ 0#32 → r.status = 0x00#8 ∧ ∃ i, decode w = .command i
        ∧ (i = .crcFinal ∨ i = .adlFinal ∨ (bypassesHalt i = true ∧ i ≠ .start)))

/-- Nothing but `START` and hardware reset ends the halted state, and they leave every register at its reset value (`60_exceptions.md` R249). -/
def Obligations.OnlyStartAndResetLeaveHalt : Prop :=
  ∀ (s t : State) (e : HostEvent) (rest : List HostEvent), s.events = e :: rest → step s = .next t →
    s.regs.fault ≠ 0#8 → t.regs.fault = 0#8 →
      (e = .command 0x0100000000#40 ∨ e = .reset ∨ ∃ w k, e = .resetDuring w k) ∧ t.regs = Regs.reset

/-! ## Whole-machine rules -/

/-- The register invariants hold after every step from a state where they hold, whatever the event, the sink's answers and the fault, if any (`10_state.md` R50). -/
def Obligations.StepKeepsInvariant : Prop :=
  ∀ s t : State, s.Inv → step s = .next t → t.Inv

/-- The register invariants hold after reset (`10_state.md` R50, R53). -/
def Obligations.ResetMeetsInvariant : Prop := State.reset.Inv

/-- A step takes exactly the oldest event, only lengthens `OUT` and the responses, and leaves the parameters as they are (`20_memory.md` R71, R74, R85). -/
def Obligations.OutputIsAppendOnly : Prop :=
  ∀ s : State, ∃ t appended answered, step s = .next t
    ∧ t.out = s.out ++ appended ∧ t.responses = s.responses ++ answered
    ∧ t.events = s.events.tail ∧ t.params = s.params

/-- In measure mode no command reaches the sink or raises `SINK_FAIL`, and `COUNT` never falls except by `START` and `WRREG COUNT` (`20_memory.md` R76, `45_system_commands.md` R198). -/
def Obligations.MeasureModeNeverReachesSink : Prop :=
  ∀ (i : Instr) (s t : State), s.regs.measure = true → exec i s = .next t →
    t.out = s.out ∧ t.asked = s.asked ∧ t.sinkScript = s.sinkScript
      ∧ (s.regs.fault = 0#8 → t.regs.fault ≠ 0x09#8)
      ∧ (i ≠ .start → (∀ v, i ≠ .wrregCount v) → s.regs.count.toNat ≤ t.regs.count.toNat)

/-- In normal mode `COUNT` grows by exactly the number of bytes appended, without wrapping, whatever faults on the way (`10_state.md` R44, `20_memory.md` R76, R85). -/
def Obligations.CountGrowsWithOutput : Prop :=
  ∀ (i : Instr) (s t : State), s.regs.measure = false → exec i s = .next t →
    i ≠ .start → (∀ v, i ≠ .wrregCount v) →
      t.regs.count.toNat + s.out.length = s.regs.count.toNat + t.out.length

/-- Two steps from equal registers, with equal parameters, on the same word, with the same sink answers to come, end in equal registers, give the same response and append the same bytes, whatever `OUT`, the earlier responses and the other pending events are (`10_state.md` R30, R52). -/
def Obligations.BlockIsFunctionOfItsRegisters : Prop :=
  ∀ (w : CommandWord) (s s' t t' : State),
    s.regs = s'.regs → s.params = s'.params → s.sinkScript = s'.sinkScript → s.asked = s'.asked →
    execWord w s = .next t → execWord w s' = .next t' →
      t.regs = t'.regs ∧ t.sinkScript = t'.sinkScript ∧ t.asked = t'.asked
        ∧ ∃ bytes r, t.out = s.out ++ bytes ∧ t'.out = s'.out ++ bytes
          ∧ t.responses = s.responses ++ [r] ∧ t'.responses = s'.responses ++ [r]

/-- Which commands can change which register, `START` apart: the rules' own lists of writers (`10_state.md` R34, R35, R37 to R44), and for `FAULT` that it changes only from 0 and only to the code of a fault the command can raise (R46, `60_exceptions.md` R236, R247). In states with a chunk open and `CSEQ = 3`, which no run reaches, `CSEQ` wraps to 0: the model's choice, log entry 8, and no rule's (R39 says that it never wraps). -/
def Obligations.RegistersChangeOnlyByTheirWriters : Prop :=
  ∀ (i : Instr) (s t : State), exec i s = .next t → i ≠ .start →
    let payload := writerBytes i ≠ none ∨ (∃ n, i = .zBegin n) ∨ (∃ b, i = .zData b) ∨ i = .zEnd
    (t.regs.tag ≠ s.regs.tag → ∃ v, i = .wrregTag v)
    ∧ (t.regs.measure ≠ s.regs.measure → ∃ v, i = .wrregCtrl v)
    ∧ (t.regs.s1 ≠ s.regs.s1 ∨ t.regs.s2 ≠ s.regs.s2 →
        i = .adlInit ∨ (∃ b, i = .adlUpdate b) ∨ (∃ n, i = .zBegin n) ∨ ∃ b, i = .zData b)
    ∧ (t.regs.crc ≠ s.regs.crc →
        i = .crcInit ∨ (∃ b, i = .crcUpdate b) ∨ (∃ l, i = .chunkBegin l) ∨ (payload ∧ s.regs.cstate = .cOpen))
    ∧ (t.regs.cstate ≠ s.regs.cstate →
        ((∃ l, i = .chunkBegin l) ∧ t.regs.cstate = .cOpen) ∨ (i = .chunkEnd ∧ t.regs.cstate = .cIdle))
    ∧ (t.regs.zstate ≠ s.regs.zstate →
        ((∃ n, i = .zBegin n) ∧ t.regs.zstate = .zOpen) ∨ (i = .zEnd ∧ t.regs.zstate = .zIdle))
    ∧ (t.regs.cseq ≠ s.regs.cseq → i = .chunkEnd ∧ t.regs.cseq = s.regs.cseq + 1#2)
    ∧ (t.regs.clen ≠ s.regs.clen → i = .chunkBegin t.regs.clen)
    ∧ (t.regs.ccnt ≠ s.regs.ccnt →
        ((∃ l, i = .chunkBegin l) ∧ t.regs.ccnt = 0#32) ∨ (payload ∧ s.regs.cstate = .cOpen))
    ∧ (t.regs.zrem ≠ s.regs.zrem ∨ t.regs.zblk ≠ s.regs.zblk →
        (∃ n, i = .zBegin n) ∨ ∃ b, i = .zData b)
    ∧ (t.regs.count ≠ s.regs.count →
        i = .wrregCount t.regs.count ∨ payload ∨ (∃ l, i = .chunkBegin l) ∨ i = .chunkEnd)
    ∧ (t.regs.fault ≠ s.regs.fault →
        s.regs.fault = 0#8 ∧ ∃ f ∈ raisable i, t.regs.fault = f.code)
end

