-- ==== Sys2Proof/Laws/State.lean ====
section
/-! SUPPORT. One lemma per field per update of State, so that no later proof unfolds a record update. -/

namespace Sys2Proof.Machine

variable (s : State) (r : Regs) (b : Byte) (d : Word) (f : FaultCode)

@[simp] theorem withRegs_regs : (s.withRegs r).regs = r := rfl
@[simp] theorem withRegs_params : (s.withRegs r).params = s.params := rfl
@[simp] theorem withRegs_events : (s.withRegs r).events = s.events := rfl
@[simp] theorem withRegs_sinkScript : (s.withRegs r).sinkScript = s.sinkScript := rfl
@[simp] theorem withRegs_asked : (s.withRegs r).asked = s.asked := rfl
@[simp] theorem withRegs_out : (s.withRegs r).out = s.out := rfl
@[simp] theorem withRegs_responses : (s.withRegs r).responses = s.responses := rfl

@[simp] theorem respond_regs : (s.respond b d).regs = s.regs := rfl
@[simp] theorem respond_params : (s.respond b d).params = s.params := rfl
@[simp] theorem respond_events : (s.respond b d).events = s.events := rfl
@[simp] theorem respond_sinkScript : (s.respond b d).sinkScript = s.sinkScript := rfl
@[simp] theorem respond_asked : (s.respond b d).asked = s.asked := rfl
@[simp] theorem respond_out : (s.respond b d).out = s.out := rfl
@[simp] theorem respond_responses :
    (s.respond b d).responses = s.responses ++ [{ status := b, data := d }] := rfl

@[simp] theorem takeFault_regs : (s.takeFault f).regs = { s.regs with fault := f.code } := rfl
@[simp] theorem takeFault_params : (s.takeFault f).params = s.params := rfl
@[simp] theorem takeFault_events : (s.takeFault f).events = s.events := rfl
@[simp] theorem takeFault_sinkScript : (s.takeFault f).sinkScript = s.sinkScript := rfl
@[simp] theorem takeFault_asked : (s.takeFault f).asked = s.asked := rfl
@[simp] theorem takeFault_out : (s.takeFault f).out = s.out := rfl
@[simp] theorem takeFault_responses :
    (s.takeFault f).responses = s.responses ++ [{ status := f.code, data := 0#32 }] := rfl

@[simp] theorem resetRegs_regs : s.resetRegs.regs = Regs.reset := rfl
@[simp] theorem resetRegs_params : s.resetRegs.params = s.params := rfl
@[simp] theorem resetRegs_events : s.resetRegs.events = s.events := rfl
@[simp] theorem resetRegs_sinkScript : s.resetRegs.sinkScript = s.sinkScript := rfl
@[simp] theorem resetRegs_asked : s.resetRegs.asked = s.asked := rfl
@[simp] theorem resetRegs_out : s.resetRegs.out = s.out := rfl
@[simp] theorem resetRegs_responses : s.resetRegs.responses = s.responses := rfl

@[simp] theorem sinkAsked_regs : s.sinkAsked.regs = s.regs := rfl
@[simp] theorem sinkAsked_params : s.sinkAsked.params = s.params := rfl
@[simp] theorem sinkAsked_events : s.sinkAsked.events = s.events := rfl
@[simp] theorem sinkAsked_sinkScript : s.sinkAsked.sinkScript = s.sinkScript.tail := rfl
@[simp] theorem sinkAsked_asked : s.sinkAsked.asked = s.asked + 1 := rfl
@[simp] theorem sinkAsked_out : s.sinkAsked.out = s.out := rfl
@[simp] theorem sinkAsked_responses : s.sinkAsked.responses = s.responses := rfl

/-- The statements' words for an answer are the model's. -/
theorem answering_eq_respond : s.answering d = s.respond statusOk d := rfl

/-- The statements' words for taking a fault are the model's. -/
theorem faulting_eq_takeFault : s.faulting f.code = s.takeFault f := rfl

/-- The statements' words for a refused command are the model's. -/
theorem refusingHalted_eq_respond : s.refusingHalted = s.respond statusHalted 0#32 := rfl

/-! ## The closed form of an emission -/

variable (bs cs : List Byte)

@[simp] theorem afterOut_regs :
    (s.afterOut bs).regs = { s.regs with count := s.regs.count + BitVec.ofNat 32 bs.length } := by
  unfold State.afterOut; split <;> rfl
@[simp] theorem afterOut_params : (s.afterOut bs).params = s.params := by
  unfold State.afterOut; split <;> rfl
@[simp] theorem afterOut_events : (s.afterOut bs).events = s.events := by
  unfold State.afterOut; split <;> rfl
@[simp] theorem afterOut_responses : (s.afterOut bs).responses = s.responses := by
  unfold State.afterOut; split <;> rfl
theorem afterOut_out :
    (s.afterOut bs).out = if s.regs.measure then s.out else s.out ++ bs := by
  unfold State.afterOut; split <;> rfl
theorem afterOut_sinkScript :
    (s.afterOut bs).sinkScript = if s.regs.measure then s.sinkScript else s.sinkScript.drop bs.length := by
  unfold State.afterOut; split <;> rfl
theorem afterOut_asked :
    (s.afterOut bs).asked = if s.regs.measure then s.asked else s.asked + bs.length := by
  unfold State.afterOut; split <;> rfl

@[simp] theorem afterPay_params : (s.afterPay bs).params = s.params := by
  unfold State.afterPay; split <;> simp
@[simp] theorem afterPay_events : (s.afterPay bs).events = s.events := by
  unfold State.afterPay; split <;> simp
@[simp] theorem afterPay_responses : (s.afterPay bs).responses = s.responses := by
  unfold State.afterPay; split <;> simp
theorem afterPay_out :
    (s.afterPay bs).out = if s.regs.measure then s.out else s.out ++ bs := by
  unfold State.afterPay; split <;> simp [afterOut_out]
theorem afterPay_sinkScript :
    (s.afterPay bs).sinkScript = if s.regs.measure then s.sinkScript else s.sinkScript.drop bs.length := by
  unfold State.afterPay; split <;> simp [afterOut_sinkScript]
theorem afterPay_asked :
    (s.afterPay bs).asked = if s.regs.measure then s.asked else s.asked + bs.length := by
  unfold State.afterPay; split <;> simp [afterOut_asked]

/-- What `Pay` of `bs` does to the registers: `COUNT`, and with a chunk open `CRC` and `CCNT`. -/
theorem afterPay_regs :
    (s.afterPay bs).regs =
      { s.regs with
        count := s.regs.count + BitVec.ofNat 32 bs.length
        crc := if s.regs.cstate = .cOpen then foldBytes s.regs.crc bs else s.regs.crc
        ccnt := if s.regs.cstate = .cOpen then s.regs.ccnt + BitVec.ofNat 32 bs.length
          else s.regs.ccnt } := by
  unfold State.afterPay; split <;> simp_all

@[simp] theorem afterPay_measure : (s.afterPay bs).regs.measure = s.regs.measure := by simp [afterPay_regs]
@[simp] theorem afterPay_count :
    (s.afterPay bs).regs.count = s.regs.count + BitVec.ofNat 32 bs.length := by simp [afterPay_regs]
@[simp] theorem afterPay_cstate : (s.afterPay bs).regs.cstate = s.regs.cstate := by simp [afterPay_regs]
@[simp] theorem afterPay_zstate : (s.afterPay bs).regs.zstate = s.regs.zstate := by simp [afterPay_regs]
@[simp] theorem afterPay_cseq : (s.afterPay bs).regs.cseq = s.regs.cseq := by simp [afterPay_regs]
@[simp] theorem afterPay_clen : (s.afterPay bs).regs.clen = s.regs.clen := by simp [afterPay_regs]
@[simp] theorem afterPay_zrem : (s.afterPay bs).regs.zrem = s.regs.zrem := by simp [afterPay_regs]
@[simp] theorem afterPay_zblk : (s.afterPay bs).regs.zblk = s.regs.zblk := by simp [afterPay_regs]
@[simp] theorem afterPay_tag : (s.afterPay bs).regs.tag = s.regs.tag := by simp [afterPay_regs]
@[simp] theorem afterPay_s1 : (s.afterPay bs).regs.s1 = s.regs.s1 := by simp [afterPay_regs]
@[simp] theorem afterPay_s2 : (s.afterPay bs).regs.s2 = s.regs.s2 := by simp [afterPay_regs]
@[simp] theorem afterPay_fault : (s.afterPay bs).regs.fault = s.regs.fault := by simp [afterPay_regs]

@[simp] theorem afterOut_nil : s.afterOut [] = s := by
  unfold State.afterOut; split <;> simp
@[simp] theorem afterPay_nil : s.afterPay [] = s := by
  unfold State.afterPay; split <;> simp [foldBytes]

theorem state_ext {s t : State} (h1 : s.regs = t.regs) (h2 : s.params = t.params)
    (h3 : s.events = t.events) (h4 : s.sinkScript = t.sinkScript) (h5 : s.asked = t.asked)
    (h6 : s.out = t.out) (h7 : s.responses = t.responses) : s = t := by
  cases s; cases t; simp_all

theorem afterOut_append : (s.afterOut bs).afterOut cs = s.afterOut (bs ++ cs) := by
  apply state_ext <;> simp only [afterOut_regs, afterOut_params, afterOut_events,
    afterOut_sinkScript, afterOut_asked, afterOut_out, afterOut_responses]
  · simp [BitVec.add_assoc, BitVec.ofNat_add]
  · split <;> simp
  · split <;> simp [Nat.add_assoc]
  · split <;> simp

theorem foldBytes_append (c : Word) (xs ys : List Byte) :
    foldBytes c (xs ++ ys) = foldBytes (foldBytes c xs) ys := by simp [foldBytes]

theorem afterPay_append : (s.afterPay bs).afterPay cs = s.afterPay (bs ++ cs) := by
  apply state_ext
  · simp only [afterPay_regs, foldBytes_append]
    split <;> simp [BitVec.add_assoc, BitVec.ofNat_add]
  · simp
  · simp
  · simp only [afterPay_sinkScript, afterPay_measure]; split <;> simp
  · simp only [afterPay_asked, afterPay_measure]; split <;> simp [Nat.add_assoc]
  · simp only [afterPay_out, afterPay_measure]; split <;> simp
  · simp

end Sys2Proof.Machine
end

