-- ==== Sys2Proof/Laws/Emission.lean ====
section
/-! SUPPORT. What the sink and the emission primitives can do, said once: where they run to their end they give the closed form, and where they stop the state is the closed form of the bytes before (`20_memory.md` R73 to R78). -/

namespace Sys2Proof.Machine

variable {s t u : State} {b : Byte} {bs : List Byte} {f : FaultCode}

/-! ## Sequencing -/

@[simp] theorem andThen_done (s : State) (k : State → Ran) : (Ran.done s).andThen k = k s := rfl
@[simp] theorem andThen_raised (f : FaultCode) (s : State) (k : State → Ran) :
    (Ran.raised f s).andThen k = .raised f s := rfl

/-- A sequence runs to its end exactly when both parts do. -/
theorem andThen_eq_done {r : Ran} {k : State → Ran} :
    r.andThen k = .done t ↔ ∃ u, r = .done u ∧ k u = .done t := by
  cases r <;> simp

/-- A sequence stops in its first part or in its second. -/
theorem andThen_eq_raised {r : Ran} {k : State → Ran} :
    r.andThen k = .raised f t ↔ r = .raised f t ∨ ∃ u, r = .done u ∧ k u = .raised f t := by
  cases r <;> simp

theorem andThen_assoc (r : Ran) (j k : State → Ran) :
    (r.andThen j).andThen k = r.andThen fun s => (j s).andThen k := by cases r <;> rfl

theorem require_eq_done {c : Bool} : require c f s = .done t ↔ c = true ∧ t = s := by
  unfold require; split <;> simp_all [eq_comm]

theorem require_eq_raised {c : Bool} {g : FaultCode} :
    require c g s = .raised f t ↔ c = false ∧ f = g ∧ t = s := by
  unfold require; split <;> simp_all [eq_comm]

/-! ## The sink -/

theorem answerAt_zero (s : State) : s.answerAt 0 = s.nextAnswer := by
  unfold State.answerAt State.nextAnswer
  cases s.sinkScript <;> rfl

/-- One append moves the sink's answers on by one. -/
theorem answerAt_sinkAsked (s : State) (j : Nat) : s.sinkAsked.answerAt j = s.answerAt (j + 1) := by
  unfold State.answerAt
  simp only [sinkAsked_sinkScript, sinkAsked_asked, List.drop_tail, Nat.add_assoc, Nat.add_comm 1 j]

/-- The answers left after `bs` have been appended in normal mode. -/
theorem answerAt_afterOut (hm : s.regs.measure = false) (bs : List Byte) (j : Nat) :
    (s.afterOut bs).answerAt j = s.answerAt (bs.length + j) := by
  unfold State.answerAt
  simp only [afterOut_sinkScript, afterOut_asked, hm, Bool.false_eq_true, if_false, List.drop_drop,
    Nat.add_assoc]

theorem answerAt_afterPay (hm : s.regs.measure = false) (bs : List Byte) (j : Nat) :
    (s.afterPay bs).answerAt j = s.answerAt (bs.length + j) := by
  unfold State.answerAt
  simp only [afterPay_sinkScript, afterPay_asked, hm, Bool.false_eq_true, if_false, List.drop_drop,
    Nat.add_assoc]

/-! ## `Out` -/

/-- Everything `Out` can do when it runs to its end. -/
theorem outByte_done (h : outByte b s = .done t) :
    t = s.afterOut [b] ∧ s.regs.count ≠ 0xFFFFFFFF#32
      ∧ (s.regs.measure = true ∨ s.nextAnswer = .ok) := by
  unfold outByte sinkAppend at h
  split at h
  · cases h
  · rename_i hc
    split at h
    · rename_i hm
      cases h
      exact ⟨by simp [State.afterOut, hm, State.counted, State.withRegs], hc, .inl hm⟩
    · rename_i hm
      cases ha : s.nextAnswer with
      | ok =>
        rw [ha] at h
        simp only [andThen_done, Ran.done.injEq] at h
        subst h
        refine ⟨?_, hc, .inr rfl⟩
        simp [State.afterOut, hm, State.counted, State.withRegs, State.sinkAsked]
      | fail => rw [ha] at h; simp at h

/-- Everything `Out` can do when it stops (R76, R244, R245). -/
theorem outByte_raised (h : outByte b s = .raised f t) :
    (f = .countOverflow ∧ t = s ∧ s.regs.count = 0xFFFFFFFF#32)
      ∨ (f = .sinkFail ∧ t = s.sinkAsked ∧ s.regs.count ≠ 0xFFFFFFFF#32
          ∧ s.regs.measure = false ∧ s.nextAnswer = .fail) := by
  unfold outByte sinkAppend at h
  split at h
  · rename_i hc; cases h; exact .inl ⟨rfl, rfl, hc⟩
  · rename_i hc
    split at h
    · cases h
    · rename_i hm
      cases ha : s.nextAnswer with
      | ok => rw [ha] at h; simp at h
      | fail =>
        rw [ha] at h
        simp only [andThen_raised, Ran.raised.injEq] at h
        obtain ⟨rfl, rfl⟩ := h
        exact .inr ⟨rfl, rfl, hc, by simpa using hm, rfl⟩

/-- `Out` runs to its end where the count has room and the sink accepts. -/
theorem outByte_takes (h : s.Takes 1) (b : Byte) : outByte b s = .done (s.afterOut [b]) := by
  obtain ⟨hc, ha⟩ := h
  cases hr : outByte b s with
  | done t => rw [(outByte_done hr).1]
  | raised f t =>
    rcases outByte_raised hr with ⟨-, -, hmax⟩ | ⟨-, -, -, hm, hf⟩
    · rw [hmax] at hc; simp at hc
    · rcases ha with ha | ha
      · simp [hm] at ha
      · have := ha 0 (by omega)
        rw [answerAt_zero, hf] at this; cases this

/-! ## `Pay` -/

/-- Everything `Pay` can do when it runs to its end. -/
theorem payByte_done (h : payByte b s = .done t) :
    t = s.afterPay [b] ∧ s.regs.count ≠ 0xFFFFFFFF#32
      ∧ (s.regs.measure = true ∨ s.nextAnswer = .ok)
      ∧ (s.regs.cstate = .cOpen → s.regs.ccnt ≠ s.regs.clen) := by
  unfold payByte at h
  cases hs : s.regs.cstate with
  | cOpen =>
    rw [hs] at h
    simp only at h
    split at h
    · cases h
    · rename_i hl
      obtain ⟨u, hu, ht⟩ := andThen_eq_done.mp h
      obtain ⟨rfl, hc, ha⟩ := outByte_done hu
      simp only [Ran.done.injEq] at ht
      subst ht
      refine ⟨?_, hc, ha, fun _ => hl⟩
      simp [State.afterPay, hs, State.paid, State.folded, State.withRegs, foldBytes]
  | cIdle =>
    rw [hs] at h
    obtain ⟨rfl, hc, ha⟩ := outByte_done h
    refine ⟨?_, hc, ha, by simp⟩
    simp [State.afterPay, hs]

/-- Everything `Pay` can do when it stops (R77, R238). -/
theorem payByte_raised (h : payByte b s = .raised f t) :
    (f = .chunkOverrun ∧ t = s ∧ s.regs.cstate = .cOpen ∧ s.regs.ccnt = s.regs.clen)
      ∨ (f = .countOverflow ∧ t = s ∧ s.regs.count = 0xFFFFFFFF#32
          ∧ (s.regs.cstate = .cOpen → s.regs.ccnt ≠ s.regs.clen))
      ∨ (f = .sinkFail ∧ t = s.sinkAsked ∧ s.regs.count ≠ 0xFFFFFFFF#32
          ∧ s.regs.measure = false ∧ s.nextAnswer = .fail
          ∧ (s.regs.cstate = .cOpen → s.regs.ccnt ≠ s.regs.clen)) := by
  unfold payByte at h
  cases hs : s.regs.cstate with
  | cOpen =>
    rw [hs] at h
    simp only at h
    split at h
    · rename_i hl; cases h; exact .inl ⟨rfl, rfl, rfl, hl⟩
    · rename_i hl
      rcases andThen_eq_raised.mp h with hr | ⟨u, -, hu⟩
      · rcases outByte_raised hr with ⟨rfl, rfl, hc⟩ | ⟨rfl, rfl, hc, hm, hf⟩
        · exact .inr (.inl ⟨rfl, rfl, hc, fun _ => hl⟩)
        · exact .inr (.inr ⟨rfl, rfl, hc, hm, hf, fun _ => hl⟩)
      · cases hu
  | cIdle =>
    rw [hs] at h
    rcases outByte_raised h with ⟨rfl, rfl, hc⟩ | ⟨rfl, rfl, hc, hm, hf⟩
    · exact .inr (.inl ⟨rfl, rfl, hc, by simp⟩)
    · exact .inr (.inr ⟨rfl, rfl, hc, hm, hf, by simp⟩)

/-- `Pay` runs to its end where the payload has room, the count has room and the sink accepts. -/
theorem payByte_takes (h : s.Takes 1) (hf : s.Fits 1) (b : Byte) :
    payByte b s = .done (s.afterPay [b]) := by
  obtain ⟨hc, ha⟩ := h
  cases hr : payByte b s with
  | done t => rw [(payByte_done hr).1]
  | raised f t =>
    rcases payByte_raised hr with ⟨-, -, ho, hl⟩ | ⟨-, -, hmax, -⟩ | ⟨-, -, -, hm, hn, -⟩
    · rcases hf with hf | hf
      · rw [hf] at ho; cases ho
      · rw [hl] at hf; omega
    · rw [hmax] at hc; simp at hc
    · rcases ha with ha | ha
      · simp [hm] at ha
      · have := ha 0 (by omega)
        rw [answerAt_zero, hn] at this; cases this

/-! ## Several bytes -/

@[simp] theorem emitAll_nil (one : Byte → State → Ran) (s : State) : emitAll one [] s = .done s := rfl
@[simp] theorem emitAll_cons (one : Byte → State → Ran) (b : Byte) (bs : List Byte) (s : State) :
    emitAll one (b :: bs) s = (one b s).andThen (emitAll one bs) := rfl

theorem emitAll_append (one : Byte → State → Ran) (xs ys : List Byte) (s : State) :
    emitAll one (xs ++ ys) s = (emitAll one xs s).andThen (emitAll one ys) := by
  induction xs generalizing s with
  | nil => rfl
  | cons b xs ih =>
    simp only [List.cons_append, emitAll_cons, andThen_assoc]
    congr 1; funext t; exact ih t

/-- A primitive whose end is a closed form gives the closed form of the whole. -/
theorem emitAll_done {one : Byte → State → Ran} {after : State → List Byte → State}
    (hone : ∀ b s t, one b s = .done t → t = after s [b]) (hnil : ∀ s, after s [] = s)
    (happ : ∀ s xs ys, after (after s xs) ys = after s (xs ++ ys))
    (h : emitAll one bs s = .done t) : t = after s bs := by
  induction bs generalizing s with
  | nil => simp only [emitAll_nil, Ran.done.injEq] at h; rw [← h, hnil]
  | cons b bs ih =>
    obtain ⟨u, hu, ht⟩ := andThen_eq_done.mp h
    rw [ih ht, hone b s u hu, happ]; rfl

/-- A run of bytes that stops did the bytes before the one it stopped at. -/
theorem emitAll_raised {one : Byte → State → Ran} {after : State → List Byte → State}
    (hone : ∀ b s t, one b s = .done t → t = after s [b]) (hnil : ∀ s, after s [] = s)
    (happ : ∀ s xs ys, after (after s xs) ys = after s (xs ++ ys))
    (h : emitAll one bs s = .raised f t) :
    ∃ xs b ys, bs = xs ++ b :: ys ∧ one b (after s xs) = .raised f t := by
  induction bs generalizing s with
  | nil => simp at h
  | cons b bs ih =>
    rcases andThen_eq_raised.mp h with hr | ⟨u, hu, hr⟩
    · exact ⟨[], b, bs, rfl, by rw [hnil]; exact hr⟩
    · obtain ⟨xs, c, ys, rfl, hc⟩ := ih hr
      exact ⟨b :: xs, c, ys, rfl, by rw [hone b s u hu, happ] at hc; exact hc⟩

theorem emitOut_done (h : emitAll outByte bs s = .done t) : t = s.afterOut bs :=
  emitAll_done (fun _ _ _ h => (outByte_done h).1) afterOut_nil afterOut_append h

theorem emitPay_done (h : emitAll payByte bs s = .done t) : t = s.afterPay bs :=
  emitAll_done (fun _ _ _ h => (payByte_done h).1) afterPay_nil afterPay_append h

/-- Everything a run of `Out` can do when it stops. -/
theorem emitOut_raised (h : emitAll outByte bs s = .raised f t) :
    ∃ xs ys, bs = xs ++ ys ∧ (f = .countOverflow ∧ t = s.afterOut xs
      ∨ f = .sinkFail ∧ t = (s.afterOut xs).sinkAsked ∧ s.regs.measure = false) := by
  obtain ⟨xs, b, ys, rfl, hr⟩ :=
    emitAll_raised (one := outByte) (fun _ _ _ h => (outByte_done h).1) afterOut_nil afterOut_append h
  refine ⟨xs, b :: ys, rfl, ?_⟩
  rcases outByte_raised hr with ⟨rfl, rfl, -⟩ | ⟨rfl, rfl, -, hm, -⟩
  · exact .inl ⟨rfl, rfl⟩
  · exact .inr ⟨rfl, rfl, by simpa using hm⟩

/-- Everything a run of `Pay` can do when it stops. -/
theorem emitPay_raised (h : emitAll payByte bs s = .raised f t) :
    ∃ xs ys, bs = xs ++ ys ∧ ys ≠ [] ∧ (
      f = .chunkOverrun ∧ t = s.afterPay xs ∧ s.regs.cstate = .cOpen
      ∨ f = .countOverflow ∧ t = s.afterPay xs
      ∨ f = .sinkFail ∧ t = (s.afterPay xs).sinkAsked ∧ s.regs.measure = false) := by
  obtain ⟨xs, b, ys, rfl, hr⟩ :=
    emitAll_raised (one := payByte) (fun _ _ _ h => (payByte_done h).1) afterPay_nil afterPay_append h
  refine ⟨xs, b :: ys, rfl, by simp, ?_⟩
  rcases payByte_raised hr with ⟨rfl, rfl, ho, -⟩ | ⟨rfl, rfl, -, -⟩ | ⟨rfl, rfl, -, hm, -, -⟩
  · exact .inl ⟨rfl, rfl, by simpa using ho⟩
  · exact .inr (.inl ⟨rfl, rfl⟩)
  · exact .inr (.inr ⟨rfl, rfl, by simpa using hm⟩)

/-- Taking `n` bytes is taking the first and then the rest. -/
theorem takes_afterOut {n : Nat} (h : s.Takes (bs.length + n)) : (s.afterOut bs).Takes n := by
  obtain ⟨hc, ha⟩ := h
  refine ⟨?_, ?_⟩
  · simp only [afterOut_regs, BitVec.toNat_add, BitVec.toNat_ofNat]; omega
  · rcases ha with ha | ha
    · exact .inl (by simpa using ha)
    · cases hm : s.regs.measure with
      | true => exact .inl (by simpa using hm)
      | false =>
        exact .inr fun j hj => by rw [answerAt_afterOut hm]; exact ha _ (by omega)

theorem takes_afterPay {n : Nat} (h : s.Takes (bs.length + n)) : (s.afterPay bs).Takes n := by
  obtain ⟨hc, ha⟩ := h
  refine ⟨?_, ?_⟩
  · simp only [afterPay_count, BitVec.toNat_add, BitVec.toNat_ofNat]; omega
  · rcases ha with ha | ha
    · exact .inl (by simpa using ha)
    · cases hm : s.regs.measure with
      | true => exact .inl (by simpa using hm)
      | false =>
        exact .inr fun j hj => by rw [answerAt_afterPay hm]; exact ha _ (by omega)

theorem fits_afterPay {n : Nat} (h : s.Fits (bs.length + n)) : (s.afterPay bs).Fits n := by
  rcases h with h | h
  · exact .inl (by simpa using h)
  · cases hs : s.regs.cstate with
    | cIdle => exact .inl (by simpa using hs)
    | cOpen =>
      have := s.regs.clen.isLt
      right
      simp only [afterPay_regs, hs, if_true, BitVec.toNat_add, BitVec.toNat_ofNat]
      omega

theorem takes_mono {m n : Nat} (h : s.Takes n) (hm : m ≤ n) : s.Takes m :=
  ⟨by have := h.1; omega, h.2.imp_right fun ha j hj => ha j (by omega)⟩

theorem fits_mono {m n : Nat} (h : s.Fits n) (hm : m ≤ n) : s.Fits m :=
  h.imp_right fun h => by omega

/-- A run of `Out` runs to its end where every byte is taken. -/
theorem emitOut_takes (h : s.Takes bs.length) : emitAll outByte bs s = .done (s.afterOut bs) := by
  induction bs generalizing s with
  | nil => simp
  | cons b bs ih =>
    have h' : s.Takes ([b].length + bs.length) := by simpa [Nat.add_comm] using h
    rw [emitAll_cons, outByte_takes (takes_mono h' (by simp)) b, andThen_done,
      ih (takes_afterOut h'), afterOut_append]
    rfl

/-- A run of `Pay` runs to its end where every byte is taken and fits. -/
theorem emitPay_takes (h : s.Takes bs.length) (hf : s.Fits bs.length) :
    emitAll payByte bs s = .done (s.afterPay bs) := by
  induction bs generalizing s with
  | nil => simp
  | cons b bs ih =>
    have h' : s.Takes ([b].length + bs.length) := by simpa [Nat.add_comm] using h
    have hf' : s.Fits ([b].length + bs.length) := by simpa [Nat.add_comm] using hf
    rw [emitAll_cons, payByte_takes (takes_mono h' (by simp)) (fits_mono hf' (by simp)) b,
      andThen_done, ih (takes_afterPay h') (fits_afterPay hf'), afterPay_append]
    rfl

end Sys2Proof.Machine
end

