-- ==== Sys2Proof/Laws/Command.lean ====
section
/-! SUPPORT. The frame of a command, and each command's pseudocode as checks, one register change, one run of bytes and one register change (`60_exceptions.md` R240 and the commands' rules). -/

namespace Sys2Proof.Machine

variable {s t u : State} {bs : List Byte} {f : FaultCode} {data : Word}

/-! ## The frame -/

theorem code_ne_zero (f : FaultCode) : f.code ≠ 0#8 := by cases f <;> decide
theorem code_le (f : FaultCode) : f.code.toNat ≤ 0x0A := by cases f <;> decide
theorem code_injective {f g : FaultCode} (h : f.code = g.code) : f = g := by
  revert h; cases f <;> cases g <;> decide

/-- A command that is not halted does what its pseudocode does. -/
theorem runCommand_live {body : State → Ran} (h : s.regs.fault = 0#8) :
    runCommand data body s = finish data (body s) := by simp [runCommand, h]

theorem runCommand_halted {body : State → Ran} (h : s.regs.fault ≠ 0#8) :
    runCommand data body s = s.respond statusHalted 0#32 := by simp [runCommand, h]

/-- Everything a command can do but `START` and `RDREG`. -/
theorem runCommand_cases {body : State → Ran} (h : runCommand data body s = t) :
    (s.regs.fault ≠ 0#8 ∧ t = s.respond statusHalted 0#32)
      ∨ (s.regs.fault = 0#8 ∧ ∃ u, body s = .done u ∧ t = u.respond statusOk data)
      ∨ (s.regs.fault = 0#8 ∧ ∃ f u, body s = .raised f u ∧ t = u.takeFault f) := by
  by_cases hf : s.regs.fault = 0#8
  · rw [runCommand_live hf] at h
    cases hb : body s with
    | done u => rw [hb] at h; exact .inr (.inl ⟨hf, u, rfl, h.symm⟩)
    | raised f u => rw [hb] at h; exact .inr (.inr ⟨hf, f, u, rfl, h.symm⟩)
  · exact .inl ⟨hf, by rw [← h, runCommand_halted hf]⟩

/-! ## Bytes of a value -/

theorem byteAt_eq_octet (v : Word) (k : Nat) : byteAt v k = octet v k := by
  apply BitVec.eq_of_toNat_eq
  have : (256 : Nat) ^ k = 2 ^ (8 * k) := by rw [show (256 : Nat) = 2 ^ 8 from rfl, ← pow_mul]
  simp [byteAt, octet, BitVec.toNat_ushiftRight, Nat.shiftRight_eq_div_pow, this]

theorem beBytes_four (v : Word) : beBytes v 4 = [octet v 3, octet v 2, octet v 1, octet v 0] := by
  simp [beBytes, byteAt_eq_octet]

theorem beBytes_length (v : Word) (n : Nat) : (beBytes v n).length = n := by
  induction n with
  | zero => rfl
  | succ n ih => simp [beBytes, ih]

theorem leBytes_length (v : Word) (n : Nat) : (leBytes v n).length = n := by
  induction n with
  | zero => rfl
  | succ n ih => simp [leBytes, ih]

theorem writeBE_eq (v : Word) (n : Nat) : writeBE v n = emitAll payByte (beBytes v n) := rfl
theorem writeLE_eq (v : Word) (n : Nat) : writeLE v n = emitAll payByte (leBytes v n) := rfl

/-- The writer commands are one shape: admitted outside a zlib stream, then their bytes through `Pay` (`42_byte_order_writer.md` R152, R153). -/
theorem exec_writer {i : Instr} (h : writerBytes i = some bs) (s : State) :
    exec i s = .next (runCommand 0#32 (fun t => (requireNoStream t).andThen (emitAll payByte bs)) s) := by
  have hb : ∀ n v, beBytes v n = bs → writeBeCommand n v s
      = runCommand 0#32 (fun t => (requireNoStream t).andThen (emitAll payByte bs)) s := by
    rintro n v rfl; rfl
  have hl : ∀ n v, leBytes v n = bs → writeLeCommand n v s
      = runCommand 0#32 (fun t => (requireNoStream t).andThen (emitAll payByte bs)) s := by
    rintro n v rfl; rfl
  cases i <;> simp only [writerBytes, Option.some.injEq, reduceCtorEq] at h
  all_goals
    first
    | exact congrArg _ (hb _ _ (by rw [← h]; simp [beBytes, byteAt_eq_octet]))
    | exact congrArg _ (hl _ _ (by rw [← h]; simp [leBytes, byteAt_eq_octet]))

/-! ## Tag bytes -/

/-- What the tag bytes of `CHUNK_BEGIN` do to the state: they go out, and `CRC` folds them. -/
def State.afterFolded (s : State) (bs : List Byte) : State :=
  (s.afterOut bs).withRegs { (s.afterOut bs).regs with crc := foldBytes s.regs.crc bs }

theorem afterFolded_nil (s : State) : s.afterFolded [] = s := by
  simp [State.afterFolded, foldBytes, State.withRegs]

theorem afterFolded_append (s : State) (xs ys : List Byte) :
    (s.afterFolded xs).afterFolded ys = s.afterFolded (xs ++ ys) := by
  apply state_ext <;> simp only [State.afterFolded, withRegs_regs, withRegs_params, withRegs_events,
    withRegs_sinkScript, withRegs_asked, withRegs_out, withRegs_responses, afterOut_regs,
    afterOut_params, afterOut_events, afterOut_sinkScript, afterOut_asked, afterOut_out,
    afterOut_responses, foldBytes_append]
  · simp [BitVec.add_assoc, BitVec.ofNat_add]
  · split <;> simp
  · split <;> simp [Nat.add_assoc]
  · split <;> simp

theorem outFolded_done {b : Byte} (h : outFolded b s = .done t) :
    t = s.afterFolded [b] ∧ outByte b s = .done (s.afterOut [b]) := by
  obtain ⟨u, hu, ht⟩ := andThen_eq_done.mp h
  obtain ⟨rfl, -⟩ := outByte_done hu
  simp only [Ran.done.injEq] at ht
  exact ⟨by rw [← ht]; simp [State.folded, State.afterFolded, foldBytes], hu⟩

theorem outFolded_raised {b : Byte} (h : outFolded b s = .raised f t) : outByte b s = .raised f t := by
  rcases andThen_eq_raised.mp h with h | ⟨u, -, hu⟩
  · exact h
  · cases hu

theorem emitFolded_done (h : emitAll outFolded bs s = .done t) : t = s.afterFolded bs :=
  emitAll_done (fun _ _ _ h => (outFolded_done h).1) afterFolded_nil afterFolded_append h

/-- Everything a run of tag bytes can do when it stops. -/
theorem emitFolded_raised (h : emitAll outFolded bs s = .raised f t) :
    ∃ xs ys, bs = xs ++ ys ∧ (f = .countOverflow ∧ t = s.afterFolded xs
      ∨ f = .sinkFail ∧ t = (s.afterFolded xs).sinkAsked ∧ s.regs.measure = false) := by
  obtain ⟨xs, b, ys, rfl, hr⟩ :=
    emitAll_raised (one := outFolded) (fun _ _ _ h => (outFolded_done h).1) afterFolded_nil
      afterFolded_append h
  refine ⟨xs, b :: ys, rfl, ?_⟩
  rcases outByte_raised (outFolded_raised hr) with ⟨rfl, rfl, -⟩ | ⟨rfl, rfl, -, hm, -⟩
  · exact .inl ⟨rfl, rfl⟩
  · exact .inr ⟨rfl, rfl, by simpa [State.afterFolded] using hm⟩

theorem takes_afterFolded {n : Nat} (h : s.Takes (bs.length + n)) : (s.afterFolded bs).Takes n := by
  have := takes_afterOut h
  simpa [State.afterFolded, State.Takes, State.answerAt] using this

/-- A run of tag bytes runs to its end where every byte is taken. -/
theorem emitFolded_takes (h : s.Takes bs.length) :
    emitAll outFolded bs s = .done (s.afterFolded bs) := by
  induction bs generalizing s with
  | nil => simp [afterFolded_nil]
  | cons b bs ih =>
    have h' : s.Takes ([b].length + bs.length) := by simpa [Nat.add_comm] using h
    have h1 : outFolded b s = .done (s.afterFolded [b]) := by
      unfold outFolded
      rw [outByte_takes (takes_mono h' (by simp)) b, andThen_done]
      simp [State.folded, State.afterFolded, foldBytes]
    rw [emitAll_cons, h1, andThen_done, ih (takes_afterFolded h'), afterFolded_append]
    rfl

/-! ## Stored-block headers -/

theorem blockLength_toNat (n : Word) (cap : Half) :
    (blockLength n cap).toNat = min n.toNat cap.toNat := by
  unfold blockLength
  have := cap.isLt
  split
  · rename_i h
    simp only [BitVec.le_def, BitVec.toNat_setWidth] at h ⊢
    omega
  · rename_i h
    simp only [BitVec.le_def, BitVec.toNat_setWidth] at h
    omega

theorem blockLength_eq (n : Word) (cap : Half) :
    blockLength n cap = BitVec.ofNat 16 (min n.toNat cap.toNat) := by
  apply BitVec.eq_of_toNat_eq
  have := cap.isLt
  rw [blockLength_toNat, BitVec.toNat_ofNat]; omega

/-- The bytes `StartBlock` emits, as arithmetic (`44_zlib_stored.md` R176). -/
theorem header_eq (n : Word) (cap : Half) :
    blockFinal n cap :: (leBytes ((blockLength n cap).setWidth 32) 2
        ++ leBytes ((blockLength n cap ^^^ 0xFFFF#16).setWidth 32) 2)
      = blockHeader n.toNat cap.toNat := by
  have hl := blockLength_toNat n cap
  have hb := (blockLength n cap).isLt
  generalize blockLength n cap = len at hl hb
  have hx : (len ^^^ 0xFFFF#16).toNat = 65535 - len.toNat := by
    rw [show (0xFFFF#16) = BitVec.allOnes 16 from by decide, BitVec.xor_allOnes, BitVec.toNat_not]
  have ho : ∀ (v : Half) (k : Nat), byteAt (v.setWidth 32) k = BitVec.ofNat 8 (v.toNat / 256 ^ k) := by
    intro v k
    rw [byteAt_eq_octet, octet, BitVec.toNat_setWidth, Nat.mod_eq_of_lt (by omega)]
  simp only [leBytes, ho, hx, blockHeader, List.nil_append, List.cons_append]
  rw [← hl]
  congr 1
  · unfold blockFinal
    have := cap.isLt
    by_cases h : n.toNat ≤ cap.toNat
    · rw [if_pos h, if_pos (by simp only [BitVec.le_def, BitVec.toNat_setWidth]; omega)]
    · rw [if_neg h, if_neg (by simp only [BitVec.le_def, BitVec.toNat_setWidth]; omega)]
  · simp only [pow_zero, Nat.div_one, pow_one]
    congr 1
    · apply BitVec.eq_of_toNat_eq; simp
    congr 2
    · apply BitVec.eq_of_toNat_eq; simp only [BitVec.toNat_ofNat]; omega
    · congr 1; apply BitVec.eq_of_toNat_eq; simp only [BitVec.toNat_ofNat]; omega

theorem blockHeader_length (n cap : Nat) : (blockHeader n cap).length = 5 := rfl

/-- `StartBlock` is its header through `Pay`, then `ZBLK` (`44_zlib_stored.md` R178). -/
theorem startBlock_eq (s : State) :
    startBlock s = (emitAll payByte (blockHeader s.regs.zrem.toNat s.params.zblockCap.toNat) s).andThen
      fun t => .done (setBlock (blockLength s.regs.zrem s.params.zblockCap) t) := by
  rw [← header_eq, emitAll_cons, andThen_assoc]
  simp only [startBlock, writeLE_eq]
  congr 1; funext t
  rw [emitAll_append, andThen_assoc]

/-- `Z_BEGIN` after its check is one run of seven bytes, then `ZBLK` (`44_zlib_stored.md` R177). -/
theorem zBegin_eq (total : Word) (s : State) :
    ((payByte s.params.zhdr0 (openStream total s)).andThen fun t =>
        (payByte t.params.zhdr1 t).andThen startBlock)
      = (emitAll payByte ([s.params.zhdr0, s.params.zhdr1]
            ++ blockHeader total.toNat s.params.zblockCap.toNat) (openStream total s)).andThen
          fun t => .done (setBlock (blockLength total s.params.zblockCap) t) := by
  simp only [List.cons_append, List.nil_append, emitAll_cons, andThen_assoc]
  cases h0 : payByte s.params.zhdr0 (openStream total s) with
  | raised f t => rfl
  | done t =>
    obtain ⟨rfl, -⟩ := payByte_done h0
    simp only [andThen_done, afterPay_params]
    change (payByte s.params.zhdr1 _).andThen _ = (payByte s.params.zhdr1 _).andThen _
    cases h1 : payByte s.params.zhdr1 ((openStream total s).afterPay [s.params.zhdr0]) with
    | raised f t => rfl
    | done t =>
      obtain ⟨rfl, -⟩ := payByte_done h1
      simp only [andThen_done, startBlock_eq, afterPay_params, afterPay_zrem]
      rfl

end Sys2Proof.Machine
end

