-- ==== Sys2Proof/Laws/Checksums.lean ====
section
/-! SUPPORT. Laws of the checksum steps (`40_crc32.md` R130, `41_adler32.md` R141) and lengths of the streams (`44_zlib_stored.md` R181, R182). -/

namespace Sys2Proof.Machine

/-- The bit step is linear. -/
theorem crcStep_xor (x y : Word) : crcStep (x ^^^ y) = crcStep x ^^^ crcStep y := by
  unfold crcStep
  simp only [BitVec.getLsbD_xor, BitVec.ushiftRight_xor_distrib]
  cases x.getLsbD 0 <;> cases y.getLsbD 0 <;> simp
  · ac_rfl
  · rw [BitVec.xor_assoc]
  · rw [show (0xEDB88320#32 ^^^ x >>> 1 ^^^ (0xEDB88320#32 ^^^ y >>> 1)) = (0xEDB88320#32 ^^^ 0xEDB88320#32) ^^^ (x >>> 1 ^^^ y >>> 1) by ac_rfl]
    simp

/-- The bit step loses nothing: bit 31 of the polynomial is set, so the bit shifted out can be read off the result. -/
theorem crcStep_injective : Function.Injective crcStep := by
  intro x y h
  have h0 : crcStep (x ^^^ y) = 0#32 := by rw [crcStep_xor, h, BitVec.xor_self]
  have : x ^^^ y = 0#32 := by
    generalize x ^^^ y = z at h0
    have hb : z.getLsbD 0 = false := by
      by_contra hc
      unfold crcStep at h0
      rw [if_pos (by simpa using hc)] at h0
      have := congrArg (fun v : Word => v.getLsbD 31) h0
      simp at this
    unfold crcStep at h0
    rw [if_neg (by rw [hb]; simp)] at h0
    apply BitVec.eq_of_getLsbD_eq
    intro i hi
    cases i with
    | zero => simpa using hb
    | succ i =>
      have := congrArg (fun v : Word => v.getLsbD i) h0
      simp only [BitVec.getLsbD_ushiftRight, BitVec.getLsbD_zero] at this
      rw [BitVec.getLsbD_zero, Nat.add_comm]; exact this
  have h2 := congrArg (· ^^^ y) this
  simpa [BitVec.xor_assoc] using h2

theorem adlerAdd_toNat (a b : Nat) : (adlerAdd a b).toNat = (a + b) % 65521 := by
  simp only [adlerAdd, BitVec.toNat_ofNat]; omega

/-- The pair after one step (R141). -/
theorem adlerStep_toNat (b : Byte) (r : Regs) :
    (adlerStep b r).s1.toNat = (r.s1.toNat + b.toNat) % 65521
      ∧ (adlerStep b r).s2.toNat = (r.s2.toNat + (adlerStep b r).s1.toNat) % 65521 :=
  ⟨adlerAdd_toNat _ _, adlerAdd_toNat _ _⟩

/-- The pair after a sequence depends on the pair before it alone. -/
theorem adlerBytes_congr (bs : List Byte) {r r' : Regs} (h1 : r.s1 = r'.s1) (h2 : r.s2 = r'.s2) :
    (adlerBytes r bs).s1 = (adlerBytes r' bs).s1 ∧ (adlerBytes r bs).s2 = (adlerBytes r' bs).s2 := by
  induction bs generalizing r r' with
  | nil => exact ⟨h1, h2⟩
  | cons b bs ih => exact ih (by simp [adlerStep, h1]) (by simp [adlerStep, h1, h2])

/-- The blocks hold the payload (`44_zlib_stored.md` R181). -/
theorem nBlocks_ge {cap n : Nat} (hc : 0 < cap) : n ≤ nBlocks cap n * cap := by
  unfold nBlocks
  have h1 := Nat.div_add_mod (n + cap - 1) cap
  have h2 := Nat.mod_lt (n + cap - 1) hc
  have h3 : (n + cap - 1) / cap * cap ≤ max 1 ((n + cap - 1) / cap) * cap := Nat.mul_le_mul_right _ (le_max_right _ _)
  rw [Nat.mul_comm] at h1
  omega

theorem storedBlock_length (f d) : (storedBlock f d).length = 5 + d.length := by
  simp [storedBlock, le16, leBytes]; omega

theorem blocks_length (cap : Nat) (data : List Byte) (g : Nat → Bool) (m : Nat) :
   ((List.range m).flatMap fun k => storedBlock (g k) ((data.drop (k * cap)).take cap)).length = 5 * m + min (m * cap) data.length := by
  induction m with
  | zero => simp
  | succ m ih =>
    rw [List.range_succ, List.flatMap_append, List.length_append, ih]
    simp only [List.flatMap_cons, List.flatMap_nil, List.append_nil, storedBlock_length, List.length_take, List.length_drop, Nat.succ_mul]
    omega

/-- A zlib stream's length (`44_zlib_stored.md` R182). -/
theorem zlibStream_length (p : Params) (hp : p.Valid) (data : List Byte) :
    (zlibStream p data).length = zLen p.zblockCap.toNat data.length := by
  have := nBlocks_ge (n := data.length) (show 0 < p.zblockCap.toNat from hp.2)
  simp only [zlibStream, List.length_append, storedBlocks, blocks_length (g := fun k => decide (k + 1 = nBlocks p.zblockCap.toNat data.length)), be32, beBytes_length, zLen]
  simp; omega

end Sys2Proof.Machine
end

