-- ==== Sys2Proof/Laws/Encoding.lean ====
section
/-! SUPPORT. The fields of a command word: a word is its opcode byte above its `imm` (`30_encoding.md` R100), and a byte operand is its `imm` (R102). -/

namespace Sys2Proof

theorem opcodeOf_toNat (w : CommandWord) : (opcodeOf w).toNat = w.toNat / 2 ^ 32 := by
  have := w.isLt
  simp only [opcodeOf, BitVec.extractLsb'_toNat, Nat.shiftRight_eq_div_pow]
  omega

theorem immOf_toNat (w : CommandWord) : (immOf w).toNat = w.toNat % 2 ^ 32 := by
  simp [immOf]

theorem groupOf_toNat (w : CommandWord) : (groupOf w).toNat = (opcodeOf w).toNat / 16 := by
  have := w.isLt
  rw [opcodeOf_toNat]
  simp only [groupOf, BitVec.extractLsb'_toNat, Nat.shiftRight_eq_div_pow]
  omega

theorem functionOf_toNat (w : CommandWord) : (functionOf w).toNat = (opcodeOf w).toNat % 16 := by
  have := w.isLt
  rw [opcodeOf_toNat]
  simp only [functionOf, BitVec.extractLsb'_toNat, Nat.shiftRight_eq_div_pow]

theorem encode_toNat (i : Instr) : (encode i).toNat = i.opcode.toNat * 2 ^ 32 + i.immediate.toNat := by
  have := i.immediate.isLt
  simp only [encode, BitVec.toNat_append, Nat.shiftLeft_eq]
  rw [Nat.mul_comm, Nat.two_pow_add_eq_or_of_lt this]

/-- A word is its fields. -/
theorem word_eq_of_fields {w w' : CommandWord} (ho : (opcodeOf w).toNat = (opcodeOf w').toNat)
    (hi : immOf w = immOf w') : w = w' := by
  apply BitVec.eq_of_toNat_eq
  rw [opcodeOf_toNat, opcodeOf_toNat] at ho
  have := congrArg BitVec.toNat hi
  rw [immOf_toNat, immOf_toNat] at this
  omega

@[simp] theorem opcodeOf_encode (i : Instr) : opcodeOf (encode i) = i.opcode := by
  apply BitVec.eq_of_toNat_eq
  have := i.immediate.isLt
  rw [opcodeOf_toNat, encode_toNat]
  omega

@[simp] theorem immOf_encode (i : Instr) : immOf (encode i) = i.immediate := by
  apply BitVec.eq_of_toNat_eq
  have := i.immediate.isLt
  rw [immOf_toNat, encode_toNat]
  omega

theorem decode_encode (i : Instr) : decode (encode i) = decodeFields i.opcode.toNat i.immediate := by
  simp [decode]

/-- A byte operand stands in an `imm` whose upper bits are 0 (R101, format `B`). -/
theorem byte_fits (b : Byte) : (b.setWidth 32) >>> 8 = 0#32 := by
  apply BitVec.eq_of_toNat_eq
  have := b.isLt
  simp only [BitVec.toNat_ushiftRight, BitVec.toNat_setWidth, Nat.shiftRight_eq_div_pow]
  simp
  omega

theorem byte_of_imm (b : Byte) : (b.setWidth 32).setWidth 8 = b := by
  apply BitVec.eq_of_toNat_eq
  have := b.isLt
  simp only [BitVec.toNat_setWidth]
  omega

theorem imm_of_byte {v : Word} (h : v >>> 8 = 0#32) : (v.setWidth 8).setWidth 32 = v := by
  apply BitVec.eq_of_toNat_eq
  have h := congrArg BitVec.toNat h
  simp only [BitVec.toNat_ushiftRight, Nat.shiftRight_eq_div_pow, BitVec.toNat_ofNat] at h
  simp only [BitVec.toNat_setWidth]
  omega

/-- Format `B` reads back the byte. -/
theorem decodeByte_imm (b : Byte) (i : Byte → Instr) :
    decodeByte (b.setWidth 32) i = .command (i b) := by
  rw [decodeByte, if_pos (byte_fits b), byte_of_imm]

theorem decodeNone_zero (i : Instr) : decodeNone 0#32 i = .command i := rfl

end Sys2Proof
end

