-- ==== Sys2Proof/Laws/HostProgramme.lean ====
section
/-! SUPPORT. What the host's run does, said once (`46_png_host_sequence.md` R213, R214, R216). -/

namespace Sys2Proof.Machine

@[simp] theorem hostAndThen_succeeded (s : State) (k : State → HostRun) :
    (HostRun.succeeded s).andThen k = k s := rfl

@[simp] theorem hostAndThen_failed (s : State) (k : State → HostRun) :
    (HostRun.failed s).andThen k = .failed s := rfl

@[simp] theorem hostRun_nil (s : State) : hostRun [] s = .succeeded s := rfl

/-- A sequence sent in two parts is the sequence (R213, R216). -/
theorem hostRun_append (is js : List Instr) (s : State) :
    hostRun (is ++ js) s = (hostRun is s).andThen (hostRun js) := by
  induction is generalizing s with
  | nil => rfl
  | cons i is ih =>
    simp only [List.cons_append, hostRun]
    cases step (placeCommand (encode i) s) with
    | fault _ => rfl
    | refused _ => rfl
    | next t =>
      cases h : t.responses.getLast? with
      | none => simp [h]
      | some r => by_cases hr : r.status = statusOk <;> simp [h, hr, ih]

/-- `RDREG COUNT` gives the host the count as its data (`45_system_commands.md` R196). -/
theorem lastData_rdregCount (s : State) : (readRegister .count s).lastData = some s.regs.count := by
  simp [State.lastData, readRegister, State.respond, Regs.read]

/-- The measured programme is that of R214 with the length the block answered: where the commands up to `RDREG COUNT` succeed in `t` and its data is `len`, the host goes on from `t` with `len`. -/
theorem runEncodePngMeasured_eq {p : Params} {g : Image} {s t : State} {first : List Instr}
    {rest : Word → List Instr} {len : Word} (hc : encodePngMeasured p g = some (first, rest))
    (hr : hostRun first s = .succeeded t) (hl : t.lastData = some len) :
    runEncodePngMeasured p g s = some (hostRun (rest len) t) := by
  simp [runEncodePngMeasured, hc, hr, hl]

end Sys2Proof.Machine
end

