-- ==== Sys2Proof/Laws/Outcomes.lean ====
section
/-! SUPPORT. What a run of bytes needs to reach its end, where it can stop, and each emitting command's outcomes, said once for later proofs to cite. -/

namespace Sys2Proof.Machine

variable {s t u : State} {bs : List Byte} {f : FaultCode}

/-- A run that stops: the bytes before ran to their end, one byte stopped. -/
theorem emitAll_eq_raised {one : Byte → State → Ran} (h : emitAll one bs s = .raised f t) :
    ∃ xs b ys u, bs = xs ++ b :: ys ∧ emitAll one xs s = .done u ∧ one b u = .raised f t := by
  induction bs generalizing s with
  | nil => simp at h
  | cons b bs ih =>
    rcases andThen_eq_raised.mp h with hr | ⟨v, hv, hr⟩
    · exact ⟨[], b, bs, s, rfl, rfl, hr⟩
    · obtain ⟨xs, c, ys, u, rfl, hx, hc⟩ := ih hr
      exact ⟨b :: xs, c, ys, u, rfl, by simp [hv, hx], hc⟩

/-- A single `Out` that ran to its end had what it needs. -/
theorem takes_of_outByte_done {b : Byte} (h : outByte b s = .done t) : s.Takes 1 := by
  obtain ⟨-, hc, ha⟩ := outByte_done h
  refine ⟨?_, ha.imp_right fun ha j hj => ?_⟩
  · have := s.regs.count.isLt
    have : s.regs.count.toNat ≠ 0xFFFFFFFF := fun e => hc (BitVec.eq_of_toNat_eq (by simpa using e))
    omega
  · obtain rfl : j = 0 := by omega
    rw [answerAt_zero, ha]

theorem takes_add {m n : Nat} (hb : bs.length = m) (h : s.Takes m) (h' : (s.afterOut bs).Takes n) :
    s.Takes (m + n) := by
  subst hb
  obtain ⟨hc, ha⟩ := h
  obtain ⟨hc', ha'⟩ := h'
  simp only [afterOut_regs, BitVec.toNat_add, BitVec.toNat_ofNat] at hc' ha'
  refine ⟨by omega, ?_⟩
  cases hm : s.regs.measure with
  | true => exact .inl rfl
  | false =>
    simp only [hm, Bool.false_eq_true, false_or] at ha ha'
    refine .inr fun j hj => ?_
    by_cases hj' : j < bs.length
    · exact ha j hj'
    · have := ha' (j - bs.length) (by omega)
      rwa [answerAt_afterOut hm, show bs.length + (j - bs.length) = j by omega] at this

/-- A run of `Out` reaches its end exactly where every byte is taken (R76). -/
theorem emitOut_eq_done : emitAll outByte bs s = .done t ↔ s.Takes bs.length ∧ t = s.afterOut bs := by
  refine ⟨fun h => ⟨?_, emitOut_done h⟩, fun ⟨h, ht⟩ => ht ▸ emitOut_takes h⟩
  induction bs generalizing s with
  | nil => exact ⟨by have := s.regs.count.isLt; simpa using this, .inr (by simp)⟩
  | cons b bs ih =>
    obtain ⟨u, hu, ht⟩ := andThen_eq_done.mp h
    obtain ⟨rfl, -⟩ := outByte_done hu
    have := takes_add (bs := [b]) rfl (takes_of_outByte_done hu) (ih ht)
    rwa [Nat.add_comm] at this

theorem afterPay_takes {n : Nat} : (s.afterPay bs).Takes n ↔ (s.afterOut bs).Takes n := by
  unfold State.Takes State.answerAt
  simp [afterPay_regs, afterPay_sinkScript, afterPay_asked, afterOut_sinkScript, afterOut_asked]

/-- A run of `Pay` that reached its end: every byte was taken, and an open chunk within its length had room for all of them (R77). -/
theorem emitPay_needs (h : emitAll payByte bs s = .done t) :
    s.Takes bs.length
      ∧ (s.regs.cstate = .cOpen → s.regs.ccnt.toNat ≤ s.regs.clen.toNat →
          s.regs.ccnt.toNat + bs.length ≤ s.regs.clen.toNat) := by
  induction bs generalizing s with
  | nil => exact ⟨⟨by have := s.regs.count.isLt; simpa using this, .inr (by simp)⟩, fun _ h => h⟩
  | cons b bs ih =>
    obtain ⟨u, hu, ht⟩ := andThen_eq_done.mp h
    obtain ⟨rfl, hc, ha, hl⟩ := payByte_done hu
    obtain ⟨h1, h2⟩ := ih ht
    have hs : s.Takes 1 := by
      refine ⟨?_, ha.imp_right fun ha j hj => ?_⟩
      · have := s.regs.count.isLt
        have : s.regs.count.toNat ≠ 0xFFFFFFFF := fun e => hc (BitVec.eq_of_toNat_eq (by simpa using e))
        omega
      · obtain rfl : j = 0 := by omega
        rw [answerAt_zero, ha]
    refine ⟨?_, fun ho hle => ?_⟩
    · have := takes_add (bs := [b]) rfl hs (afterPay_takes.mp h1)
      rwa [Nat.add_comm] at this
    · have hne : s.regs.ccnt.toNat ≠ s.regs.clen.toNat := fun e => hl ho (BitVec.eq_of_toNat_eq e)
      have := s.regs.clen.isLt
      have h3 := h2 (by simpa using ho)
      simp only [afterPay_regs, ho, if_true, List.length_singleton, BitVec.toNat_add,
        BitVec.toNat_ofNat] at h3
      simp only [List.length_cons]
      omega

/-- Where and how a run of `Pay` stops: after the bytes `xs`, with an overrun, a count overflow or a sink failure (R250). -/
def PayStops (bs : List Byte) (s : State) (f : FaultCode) (t : State) : Prop :=
  ∃ xs b ys, bs = xs ++ b :: ys ∧ emitAll payByte xs s = .done (s.afterPay xs) ∧
    (f = .chunkOverrun ∧ t = s.afterPay xs ∧ s.regs.cstate = .cOpen
        ∧ (s.afterPay xs).regs.ccnt = (s.afterPay xs).regs.clen
      ∨ f = .countOverflow ∧ t = s.afterPay xs ∧ (s.afterPay xs).regs.count = 0xFFFFFFFF#32
      ∨ f = .sinkFail ∧ t = (s.afterPay xs).sinkAsked ∧ s.regs.measure = false
        ∧ s.answerAt xs.length = .fail)

/-- Where and how a run of `Out` stops. -/
def OutStops (bs : List Byte) (s : State) (f : FaultCode) (t : State) : Prop :=
  ∃ xs b ys, bs = xs ++ b :: ys ∧ s.Takes xs.length ∧
    (f = .countOverflow ∧ t = s.afterOut xs ∧ (s.afterOut xs).regs.count = 0xFFFFFFFF#32
      ∨ f = .sinkFail ∧ t = (s.afterOut xs).sinkAsked ∧ s.regs.measure = false
        ∧ s.answerAt xs.length = .fail)

/-- A run of `Pay` ends in its closed form or stops. -/
theorem emitPay_cases (bs : List Byte) (s : State) :
    emitAll payByte bs s = .done (s.afterPay bs)
      ∨ ∃ f t, emitAll payByte bs s = .raised f t ∧ PayStops bs s f t := by
  cases h : emitAll payByte bs s with
  | done t => exact .inl (by rw [emitPay_done h])
  | raised f t =>
    obtain ⟨xs, b, ys, u, rfl, hx, hb⟩ := emitAll_eq_raised h
    obtain rfl := emitPay_done hx
    refine .inr ⟨f, t, rfl, xs, b, ys, rfl, hx, ?_⟩
    rcases payByte_raised hb with ⟨rfl, rfl, ho, hl⟩ | ⟨rfl, rfl, hc, -⟩ | ⟨rfl, rfl, -, hm, hn, -⟩
    · exact .inl ⟨rfl, rfl, by simpa using ho, hl⟩
    · exact .inr (.inl ⟨rfl, rfl, hc⟩)
    · have hm' : s.regs.measure = false := by simpa using hm
      refine .inr (.inr ⟨rfl, rfl, hm', ?_⟩)
      rw [← answerAt_zero, answerAt_afterPay hm'] at hn
      simpa using hn

/-- A run of `Out` ends in its closed form or stops. -/
theorem emitOut_cases (bs : List Byte) (s : State) :
    emitAll outByte bs s = .done (s.afterOut bs) ∧ s.Takes bs.length
      ∨ ∃ f t, emitAll outByte bs s = .raised f t ∧ OutStops bs s f t := by
  cases h : emitAll outByte bs s with
  | done t => obtain ⟨ht, rfl⟩ := emitOut_eq_done.mp h; exact .inl ⟨rfl, ht⟩
  | raised f t =>
    obtain ⟨xs, b, ys, u, rfl, hx, hb⟩ := emitAll_eq_raised h
    obtain ⟨hk, rfl⟩ := emitOut_eq_done.mp hx
    refine .inr ⟨f, t, rfl, xs, b, ys, rfl, hk, ?_⟩
    rcases outByte_raised hb with ⟨rfl, rfl, hc⟩ | ⟨rfl, rfl, -, hm, hn⟩
    · exact .inl ⟨rfl, rfl, hc⟩
    · have hm' : s.regs.measure = false := by simpa using hm
      refine .inr ⟨rfl, rfl, hm', ?_⟩
      rw [← answerAt_zero, answerAt_afterOut hm'] at hn
      simpa using hn

/-- A run of tag bytes is the run of `Out` with the folds added at each byte. -/
theorem emitFolded_eq_done :
    emitAll outFolded bs s = .done t ↔ s.Takes bs.length ∧ t = s.afterFolded bs := by
  refine ⟨fun h => ⟨?_, emitFolded_done h⟩, fun ⟨h, ht⟩ => ht ▸ emitFolded_takes h⟩
  induction bs generalizing s with
  | nil => exact ⟨by have := s.regs.count.isLt; simpa using this, .inr (by simp)⟩
  | cons b bs ih =>
    obtain ⟨u, hu, ht⟩ := andThen_eq_done.mp h
    obtain ⟨rfl, ho⟩ := outFolded_done hu
    have h1 : (s.afterFolded [b]).Takes bs.length := ih ht
    have := takes_add (bs := [b]) rfl (takes_of_outByte_done ho) h1
    rwa [Nat.add_comm] at this

/-- Where and how a run of tag bytes stops. -/
def FoldedStops (bs : List Byte) (s : State) (f : FaultCode) (t : State) : Prop :=
  ∃ xs b ys, bs = xs ++ b :: ys ∧ s.Takes xs.length ∧
    (f = .countOverflow ∧ t = s.afterFolded xs ∧ (s.afterOut xs).regs.count = 0xFFFFFFFF#32
      ∨ f = .sinkFail ∧ t = (s.afterFolded xs).sinkAsked ∧ s.regs.measure = false
        ∧ s.answerAt xs.length = .fail)

theorem emitFolded_cases (bs : List Byte) (s : State) :
    emitAll outFolded bs s = .done (s.afterFolded bs) ∧ s.Takes bs.length
      ∨ ∃ f t, emitAll outFolded bs s = .raised f t ∧ FoldedStops bs s f t := by
  cases h : emitAll outFolded bs s with
  | done t => obtain ⟨ht, rfl⟩ := emitFolded_eq_done.mp h; exact .inl ⟨rfl, ht⟩
  | raised f t =>
    obtain ⟨xs, b, ys, u, rfl, hx, hb⟩ := emitAll_eq_raised h
    obtain ⟨hk, rfl⟩ := emitFolded_eq_done.mp hx
    refine .inr ⟨f, t, rfl, xs, b, ys, rfl, hk, ?_⟩
    rcases outByte_raised (outFolded_raised hb) with ⟨rfl, rfl, hc⟩ | ⟨rfl, rfl, -, hm, hn⟩
    · exact .inl ⟨rfl, rfl, hc⟩
    · have hm' : s.regs.measure = false := by simpa [State.afterFolded] using hm
      refine .inr ⟨rfl, rfl, hm', ?_⟩
      have : (s.afterFolded xs).answerAt 0 = .fail := by rw [answerAt_zero, hn]
      have h2 : (s.afterOut xs).answerAt 0 = .fail := this
      rw [answerAt_afterOut hm'] at h2
      simpa using h2

/-- Every command answers a next state (`93_implementation_defined.md`, end of section 1). -/
theorem exec_next (i : Instr) (s : State) : ∃ t, exec i s = .next t := by cases i <;> exact ⟨_, rfl⟩

/-- So does every word. -/
theorem execWord_next (w : CommandWord) (s : State) : ∃ t, execWord w s = .next t := by
  unfold execWord
  cases decode w with
  | command i => exact exec_next i s
  | illegal _ => exact ⟨_, rfl⟩

/-- `WRREG`'s outcomes, from a state that is not halted (`45_system_commands.md` R197). -/
theorem writeRegister_cases {w : Regs → Regs} (hl : s.regs.fault = 0#8) (h : writeRegister w s = t) :
    (¬(s.regs.cstate = .cIdle ∧ s.regs.zstate = .zIdle) ∧ t = s.takeFault .badState)
      ∨ (s.regs.cstate = .cIdle ∧ s.regs.zstate = .zIdle)
        ∧ t = (s.withRegs (w s.regs)).respond statusOk 0#32 := by
  subst h
  rw [writeRegister, runCommand_live hl]
  by_cases h1 : s.regs.cstate = .cIdle ∧ s.regs.zstate = .zIdle
  · exact .inr ⟨h1, by simp [requireIdle, require, h1, finish]⟩
  · exact .inl ⟨h1, by simp [requireIdle, require, h1, finish]⟩

/-! ## The emitting commands, each outcome once, from a state that is not halted -/

/-- A writer command's outcomes (`42_byte_order_writer.md` R152, R153). -/
theorem writer_cases {i : Instr} (hi : writerBytes i = some bs) (hl : s.regs.fault = 0#8)
    (h : exec i s = .next t) :
    (s.regs.zstate = .zOpen ∧ t = s.takeFault .badState)
      ∨ s.regs.zstate = .zIdle ∧
        ((emitAll payByte bs s = .done (s.afterPay bs) ∧ t = (s.afterPay bs).respond statusOk 0#32)
          ∨ ∃ f u, PayStops bs s f u ∧ t = u.takeFault f) := by
  rw [exec_writer hi, runCommand_live hl] at h
  simp only [Host.Outcome.next.injEq] at h
  subst h
  cases hz : s.regs.zstate with
  | zOpen => exact .inl ⟨rfl, by simp [requireNoStream, require, hz, finish]⟩
  | zIdle =>
    have hr : requireNoStream s = .done s := by simp [requireNoStream, require, hz]
    refine .inr ⟨rfl, ?_⟩
    rw [hr, andThen_done]
    rcases emitPay_cases bs s with he | ⟨f, u, he, hs⟩
    · exact .inl ⟨he, by rw [he]; rfl⟩
    · exact .inr ⟨f, u, hs, by rw [he]; rfl⟩

/-- `CHUNK_BEGIN`'s outcomes (`43_chunk_framer.md` R163). -/
theorem chunkBegin_cases {len : Word} (hl : s.regs.fault = 0#8) (h : exec (.chunkBegin len) s = .next t) :
    (¬(s.regs.cstate = .cIdle ∧ s.regs.zstate = .zIdle) ∧ t = s.takeFault .badState)
      ∨ (s.regs.cstate = .cIdle ∧ s.regs.zstate = .zIdle) ∧
        ((expectedTag s.regs.cseq ≠ some s.regs.tag ∧ t = s.takeFault .chunkOrder)
          ∨ expectedTag s.regs.cseq = some s.regs.tag ∧
            ((¬len ≤ s.params.chunkLenMax ∧ t = s.takeFault .chunkLength)
              ∨ len ≤ s.params.chunkLenMax ∧
                let lenBytes := beBytes len 4
                let tagBytes := beBytes s.regs.tag 4
                let s1 := declareLength len s
                let s2 := startCrc (s1.afterOut lenBytes)
                ((∃ f u, OutStops lenBytes s1 f u ∧ t = u.takeFault f)
                  ∨ s1.Takes 4 ∧
                    ((∃ f u, FoldedStops tagBytes s2 f u ∧ t = u.takeFault f)
                      ∨ s2.Takes 4 ∧ t = (openChunk (s2.afterFolded tagBytes)).respond statusOk 0#32)))) := by
  change Host.Outcome.next (runCommand 0#32 _ s) = _ at h
  rw [runCommand_live hl] at h
  simp only [Host.Outcome.next.injEq] at h
  subst h
  by_cases h1 : s.regs.cstate = .cIdle ∧ s.regs.zstate = .zIdle
  swap
  · exact .inl ⟨h1, by simp [requireIdle, require, h1, finish]⟩
  refine .inr ⟨h1, ?_⟩
  have hr : requireIdle s = .done s := by simp [requireIdle, require, h1]
  rw [hr, andThen_done]
  by_cases h2 : expectedTag s.regs.cseq = some s.regs.tag
  swap
  · exact .inl ⟨h2, by simp [require, h2, finish]⟩
  refine .inr ⟨h2, ?_⟩
  rw [show require (expectedTag s.regs.cseq = some s.regs.tag) .chunkOrder s = .done s by
    simp [require, h2], andThen_done]
  by_cases h3 : len ≤ s.params.chunkLenMax
  swap
  · exact .inl ⟨h3, by rw [show require (decide (len ≤ s.params.chunkLenMax)) .chunkLength s = .raised .chunkLength s by
      unfold require; rw [if_neg (by simpa using h3)]]; rfl⟩
  refine .inr ⟨h3, ?_⟩
  rw [show require (decide (len ≤ s.params.chunkLenMax)) .chunkLength s = .done s by
    unfold require; rw [if_pos (by simpa using h3)], andThen_done]
  simp only [emitChunkHead]
  rcases emitOut_cases (beBytes len 4) (declareLength len s) with ⟨he, ht⟩ | ⟨f, u, he, hs⟩
  swap
  · exact .inl ⟨f, u, hs, by rw [he]; rfl⟩
  refine .inr ⟨by simpa [beBytes_length] using ht, ?_⟩
  rw [he, andThen_done]
  rcases emitFolded_cases (beBytes s.regs.tag 4) (startCrc ((declareLength len s).afterOut (beBytes len 4)))
    with ⟨he2, ht2⟩ | ⟨f, u, he2, hs⟩
  · refine .inr ⟨by simpa [beBytes_length] using ht2, ?_⟩
    have : ((declareLength len s).afterOut (beBytes len 4)).regs.tag = s.regs.tag := by
      simp [declareLength]
    rw [this, he2]; rfl
  · refine .inl ⟨f, u, hs, ?_⟩
    have : ((declareLength len s).afterOut (beBytes len 4)).regs.tag = s.regs.tag := by
      simp [declareLength]
    rw [this, he2]; rfl

/-- `CHUNK_END`'s outcomes (`43_chunk_framer.md` R166). -/
theorem chunkEnd_cases (hl : s.regs.fault = 0#8) (h : exec .chunkEnd s = .next t) :
    (¬(s.regs.cstate = .cOpen ∧ s.regs.zstate = .zIdle) ∧ t = s.takeFault .badState)
      ∨ (s.regs.cstate = .cOpen ∧ s.regs.zstate = .zIdle) ∧
        ((s.regs.ccnt ≠ s.regs.clen ∧ t = s.takeFault .chunkUnderrun)
          ∨ s.regs.ccnt = s.regs.clen ∧
            let crcBytes := beBytes (s.regs.crc ^^^ crcOnes) 4
            ((∃ f u, OutStops crcBytes s f u ∧ t = u.takeFault f)
              ∨ s.Takes 4 ∧ t = (closeChunk (s.afterOut crcBytes)).respond statusOk 0#32)) := by
  change Host.Outcome.next (runCommand 0#32 _ s) = _ at h
  rw [runCommand_live hl] at h
  simp only [Host.Outcome.next.injEq] at h
  subst h
  by_cases h1 : s.regs.cstate = .cOpen ∧ s.regs.zstate = .zIdle
  swap
  · exact .inl ⟨h1, by simp [requireChunk, require, h1, finish]⟩
  refine .inr ⟨h1, ?_⟩
  rw [show requireChunk s = .done s by simp [requireChunk, require, h1], andThen_done]
  by_cases h2 : s.regs.ccnt = s.regs.clen
  swap
  · exact .inl ⟨h2, by simp [require, h2, finish]⟩
  refine .inr ⟨h2, ?_⟩
  rw [show require (s.regs.ccnt = s.regs.clen) .chunkUnderrun s = .done s by simp [require, h2], andThen_done]
  rcases emitOut_cases (beBytes (s.regs.crc ^^^ crcOnes) 4) s with ⟨he, ht⟩ | ⟨f, u, he, hs⟩
  · exact .inr ⟨by simpa [beBytes_length] using ht, by rw [he]; rfl⟩
  · exact .inl ⟨f, u, hs, by rw [he]; rfl⟩

/-- `Z_BEGIN`'s outcomes (`44_zlib_stored.md` R177). -/
theorem zBegin_cases {total : Word} (hl : s.regs.fault = 0#8) (h : exec (.zBegin total) s = .next t) :
    (s.regs.zstate = .zOpen ∧ t = s.takeFault .badState)
      ∨ s.regs.zstate = .zIdle ∧
        let bs := [s.params.zhdr0, s.params.zhdr1] ++ blockHeader total.toNat s.params.zblockCap.toNat
        let s1 := openStream total s
        ((∃ f u, PayStops bs s1 f u ∧ t = u.takeFault f)
          ∨ emitAll payByte bs s1 = .done (s1.afterPay bs)
            ∧ t = (setBlock (blockLength total s.params.zblockCap) (s1.afterPay bs)).respond statusOk 0#32) := by
  change Host.Outcome.next (runCommand 0#32 _ s) = _ at h
  rw [runCommand_live hl] at h
  simp only [Host.Outcome.next.injEq] at h
  subst h
  cases hz : s.regs.zstate with
  | zOpen => exact .inl ⟨rfl, by simp [requireNoStream, require, hz, finish]⟩
  | zIdle =>
    refine .inr ⟨rfl, ?_⟩
    rw [show requireNoStream s = .done s by simp [requireNoStream, require, hz], andThen_done, zBegin_eq]
    rcases emitPay_cases ([s.params.zhdr0, s.params.zhdr1]
        ++ blockHeader total.toNat s.params.zblockCap.toNat) (openStream total s) with he | ⟨f, u, he, hs⟩
    · exact .inr ⟨he, by rw [he]; rfl⟩
    · exact .inl ⟨f, u, hs, by rw [he]; rfl⟩

/-- `Z_DATA`'s outcomes (`44_zlib_stored.md` R179). -/
theorem zData_cases {b : Byte} (hl : s.regs.fault = 0#8) (h : exec (.zData b) s = .next t) :
    (s.regs.zstate = .zIdle ∧ t = s.takeFault .badState)
      ∨ s.regs.zstate = .zOpen ∧
        ((s.regs.zrem = 0#32 ∧ t = s.takeFault .zOverrun)
          ∨ s.regs.zrem ≠ 0#32 ∧
            let s1 := tookData b (s.afterPay [b])
            let header := blockHeader s1.regs.zrem.toNat s.params.zblockCap.toNat
            ((∃ f u, PayStops [b] s f u ∧ t = u.takeFault f)
              ∨ emitAll payByte [b] s = .done (s.afterPay [b]) ∧
                ((¬(s1.regs.zblk = 0#16 ∧ s1.regs.zrem ≠ 0#32) ∧ t = s1.respond statusOk 0#32)
                  ∨ (s1.regs.zblk = 0#16 ∧ s1.regs.zrem ≠ 0#32) ∧
                    ((∃ f u, PayStops header s1 f u ∧ t = u.takeFault f)
                      ∨ emitAll payByte header s1 = .done (s1.afterPay header)
                        ∧ t = (setBlock (blockLength s1.regs.zrem s.params.zblockCap)
                            (s1.afterPay header)).respond statusOk 0#32)))) := by
  change Host.Outcome.next (runCommand 0#32 _ s) = _ at h
  rw [runCommand_live hl] at h
  simp only [Host.Outcome.next.injEq] at h
  subst h
  cases hz : s.regs.zstate with
  | zIdle => exact .inl ⟨rfl, by simp [requireStream, require, hz, finish]⟩
  | zOpen =>
    refine .inr ⟨rfl, ?_⟩
    rw [show requireStream s = .done s by simp [requireStream, require, hz], andThen_done]
    by_cases h2 : s.regs.zrem = 0#32
    · exact .inl ⟨h2, by simp [require, h2, finish]⟩
    refine .inr ⟨h2, ?_⟩
    rw [show require (s.regs.zrem ≠ 0#32) .zOverrun s = .done s by simp [require, h2], andThen_done]
    have hone : payByte b s = emitAll payByte [b] s := by
      rw [emitAll_cons]; cases payByte b s <;> rfl
    rw [hone]
    rcases emitPay_cases [b] s with he | ⟨f, u, he, hs⟩
    swap
    · exact .inl ⟨f, u, hs, by rw [he]; rfl⟩
    refine .inr ⟨he, ?_⟩
    rw [he, andThen_done]
    generalize hs1 : tookData b (s.afterPay [b]) = s1
    have hp : s1.params = s.params := by rw [← hs1]; simp [tookData]
    by_cases h3 : s1.regs.zblk = 0#16 ∧ s1.regs.zrem ≠ 0#32
    swap
    · exact .inl ⟨h3, by rw [nextBlock, if_neg h3]; rfl⟩
    refine .inr ⟨h3, ?_⟩
    rw [nextBlock, if_pos h3, startBlock_eq, hp]
    rcases emitPay_cases (blockHeader s1.regs.zrem.toNat s.params.zblockCap.toNat) s1 with
      he2 | ⟨f, u, he2, hs⟩
    · exact .inr ⟨he2, by rw [he2]; rfl⟩
    · exact .inl ⟨f, u, hs, by rw [he2]; rfl⟩

/-- `Z_END`'s outcomes (`44_zlib_stored.md` R180). -/
theorem zEnd_cases (hl : s.regs.fault = 0#8) (h : exec .zEnd s = .next t) :
    (s.regs.zstate = .zIdle ∧ t = s.takeFault .badState)
      ∨ s.regs.zstate = .zOpen ∧
        ((s.regs.zrem ≠ 0#32 ∧ t = s.takeFault .zUnderrun)
          ∨ s.regs.zrem = 0#32 ∧
            let trailer := beBytes s.regs.adler 4
            ((∃ f u, PayStops trailer s f u ∧ t = u.takeFault f)
              ∨ emitAll payByte trailer s = .done (s.afterPay trailer)
                ∧ t = (closeStream (s.afterPay trailer)).respond statusOk 0#32)) := by
  change Host.Outcome.next (runCommand 0#32 _ s) = _ at h
  rw [runCommand_live hl] at h
  simp only [Host.Outcome.next.injEq] at h
  subst h
  cases hz : s.regs.zstate with
  | zIdle => exact .inl ⟨rfl, by simp [requireStream, require, hz, finish]⟩
  | zOpen =>
    refine .inr ⟨rfl, ?_⟩
    rw [show requireStream s = .done s by simp [requireStream, require, hz], andThen_done]
    by_cases h2 : s.regs.zrem = 0#32
    swap
    · exact .inl ⟨h2, by simp [require, h2, finish]⟩
    refine .inr ⟨h2, ?_⟩
    rw [show require (s.regs.zrem = 0#32) .zUnderrun s = .done s by simp [require, h2], andThen_done, writeBE_eq]
    rcases emitPay_cases (beBytes s.regs.adler 4) s with he | ⟨f, u, he, hs⟩
    · exact .inr ⟨he, by rw [he]; rfl⟩
    · exact .inl ⟨f, u, hs, by rw [he]; rfl⟩

end Sys2Proof.Machine
end

