-- ==== Sys2Proof/Laws/PerInstr.lean ====
section
/-! SUPPORT. The family `RoundTrip`, one lemma per command: the word of a well-formed command decodes to it (`30_encoding.md` R100, R102, R104). -/

namespace Sys2Proof.Laws.RoundTrip

/-- The word of the command, if it is well formed, decodes to the command, every operand at every value. -/
def Statement (i : Instr) : Prop := i.wellFormed = true → decode (encode i) = .command i

theorem start : Statement .start := fun _ => decode_encode _
theorem wrregCtrl (v : Word) : Statement (.wrregCtrl v) := fun h => by
  rw [decode_encode]; exact if_pos (of_decide_eq_true h)
theorem wrregTag (v : Word) : Statement (.wrregTag v) := fun _ => decode_encode _
theorem wrregCount (v : Word) : Statement (.wrregCount v) := fun _ => decode_encode _
theorem rdregStatus : Statement .rdregStatus := fun _ => decode_encode _
theorem rdregCtrl : Statement .rdregCtrl := fun _ => decode_encode _
theorem rdregTag : Statement .rdregTag := fun _ => decode_encode _
theorem rdregCount : Statement .rdregCount := fun _ => decode_encode _
theorem rdregCrc : Statement .rdregCrc := fun _ => decode_encode _
theorem rdregAdler : Statement .rdregAdler := fun _ => decode_encode _
theorem rdregClen : Statement .rdregClen := fun _ => decode_encode _
theorem rdregCcnt : Statement .rdregCcnt := fun _ => decode_encode _
theorem rdregZrem : Statement .rdregZrem := fun _ => decode_encode _
theorem rdregZblk : Statement .rdregZblk := fun _ => decode_encode _
theorem crcInit : Statement .crcInit := fun _ => decode_encode _
theorem crcUpdate (b : Byte) : Statement (.crcUpdate b) := fun _ => by
  rw [decode_encode]; exact decodeByte_imm b _
theorem crcFinal : Statement .crcFinal := fun _ => decode_encode _
theorem adlInit : Statement .adlInit := fun _ => decode_encode _
theorem adlUpdate (b : Byte) : Statement (.adlUpdate b) := fun _ => by
  rw [decode_encode]; exact decodeByte_imm b _
theorem adlFinal : Statement .adlFinal := fun _ => decode_encode _
theorem writeBe0 (v : Word) : Statement (.writeBe0 v) := fun _ => decode_encode _
theorem writeBe1 (v : Word) : Statement (.writeBe1 v) := fun _ => decode_encode _
theorem writeBe2 (v : Word) : Statement (.writeBe2 v) := fun _ => decode_encode _
theorem writeBe3 (v : Word) : Statement (.writeBe3 v) := fun _ => decode_encode _
theorem writeBe4 (v : Word) : Statement (.writeBe4 v) := fun _ => decode_encode _
theorem writeLe0 (v : Word) : Statement (.writeLe0 v) := fun _ => decode_encode _
theorem writeLe1 (v : Word) : Statement (.writeLe1 v) := fun _ => decode_encode _
theorem writeLe2 (v : Word) : Statement (.writeLe2 v) := fun _ => decode_encode _
theorem writeLe3 (v : Word) : Statement (.writeLe3 v) := fun _ => decode_encode _
theorem writeLe4 (v : Word) : Statement (.writeLe4 v) := fun _ => decode_encode _
theorem chunkBegin (v : Word) : Statement (.chunkBegin v) := fun _ => decode_encode _
theorem chunkEnd : Statement .chunkEnd := fun _ => decode_encode _
theorem zBegin (v : Word) : Statement (.zBegin v) := fun _ => decode_encode _
theorem zData (b : Byte) : Statement (.zData b) := fun _ => by
  rw [decode_encode]; exact decodeByte_imm b _
theorem zEnd : Statement .zEnd := fun _ => decode_encode _

end Sys2Proof.Laws.RoundTrip
end

