-- ==== Sys2Proof/Laws/Views.lean ====
section
/-! SUPPORT. The packed views of the registers as sums of their fields (`10_state.md` R45, R47). -/

namespace Sys2Proof.Machine

/-- Fields that do not overlap: or is a sum. -/
theorem or_high {a b : Nat} (i : Nat) (ha : a < 2 ^ i) : a ||| (b * 2 ^ i) = a + b * 2 ^ i := by
  rw [Nat.or_comm, Nat.mul_comm, ← Nat.two_pow_add_eq_or_of_lt ha b, Nat.add_comm]

/-- `ADLER` is the pair, `S2` above `S1` (`10_state.md` R47). -/
theorem adler_toNat (r : Regs) : r.adler.toNat = 65536 * r.s2.toNat + r.s1.toNat := by
  have h1 := r.s1.isLt
  have h2 := r.s2.isLt
  simp only [Regs.adler, BitVec.toNat_or, BitVec.toNat_shiftLeft, BitVec.toNat_setWidth, Nat.shiftLeft_eq]
  rw [Nat.mod_eq_of_lt (by omega : r.s2.toNat < 2 ^ 32), Nat.mod_eq_of_lt (by omega : r.s1.toNat < 2 ^ 32),
    Nat.mod_eq_of_lt (by omega), Nat.or_comm, or_high 16 h1]
  omega

/-- `STATUS` is the sum of its fields (`10_state.md` R45). -/
theorem status_toNat (r : Regs) :
    r.status.toNat = r.fault.toNat + 256 * r.cstate.bit.toNat + 512 * r.zstate.bit.toNat
      + 1024 * r.cseq.toNat := by
  have h1 := r.fault.isLt
  have h2 := r.cseq.isLt
  have hc : r.cstate.bit.toNat < 2 := by cases r.cstate <;> decide
  have hz : r.zstate.bit.toNat < 2 := by cases r.zstate <;> decide
  simp only [Regs.status, BitVec.toNat_or, BitVec.toNat_shiftLeft, BitVec.toNat_setWidth, Nat.shiftLeft_eq]
  rw [Nat.mod_eq_of_lt (by omega : r.fault.toNat < 2 ^ 32), Nat.mod_eq_of_lt (by omega : r.cseq.toNat < 2 ^ 32),
    Nat.mod_eq_of_lt (by omega), Nat.mod_eq_of_lt (by omega), Nat.mod_eq_of_lt (by omega),
    or_high 8 h1, or_high 9 (by omega), or_high 10 (by omega)]
  omega
end Sys2Proof.Machine
end

