-- ==== Sys2Proof/Laws/Sent.lean ====
section
/-! SUPPORT. What any command does outside the registers: the bytes it sends, the sink's answers it uses, the one response, and the count that goes with them (`20_memory.md` R73 to R78, `30_encoding.md` R109). -/

namespace Sys2Proof.Machine

variable {s t u : State} {bs : List Byte} {f : FaultCode}

/-- From `s` to `u` the bytes `bs` were sent, and the sink was asked `asks` times. -/
structure Sent (bs : List Byte) (asks : Nat) (s u : State) : Prop where
  count : u.regs.count.toNat = s.regs.count.toNat + bs.length
  measure : u.regs.measure = s.regs.measure
  out : u.out = s.out ++ if s.regs.measure then [] else bs
  asked : u.asked = s.asked + asks
  script : u.sinkScript = s.sinkScript.drop asks
  silent : s.regs.measure = true → asks = 0
  params : u.params = s.params
  events : u.events = s.events
  responses : u.responses = s.responses

theorem Sent.refl (s : State) : Sent [] 0 s s := by constructor <;> simp

theorem Sent.trans {xs ys : List Byte} {m n : Nat} (h : Sent xs m s t) (h' : Sent ys n t u) :
    Sent (xs ++ ys) (m + n) s u := by
  constructor
  · rw [h'.count, h.count, List.length_append]; omega
  · rw [h'.measure, h.measure]
  · rw [h'.out, h.out, h.measure]; split <;> simp
  · rw [h'.asked, h.asked]; omega
  · rw [h'.script, h.script, List.drop_drop]
  · intro hm; rw [h.silent hm, h'.silent (by rw [h.measure, hm])]
  · rw [h'.params, h.params]
  · rw [h'.events, h.events]
  · rw [h'.responses, h.responses]

/-- A change of registers that leaves `COUNT` and `CTRL.MEASURE` sends nothing. -/
theorem Sent.withRegs {r : Regs} (hc : r.count = s.regs.count) (hm : r.measure = s.regs.measure) :
    Sent [] 0 s (s.withRegs r) := by constructor <;> simp [hc, hm]

theorem sent_afterOut (h : s.Takes bs.length) :
    Sent bs (if s.regs.measure then 0 else bs.length) s (s.afterOut bs) := by
  have := h.1
  constructor <;> simp [afterOut_out, afterOut_asked, afterOut_sinkScript]
  · omega
  all_goals first | (split <;> simp_all) | simp_all

theorem sent_afterPay (h : s.Takes bs.length) :
    Sent bs (if s.regs.measure then 0 else bs.length) s (s.afterPay bs) := by
  have := h.1
  constructor <;> simp [afterPay_out, afterPay_asked, afterPay_sinkScript]
  · omega
  all_goals first | (split <;> simp_all) | simp_all

theorem sent_afterFolded (h : s.Takes bs.length) :
    Sent bs (if s.regs.measure then 0 else bs.length) s (s.afterFolded bs) := by
  have := (sent_afterOut h).trans
    (Sent.withRegs (s := s.afterOut bs)
      (r := { (s.afterOut bs).regs with crc := foldBytes s.regs.crc bs }) rfl rfl)
  simpa [State.afterFolded] using this

/-- The failed append: one more answer used, no byte. -/
theorem sent_sinkAsked (h : s.regs.measure = false) : Sent [] 1 s s.sinkAsked := by
  constructor <;> simp [h]

theorem sent_payStops (h : PayStops bs s f t) :
    ∃ xs n, Sent xs n s t ∧ (f = .chunkOverrun ∧ s.regs.cstate = .cOpen ∨ f = .countOverflow ∨ f = .sinkFail ∧ s.regs.measure = false) := by
  obtain ⟨xs, b, ys, rfl, hd, h⟩ := h
  have ht := (emitPay_needs hd).1
  rcases h with ⟨rfl, rfl, ho, -⟩ | ⟨rfl, rfl, -⟩ | ⟨rfl, rfl, hm, -⟩
  · exact ⟨_, _, sent_afterPay ht, .inl ⟨rfl, ho⟩⟩
  · exact ⟨_, _, sent_afterPay ht, .inr (.inl rfl)⟩
  · exact ⟨_, _, (sent_afterPay ht).trans (sent_sinkAsked (by simpa using hm)), .inr (.inr ⟨rfl, hm⟩)⟩

theorem sent_outStops (h : OutStops bs s f t) :
    ∃ xs n, Sent xs n s t ∧ (f = .countOverflow ∨ f = .sinkFail ∧ s.regs.measure = false) := by
  obtain ⟨xs, b, ys, rfl, ht, h⟩ := h
  rcases h with ⟨rfl, rfl, -⟩ | ⟨rfl, rfl, hm, -⟩
  · exact ⟨_, _, sent_afterOut ht, .inl rfl⟩
  · exact ⟨_, _, (sent_afterOut ht).trans (sent_sinkAsked (by simpa using hm)), .inr ⟨rfl, hm⟩⟩

theorem sent_foldedStops (h : FoldedStops bs s f t) :
    ∃ xs n, Sent xs n s t ∧ (f = .countOverflow ∨ f = .sinkFail ∧ s.regs.measure = false) := by
  obtain ⟨xs, b, ys, rfl, ht, h⟩ := h
  rcases h with ⟨rfl, rfl, -⟩ | ⟨rfl, rfl, hm, -⟩
  · exact ⟨_, _, sent_afterFolded ht, .inl rfl⟩
  · exact ⟨_, _, (sent_afterFolded ht).trans (sent_sinkAsked (by simpa [State.afterFolded] using hm)),
      .inr ⟨rfl, hm⟩⟩

/-- How a command other than `START`, `RDREG` and `WRREG` ends from a state that is not halted: it has sent bytes, and it answers `OK` with the fault record as it was, or takes a fault of its list (R236, R247). -/
def Ends (i : Instr) (s t : State) : Prop :=
  ∃ bs n u, Sent bs n s u ∧
    ((∃ d, t = u.respond statusOk d ∧ u.regs.fault = s.regs.fault
        ∧ (d ≠ 0#32 → i = .crcFinal ∨ i = .adlFinal))
      ∨ ∃ f, t = u.takeFault f ∧ f ∈ raisable i ∧ (f = .sinkFail → s.regs.measure = false)
        ∧ (f = .badState → u = s))

theorem Ends.ok {i : Instr} {n : Nat} (h : Sent bs n s u) (hf : u.regs.fault = s.regs.fault) :
    Ends i s (u.respond statusOk 0#32) := ⟨bs, n, u, h, .inl ⟨_, rfl, hf, by simp⟩⟩

theorem Ends.check {i : Instr} (h : f ∈ raisable i) (hne : f ≠ .sinkFail) : Ends i s (s.takeFault f) :=
  ⟨[], 0, s, .refl s, .inr ⟨f, rfl, h, fun e => absurd e hne, fun _ => rfl⟩⟩

theorem Ends.fault {i : Instr} {n : Nat} (h : Sent bs n s u) (hf : f ∈ raisable i)
    (hm : f = .sinkFail → s.regs.measure = false) (hb : f ≠ .badState) : Ends i s (u.takeFault f) :=
  ⟨bs, n, u, h, .inr ⟨f, rfl, hf, hm, fun e => absurd e hb⟩⟩

/-- The direct commands of the two checksum engines, from a state that is not halted (`40_crc32.md` R132 to R134, `41_adler32.md` R142 to R144). -/
theorem check_ends {i : Instr} {data : Word} {w : Regs → Regs} {c : Bool} (hl : s.regs.fault = 0#8)
    (hb : .badState ∈ raisable i) (hc : (w s.regs).count = s.regs.count)
    (hm : (w s.regs).measure = s.regs.measure) (hf : (w s.regs).fault = s.regs.fault)
    (hd : data ≠ 0#32 → i = .crcFinal ∨ i = .adlFinal) :
    Ends i s (runCommand data (fun t => (require c .badState t).andThen fun u => .done (u.withRegs (w u.regs))) s) := by
  rw [runCommand_live hl]
  unfold require
  split
  · exact ⟨[], 0, _, Sent.withRegs hc hm, .inl ⟨data, rfl, hf, hd⟩⟩
  · exact Ends.check hb (by decide)

theorem sent_bytes {k : Nat} (hb : bs.length = k) (h : s.Takes k) : ∃ n, Sent bs n s (s.afterOut bs) := by
  subst hb; exact ⟨_, sent_afterOut h⟩

/-- Every command but `START`, `RDREG` and `WRREG` ends as `Ends` says. -/
theorem exec_ends {i : Instr} (hl : s.regs.fault = 0#8) (h : exec i s = .next t)
    (hi : bypassesHalt i = false) (hw : ∀ v, i ≠ .wrregCtrl v ∧ i ≠ .wrregTag v ∧ i ≠ .wrregCount v) :
    Ends i s t := by
  cases hwb : writerBytes i with
  | some bs =>
    have hbad : FaultCode.badState ∈ raisable i := by cases i <;> simp_all [writerBytes, raisable]
    have hmore : bs ≠ [] → FaultCode.chunkOverrun ∈ raisable i ∧ FaultCode.sinkFail ∈ raisable i
        ∧ FaultCode.countOverflow ∈ raisable i := by
      cases i <;> simp_all [writerBytes, raisable]
    rcases writer_cases hwb hl h with ⟨-, rfl⟩ | ⟨-, ⟨he, rfl⟩ | ⟨f, u, hs, rfl⟩⟩
    · exact Ends.check hbad (by decide)
    · exact Ends.ok (sent_afterPay (emitPay_needs he).1) (by simp)
    · have hne : bs ≠ [] := by obtain ⟨xs, b, ys, rfl, -⟩ := hs; simp
      obtain ⟨h1, h2, h3⟩ := hmore hne
      obtain ⟨xs, n, hx, hf⟩ := sent_payStops hs
      rcases hf with ⟨rfl, -⟩ | rfl | ⟨rfl, hm⟩
      · exact Ends.fault hx h1 (by simp) (by simp)
      · exact Ends.fault hx h3 (by simp) (by simp)
      · exact Ends.fault hx h2 (fun _ => hm) (by simp)
  | none =>
    cases i with
    | start | rdregStatus | rdregCtrl | rdregTag | rdregCount | rdregCrc | rdregAdler | rdregClen
    | rdregCcnt | rdregZrem | rdregZblk => cases hi
    | wrregCtrl v => exact absurd rfl (hw v).1
    | wrregTag v => exact absurd rfl (hw v).2.1
    | wrregCount v => exact absurd rfl (hw v).2.2
    | writeBe0 _ | writeBe1 _ | writeBe2 _ | writeBe3 _ | writeBe4 _ | writeLe0 _ | writeLe1 _
    | writeLe2 _ | writeLe3 _ | writeLe4 _ => cases hwb
    | crcInit =>
      cases h
      exact check_ends (w := fun r => { r with crc := crcOnes }) hl (by decide) rfl rfl rfl (by simp)
    | crcUpdate b =>
      cases h
      exact check_ends (w := fun r => { r with crc := fold r.crc b }) hl (by simp [raisable]) rfl rfl rfl (by simp)
    | crcFinal =>
      have h' : t = runCommand (s.regs.crc ^^^ crcOnes) requireNoChunk s := by cases h; rfl
      rw [h', runCommand_live hl]
      unfold requireNoChunk require
      split
      · exact ⟨[], 0, s, .refl s, .inl ⟨_, rfl, rfl, by simp⟩⟩
      · exact Ends.check (by simp [raisable]) (by decide)
    | adlInit =>
      cases h
      exact check_ends (w := adlerInit) hl (by decide) rfl rfl rfl (by simp)
    | adlUpdate b =>
      cases h
      exact check_ends (w := adlerStep b) hl (by simp [raisable]) rfl rfl rfl (by simp)
    | adlFinal =>
      have h' : t = runCommand s.regs.adler requireNoStream s := by cases h; rfl
      rw [h', runCommand_live hl]
      unfold requireNoStream require
      split
      · exact ⟨[], 0, s, .refl s, .inl ⟨_, rfl, rfl, by simp⟩⟩
      · exact Ends.check (by simp [raisable]) (by decide)
    | chunkBegin len =>
      have hd : Sent [] 0 s (declareLength len s) := Sent.withRegs rfl rfl
      rcases chunkBegin_cases hl h with ⟨-, rfl⟩ | ⟨-, ⟨-, rfl⟩ | ⟨-, ⟨-, rfl⟩ | ⟨-, ⟨f, u, hs, rfl⟩ |
        ⟨ht, ⟨f, u, hs, rfl⟩ | ⟨ht2, rfl⟩⟩⟩⟩⟩
      · exact Ends.check (by simp [raisable]) (by decide)
      · exact Ends.check (by simp [raisable]) (by decide)
      · exact Ends.check (by simp [raisable]) (by decide)
      · obtain ⟨xs, n, hx, hf⟩ := sent_outStops hs
        rcases hf with rfl | ⟨rfl, hm⟩
        · exact Ends.fault (hd.trans hx) (by simp [raisable]) (by simp) (by simp)
        · exact Ends.fault (hd.trans hx) (by simp [raisable]) (fun _ => hm) (by simp)
      · obtain ⟨n1, h1⟩ := sent_bytes (beBytes_length len 4) ht
        have h1 := (hd.trans h1).trans (Sent.withRegs (r := (startCrc _).regs) rfl rfl)
        obtain ⟨xs, n, hx, hf⟩ := sent_foldedStops hs
        rcases hf with rfl | ⟨rfl, hm⟩
        · exact Ends.fault (h1.trans hx) (by simp [raisable]) (by simp) (by simp)
        · exact Ends.fault (h1.trans hx) (by simp [raisable])
            (fun _ => by simpa [startCrc, declareLength] using hm) (by simp)
      · obtain ⟨n1, h1⟩ := sent_bytes (beBytes_length len 4) ht
        have h1 := (hd.trans h1).trans (Sent.withRegs (r := (startCrc _).regs) rfl rfl)
        have ht2' : (startCrc ((declareLength len s).afterOut (beBytes len 4))).Takes
            (beBytes s.regs.tag 4).length := by simpa [beBytes_length] using ht2
        have h2 := (h1.trans (sent_afterFolded ht2')).trans (Sent.withRegs (r := (openChunk
          ((startCrc ((declareLength len s).afterOut (beBytes len 4))).afterFolded
            (beBytes s.regs.tag 4))).regs) rfl rfl)
        exact Ends.ok h2 (by simp [openChunk, State.afterFolded, startCrc, declareLength])
    | chunkEnd =>
      rcases chunkEnd_cases hl h with ⟨-, rfl⟩ | ⟨-, ⟨-, rfl⟩ | ⟨-, ⟨f, u, hs, rfl⟩ | ⟨ht, rfl⟩⟩⟩
      · exact Ends.check (by simp [raisable]) (by decide)
      · exact Ends.check (by simp [raisable]) (by decide)
      · obtain ⟨xs, n, hx, hf⟩ := sent_outStops hs
        rcases hf with rfl | ⟨rfl, hm⟩
        · exact Ends.fault hx (by simp [raisable]) (by simp) (by simp)
        · exact Ends.fault hx (by simp [raisable]) (fun _ => hm) (by simp)
      · obtain ⟨n1, h1⟩ := sent_bytes (beBytes_length (s.regs.crc ^^^ crcOnes) 4) ht
        exact Ends.ok (h1.trans (Sent.withRegs (r := (closeChunk _).regs) rfl rfl)) (by simp [closeChunk])
    | zBegin total =>
      have hd : Sent [] 0 s (openStream total s) := Sent.withRegs rfl rfl
      rcases zBegin_cases hl h with ⟨-, rfl⟩ | ⟨-, ⟨f, u, hs, rfl⟩ | ⟨he, rfl⟩⟩
      · exact Ends.check (by simp [raisable]) (by decide)
      · obtain ⟨xs, n, hx, hf⟩ := sent_payStops hs
        rcases hf with ⟨rfl, -⟩ | rfl | ⟨rfl, hm⟩
        · exact Ends.fault (hd.trans hx) (by simp [raisable]) (by simp) (by simp)
        · exact Ends.fault (hd.trans hx) (by simp [raisable]) (by simp) (by simp)
        · exact Ends.fault (hd.trans hx) (by simp [raisable]) (fun _ => hm) (by simp)
      · have h1 := (hd.trans (sent_afterPay (emitPay_needs he).1)).trans
          (Sent.withRegs (r := (setBlock (blockLength total s.params.zblockCap) _).regs) rfl rfl)
        exact Ends.ok h1 (by simp [setBlock, openStream, adlerInit])
    | zData b =>
      rcases zData_cases hl h with ⟨-, rfl⟩ | ⟨-, ⟨-, rfl⟩ | ⟨-, ⟨f, u, hs, rfl⟩ | ⟨he, ⟨-, rfl⟩ |
        ⟨-, ⟨f, u, hs, rfl⟩ | ⟨he2, rfl⟩⟩⟩⟩⟩
      · exact Ends.check (by simp [raisable]) (by decide)
      · exact Ends.check (by simp [raisable]) (by decide)
      · obtain ⟨xs, n, hx, hf⟩ := sent_payStops hs
        rcases hf with ⟨rfl, -⟩ | rfl | ⟨rfl, hm⟩
        · exact Ends.fault hx (by simp [raisable]) (by simp) (by simp)
        · exact Ends.fault hx (by simp [raisable]) (by simp) (by simp)
        · exact Ends.fault hx (by simp [raisable]) (fun _ => hm) (by simp)
      all_goals
        have h1 := (sent_afterPay (emitPay_needs he).1).trans
          (Sent.withRegs (r := (tookData b (s.afterPay [b])).regs) rfl rfl)
        have h1 : Sent _ _ s (tookData b (s.afterPay [b])) := h1
      · exact Ends.ok h1 (by simp [tookData, adlerStep])
      · obtain ⟨xs, n, hx, hf⟩ := sent_payStops hs
        rcases hf with ⟨rfl, -⟩ | rfl | ⟨rfl, hm⟩
        · exact Ends.fault (h1.trans hx) (by simp [raisable]) (by simp) (by simp)
        · exact Ends.fault (h1.trans hx) (by simp [raisable]) (by simp) (by simp)
        · exact Ends.fault (h1.trans hx) (by simp [raisable])
            (fun _ => by rw [← h1.measure]; exact hm) (by simp)
      · have h2 := (h1.trans (sent_afterPay (emitPay_needs he2).1)).trans
          (Sent.withRegs (r := (setBlock (blockLength (tookData b (s.afterPay [b])).regs.zrem
            s.params.zblockCap) _).regs) rfl rfl)
        exact Ends.ok h2 (by simp [setBlock, tookData, adlerStep])
    | zEnd =>
      rcases zEnd_cases hl h with ⟨-, rfl⟩ | ⟨-, ⟨-, rfl⟩ | ⟨-, ⟨f, u, hs, rfl⟩ | ⟨he, rfl⟩⟩⟩
      · exact Ends.check (by simp [raisable]) (by decide)
      · exact Ends.check (by simp [raisable]) (by decide)
      · obtain ⟨xs, n, hx, hf⟩ := sent_payStops hs
        rcases hf with ⟨rfl, -⟩ | rfl | ⟨rfl, hm⟩
        · exact Ends.fault hx (by simp [raisable]) (by simp) (by simp)
        · exact Ends.fault hx (by simp [raisable]) (by simp) (by simp)
        · exact Ends.fault hx (by simp [raisable]) (fun _ => hm) (by simp)
      · have h1 := (sent_afterPay (emitPay_needs he).1).trans
          (Sent.withRegs (r := (closeStream (s.afterPay (beBytes s.regs.adler 4))).regs) rfl rfl)
        exact Ends.ok h1 (by simp [closeStream])

/-! ## The halted state -/

/-- A halted block refuses every command but `START` and `RDREG` (`60_exceptions.md` R240). -/
theorem exec_halted {i : Instr} (hl : s.regs.fault ≠ 0#8) (hi : bypassesHalt i = false) :
    exec i s = .next (s.respond statusHalted 0#32) := by
  cases i <;>
    first
    | exact congrArg Host.Outcome.next (runCommand_halted hl)
    | exact absurd hi (by simp [bypassesHalt])

/-- No command but `START` ends the halted state. -/
theorem halted_stays {i : Instr} (h : exec i s = .next t) (hi : i ≠ .start) (hl : s.regs.fault ≠ 0#8) :
    t.regs.fault = s.regs.fault := by
  by_cases hb : bypassesHalt i = true
  · cases i <;> simp [bypassesHalt] at hb <;> cases h <;> simp_all [readRegister]
  · rw [exec_halted hl (by simpa using hb)] at h
    cases h; rfl

/-- Nor does a sequence of them. -/
theorem halted_stays_all {is : List Instr} (h : execAll is s = some t) (hi : ∀ i ∈ is, i ≠ .start)
    (hl : s.regs.fault ≠ 0#8) : t.regs.fault = s.regs.fault := by
  induction is generalizing s with
  | nil => cases h; rfl
  | cons i is ih =>
    obtain ⟨u, hu⟩ := exec_next i s
    rw [execAll, hu] at h
    have hf := halted_stays hu (hi i (by simp)) hl
    rw [ih h (fun j hj => hi j (by simp [hj])) (by rw [hf]; exact hl), hf]

theorem execAll_append (xs ys : List Instr) (s : State) :
    execAll (xs ++ ys) s = (execAll xs s).bind (execAll ys) := by
  induction xs generalizing s with
  | nil => rfl
  | cons i xs ih =>
    obtain ⟨u, hu⟩ := exec_next i s
    simp only [List.cons_append, execAll, hu]
    exact ih u

end Sys2Proof.Machine
end

