-- ==== Sys2Proof/Tests/Slice0.lean ====
section
/-! SUPPORT. The model's own tests. Every expected value is the spec's: the encodings of `30_encoding.md` R104 and `95_test_vectors.md` section 2.7, the printed table of `40_crc32.md` R130, the worked examples of the rules and the vectors of `95_test_vectors.md`; the vector's name stands before each test. The witnesses at the end meet the hypotheses of the statements. -/

namespace Sys2Proof.Tests

open Sys2Proof Sys2Proof.Machine

-- Each test is checked before the next begins, so that few threads run at once.
set_option Elab.async false

/-! ## Helpers -/

/-- Registers after reset (R270). -/
abbrev r0 : Regs := Regs.reset

/-- A state with the given registers and a sink that accepts the next sixteen bytes. -/
def at_ (r : Regs) : State := { State.reset with regs := r, sinkScript := List.replicate 16 .ok }

/-- A state with the given registers and the given sink. -/
def sinking (answers : List SinkAnswer) (r : Regs) : State :=
  { State.reset with regs := r, sinkScript := answers }

/-- The block with `ZBLOCK_CAP = 4`. -/
def cap4 (r : Regs) : State :=
  { at_ r with params := { Params.hardware with zblockCap := 4#16 } }

/-- What is looked at after one step that answers a next state. -/
def seen {α : Type} (f : State → α) : Host.Outcome State Fault Refusal → Option α
  | .next t => some (f t)
  | .fault _ => none
  | .refused _ => none

/-- The last response as numbers. -/
def said (t : State) : Option (Byte × Word) := t.responses.getLast?.map fun r => (r.status, r.data)

/-- Registers with a chunk open: `CHUNK_BEGIN L` of an `IHDR` chunk, nothing paid (V-CRC-6). -/
def chunkRegs (len : Word) : Regs :=
  { r0 with cstate := .cOpen, clen := len, tag := tagIHDR, crc := 0x575E51F5#32, count := 8#32 }

/-- Registers with a raw zlib stream open. -/
def streamRegs (rem : Word) (blk : Half) : Regs :=
  { r0 with zstate := .zOpen, zrem := rem, zblk := blk, count := 7#32 }

/-! ## WellFormed refuses the ill-formed (`30_encoding.md` R105 item 4) -/

theorem test_wellFormed_ctrl_reserved_bit : (Instr.wrregCtrl 2#32).wellFormed = false := by decide
theorem test_wellFormed_ctrl_top_bit : (Instr.wrregCtrl 0x80000001#32).wellFormed = false := by decide
theorem test_wellFormed_ctrl_both_values :
    (Instr.wrregCtrl 0#32).wellFormed = true ∧ (Instr.wrregCtrl 1#32).wellFormed = true := by decide

/-! ## Decoding: a word for every constructor, written out from R100, R104 -/

theorem test_decode_system :
    decode 0x0100000000#40 = .command (.start)
      ∧ decode 0x1100000001#40 = .command (.wrregCtrl 1#32)
      ∧ decode 0x1249484452#40 = .command (.wrregTag 0x49484452#32)
      ∧ decode 0x13FFFFFFFF#40 = .command (.wrregCount 0xFFFFFFFF#32) := by decide

theorem test_decode_registers :
    decode 0x2000000000#40 = .command (.rdregStatus)
      ∧ decode 0x2100000000#40 = .command (.rdregCtrl)
      ∧ decode 0x2200000000#40 = .command (.rdregTag)
      ∧ decode 0x2300000000#40 = .command (.rdregCount)
      ∧ decode 0x2400000000#40 = .command (.rdregCrc)
      ∧ decode 0x2500000000#40 = .command (.rdregAdler)
      ∧ decode 0x2600000000#40 = .command (.rdregClen)
      ∧ decode 0x2700000000#40 = .command (.rdregCcnt)
      ∧ decode 0x2800000000#40 = .command (.rdregZrem)
      ∧ decode 0x2900000000#40 = .command (.rdregZblk) := by decide

theorem test_decode_checksums :
    decode 0x3000000000#40 = .command (.crcInit)
      ∧ decode 0x31000000FF#40 = .command (.crcUpdate 0xFF#8)
      ∧ decode 0x3200000000#40 = .command (.crcFinal)
      ∧ decode 0x4000000000#40 = .command (.adlInit)
      ∧ decode 0x4100000061#40 = .command (.adlUpdate 0x61#8)
      ∧ decode 0x4200000000#40 = .command (.adlFinal) := by decide

theorem test_decode_write_be :
    decode 0x50FFFFFFFF#40 = .command (.writeBe0 0xFFFFFFFF#32)
      ∧ decode 0x5111223344#40 = .command (.writeBe1 0x11223344#32)
      ∧ decode 0x520000ABCD#40 = .command (.writeBe2 0x0000ABCD#32)
      ∧ decode 0x53AABBCCDD#40 = .command (.writeBe3 0xAABBCCDD#32)
      ∧ decode 0x5489504E47#40 = .command (.writeBe4 0x89504E47#32) := by decide

theorem test_decode_write_le :
    decode 0x6012345678#40 = .command (.writeLe0 0x12345678#32)
      ∧ decode 0x61000001FF#40 = .command (.writeLe1 0x000001FF#32)
      ∧ decode 0x6200000012#40 = .command (.writeLe2 0x00000012#32)
      ∧ decode 0x63AABBCCDD#40 = .command (.writeLe3 0xAABBCCDD#32)
      ∧ decode 0x6411223344#40 = .command (.writeLe4 0x11223344#32) := by decide

theorem test_decode_framer_and_wrapper :
    decode 0x70FFFFFFFF#40 = .command (.chunkBegin 0xFFFFFFFF#32)
      ∧ decode 0x7100000000#40 = .command (.chunkEnd)
      ∧ decode 0x8000000003#40 = .command (.zBegin 3#32)
      ∧ decode 0x8100000061#40 = .command (.zData 0x61#8)
      ∧ decode 0x8200000000#40 = .command (.zEnd) := by decide

/-- The illegal words of section 2.7 and V-SY-8. -/
theorem test_decode_illegal :
    decode 0x1100000002#40 = .illegal .ctrlReserved
      ∧ decode 0x2400000001#40 = .illegal .immNotZero ∧ decode 0x3000000001#40 = .illegal .immNotZero
      ∧ decode 0x7100000001#40 = .illegal .immNotZero ∧ decode 0x0100000001#40 = .illegal .immNotZero
      ∧ decode 0x3100000100#40 = .illegal .byteTooWide ∧ decode 0x8100000100#40 = .illegal .byteTooWide
      ∧ [0x1000000000#40, 0x1400000000#40, 0x2A00000000#40, 0x3300000000#40, 0x4300000000#40,
          0x5500000000#40, 0x6F00000000#40, 0x7200000000#40, 0x8300000000#40, 0x9000000000#40,
          0xFFFFFFFFFF#40, 0x0000000000#40].all (fun w => decide (decode w = .illegal .opcode)) := by
  decide

/-- A table row with no bits for its operand (`nbits` 40, operand 0), and a word too long for the interface. -/
theorem test_decodeTableWord :
    decodeTableWord 40 0x5400000000 = some (.writeBe4 0#32) ∧ decodeTableWord 48 0x5400000000 = none := by
  decide

/-! ## The table of `40_crc32.md` R130, as printed -/

/-- `T[0x00]` to `T[0x3F]`. -/
theorem test_crcTable_0 : (List.range 64).map (fun n => crcTable (BitVec.ofNat 8 (0 + n))) =
    [0x00000000#32, 0x77073096#32, 0xEE0E612C#32, 0x990951BA#32, 0x076DC419#32, 0x706AF48F#32, 0xE963A535#32, 0x9E6495A3#32,
      0x0EDB8832#32, 0x79DCB8A4#32, 0xE0D5E91E#32, 0x97D2D988#32, 0x09B64C2B#32, 0x7EB17CBD#32, 0xE7B82D07#32, 0x90BF1D91#32] ++
    [0x1DB71064#32, 0x6AB020F2#32, 0xF3B97148#32, 0x84BE41DE#32, 0x1ADAD47D#32, 0x6DDDE4EB#32, 0xF4D4B551#32, 0x83D385C7#32,
      0x136C9856#32, 0x646BA8C0#32, 0xFD62F97A#32, 0x8A65C9EC#32, 0x14015C4F#32, 0x63066CD9#32, 0xFA0F3D63#32, 0x8D080DF5#32] ++
    [0x3B6E20C8#32, 0x4C69105E#32, 0xD56041E4#32, 0xA2677172#32, 0x3C03E4D1#32, 0x4B04D447#32, 0xD20D85FD#32, 0xA50AB56B#32,
      0x35B5A8FA#32, 0x42B2986C#32, 0xDBBBC9D6#32, 0xACBCF940#32, 0x32D86CE3#32, 0x45DF5C75#32, 0xDCD60DCF#32, 0xABD13D59#32] ++
    [0x26D930AC#32, 0x51DE003A#32, 0xC8D75180#32, 0xBFD06116#32, 0x21B4F4B5#32, 0x56B3C423#32, 0xCFBA9599#32, 0xB8BDA50F#32,
      0x2802B89E#32, 0x5F058808#32, 0xC60CD9B2#32, 0xB10BE924#32, 0x2F6F7C87#32, 0x58684C11#32, 0xC1611DAB#32, 0xB6662D3D#32] := by decide +kernel

/-- `T[0x40]` to `T[0x7F]`. -/
theorem test_crcTable_1 : (List.range 64).map (fun n => crcTable (BitVec.ofNat 8 (64 + n))) =
    [0x76DC4190#32, 0x01DB7106#32, 0x98D220BC#32, 0xEFD5102A#32, 0x71B18589#32, 0x06B6B51F#32, 0x9FBFE4A5#32, 0xE8B8D433#32,
      0x7807C9A2#32, 0x0F00F934#32, 0x9609A88E#32, 0xE10E9818#32, 0x7F6A0DBB#32, 0x086D3D2D#32, 0x91646C97#32, 0xE6635C01#32] ++
    [0x6B6B51F4#32, 0x1C6C6162#32, 0x856530D8#32, 0xF262004E#32, 0x6C0695ED#32, 0x1B01A57B#32, 0x8208F4C1#32, 0xF50FC457#32,
      0x65B0D9C6#32, 0x12B7E950#32, 0x8BBEB8EA#32, 0xFCB9887C#32, 0x62DD1DDF#32, 0x15DA2D49#32, 0x8CD37CF3#32, 0xFBD44C65#32] ++
    [0x4DB26158#32, 0x3AB551CE#32, 0xA3BC0074#32, 0xD4BB30E2#32, 0x4ADFA541#32, 0x3DD895D7#32, 0xA4D1C46D#32, 0xD3D6F4FB#32,
      0x4369E96A#32, 0x346ED9FC#32, 0xAD678846#32, 0xDA60B8D0#32, 0x44042D73#32, 0x33031DE5#32, 0xAA0A4C5F#32, 0xDD0D7CC9#32] ++
    [0x5005713C#32, 0x270241AA#32, 0xBE0B1010#32, 0xC90C2086#32, 0x5768B525#32, 0x206F85B3#32, 0xB966D409#32, 0xCE61E49F#32,
      0x5EDEF90E#32, 0x29D9C998#32, 0xB0D09822#32, 0xC7D7A8B4#32, 0x59B33D17#32, 0x2EB40D81#32, 0xB7BD5C3B#32, 0xC0BA6CAD#32] := by decide +kernel

/-- `T[0x80]` to `T[0xBF]`. -/
theorem test_crcTable_2 : (List.range 64).map (fun n => crcTable (BitVec.ofNat 8 (128 + n))) =
    [0xEDB88320#32, 0x9ABFB3B6#32, 0x03B6E20C#32, 0x74B1D29A#32, 0xEAD54739#32, 0x9DD277AF#32, 0x04DB2615#32, 0x73DC1683#32,
      0xE3630B12#32, 0x94643B84#32, 0x0D6D6A3E#32, 0x7A6A5AA8#32, 0xE40ECF0B#32, 0x9309FF9D#32, 0x0A00AE27#32, 0x7D079EB1#32] ++
    [0xF00F9344#32, 0x8708A3D2#32, 0x1E01F268#32, 0x6906C2FE#32, 0xF762575D#32, 0x806567CB#32, 0x196C3671#32, 0x6E6B06E7#32,
      0xFED41B76#32, 0x89D32BE0#32, 0x10DA7A5A#32, 0x67DD4ACC#32, 0xF9B9DF6F#32, 0x8EBEEFF9#32, 0x17B7BE43#32, 0x60B08ED5#32] ++
    [0xD6D6A3E8#32, 0xA1D1937E#32, 0x38D8C2C4#32, 0x4FDFF252#32, 0xD1BB67F1#32, 0xA6BC5767#32, 0x3FB506DD#32, 0x48B2364B#32,
      0xD80D2BDA#32, 0xAF0A1B4C#32, 0x36034AF6#32, 0x41047A60#32, 0xDF60EFC3#32, 0xA867DF55#32, 0x316E8EEF#32, 0x4669BE79#32] ++
    [0xCB61B38C#32, 0xBC66831A#32, 0x256FD2A0#32, 0x5268E236#32, 0xCC0C7795#32, 0xBB0B4703#32, 0x220216B9#32, 0x5505262F#32,
      0xC5BA3BBE#32, 0xB2BD0B28#32, 0x2BB45A92#32, 0x5CB36A04#32, 0xC2D7FFA7#32, 0xB5D0CF31#32, 0x2CD99E8B#32, 0x5BDEAE1D#32] := by decide +kernel

/-- `T[0xC0]` to `T[0xFF]`. -/
theorem test_crcTable_3 : (List.range 64).map (fun n => crcTable (BitVec.ofNat 8 (192 + n))) =
    [0x9B64C2B0#32, 0xEC63F226#32, 0x756AA39C#32, 0x026D930A#32, 0x9C0906A9#32, 0xEB0E363F#32, 0x72076785#32, 0x05005713#32,
      0x95BF4A82#32, 0xE2B87A14#32, 0x7BB12BAE#32, 0x0CB61B38#32, 0x92D28E9B#32, 0xE5D5BE0D#32, 0x7CDCEFB7#32, 0x0BDBDF21#32] ++
    [0x86D3D2D4#32, 0xF1D4E242#32, 0x68DDB3F8#32, 0x1FDA836E#32, 0x81BE16CD#32, 0xF6B9265B#32, 0x6FB077E1#32, 0x18B74777#32,
      0x88085AE6#32, 0xFF0F6A70#32, 0x66063BCA#32, 0x11010B5C#32, 0x8F659EFF#32, 0xF862AE69#32, 0x616BFFD3#32, 0x166CCF45#32] ++
    [0xA00AE278#32, 0xD70DD2EE#32, 0x4E048354#32, 0x3903B3C2#32, 0xA7672661#32, 0xD06016F7#32, 0x4969474D#32, 0x3E6E77DB#32,
      0xAED16A4A#32, 0xD9D65ADC#32, 0x40DF0B66#32, 0x37D83BF0#32, 0xA9BCAE53#32, 0xDEBB9EC5#32, 0x47B2CF7F#32, 0x30B5FFE9#32] ++
    [0xBDBDF21C#32, 0xCABAC28A#32, 0x53B39330#32, 0x24B4A3A6#32, 0xBAD03605#32, 0xCDD70693#32, 0x54DE5729#32, 0x23D967BF#32,
      0xB3667A2E#32, 0xC4614AB8#32, 0x5D681B02#32, 0x2A6F2B94#32, 0xB40BBE37#32, 0xC30C8EA1#32, 0x5A05DF1B#32, 0x2D02EF8D#32] := by decide +kernel

/-! ## Whole-sequence functions (`95_test_vectors.md` 2.1, 2.2, 2.5) -/

/-- "abc", and V-CRC-9. -/
theorem test_crc32 : crc32 [0x61#8, 0x62#8, 0x63#8] = 0x352441C2#32
    ∧ crc32 [0x49#8, 0x48#8, 0x44#8, 0x52#8, 0xAB#8, 0xCD#8] = 0x227E0714#32 := by decide +kernel

/-- "Wikipedia". -/
theorem test_adler32 :
    adler32 [0x57#8, 0x69#8, 0x6B#8, 0x69#8, 0x70#8, 0x65#8, 0x64#8, 0x69#8, 0x61#8] = 0x11E60398#32 := by
  decide +kernel

/-- V-Z-11: two full blocks, the second final, no empty third. -/
theorem test_zlibStream : zlibStream { Params.hardware with zblockCap := 4#16 }
    [0x10#8, 0x11#8, 0x12#8, 0x13#8, 0x14#8, 0x15#8, 0x16#8, 0x17#8] =
    [0x78#8, 0x01#8, 0x00#8, 0x04#8, 0x00#8, 0xFB#8, 0xFF#8, 0x10#8, 0x11#8, 0x12#8, 0x13#8, 0x01#8,
      0x04#8, 0x00#8, 0xFB#8, 0xFF#8, 0x14#8, 0x15#8, 0x16#8, 0x17#8, 0x02#8, 0x9C#8, 0x00#8, 0x9D#8] := by
  decide +kernel

/-- R182's values. -/
theorem test_zLen : zLen 65535 0 = 11 ∧ zLen 65535 65535 = 65546 ∧ zLen 65535 65536 = 65552
    ∧ zLen 65535 2147319810 = 2147483646 ∧ zLen 65535 4294967295 = 4295294986 := by decide

/-! ## One step of each command -/

/-- R195, R270: `START` clears a halted block in mid-stream. -/
theorem test_start : seen (fun t => (t.regs, said t)) (exec (.start) (at_ { streamRegs 5#32 5#16 with cstate := .cOpen, clen := 13#32, ccnt := 7#32, cseq := 2#2, s1 := 7#16, s2 := 9#16, tag := tagIDAT, measure := true, crc := 1#32, fault := 0x02#8 })) =
    some (({ crc := 0xFFFFFFFF#32, s1 := 1#16, s2 := 0#16, cstate := .cIdle, zstate := .zIdle, cseq := 0#2, clen := 0#32, ccnt := 0#32, zrem := 0#32, zblk := 0#16, tag := 0#32, measure := false, count := 0#32, fault := 0#8 } : Regs), some (0#8, 0#32)) := by decide +kernel

/-- V-SY-2. -/
theorem test_wrregCtrl : seen (fun t => (t.regs.measure, said t)) (exec (.wrregCtrl 1#32) (at_ r0)) =
    some (true, some (0#8, 0#32)) := by decide +kernel

/-- V-SY-3. -/
theorem test_wrregTag : seen (fun t => (t.regs.tag, said t)) (exec (.wrregTag 0x49484452#32) (at_ r0)) =
    some (0x49484452#32, some (0#8, 0#32)) := by decide +kernel

/-- V-CH-11: refused with a chunk open, `TAG` stays. -/
theorem test_wrregTag_badState : seen (fun t => (t.regs.tag, said t)) (exec (.wrregTag 0x49444154#32) (at_ (chunkRegs 0#32))) =
    some (0x49484452#32, some (0x02#8, 0#32)) := by decide +kernel

/-- V-SY-4. -/
theorem test_wrregCount : seen (fun t => (t.regs.count, said t)) (exec (.wrregCount 0xFFFFFFFE#32) (at_ r0)) =
    some (0xFFFFFFFE#32, some (0#8, 0#32)) := by decide +kernel

/-- V-SY-1: the ten registers after reset. -/
theorem test_rdreg_reset :
    [Instr.rdregStatus, .rdregCtrl, .rdregTag, .rdregCount, .rdregCrc, .rdregAdler, .rdregClen, .rdregCcnt,
        .rdregZrem, .rdregZblk].map (fun i => seen said (exec i (at_ r0))) =
      [0#32, 0#32, 0#32, 0#32, 0xFFFFFFFF#32, 1#32, 0#32, 0#32, 0#32, 0#32].map
        (fun d => some (some (0#8, d))) := by decide +kernel

/-- Ten different values, each under its number (R196); `STATUS` is V-CH-12's `0x302` with `CSEQ = 1`. -/
theorem test_rdreg_each :
    [Instr.rdregStatus, .rdregCtrl, .rdregTag, .rdregCount, .rdregCrc, .rdregAdler, .rdregClen, .rdregCcnt,
        .rdregZrem, .rdregZblk].map (fun i => seen said (exec i (at_
          { crc := 0x174841BC#32, s1 := 0x0127#16, s2 := 0x024D#16, cstate := .cOpen, zstate := .zOpen,
            cseq := 1#2, clen := 16#32, ccnt := 12#32, zrem := 70000#32, zblk := 0xFFFE#16,
            tag := 0x49444154#32, measure := true, count := 45#32, fault := 0x02#8 }))) =
      [0x702#32, 1#32, 0x49444154#32, 45#32, 0x174841BC#32, 0x024D0127#32, 16#32, 12#32, 70000#32,
        0xFFFE#32].map (fun d => some (some (0#8, d))) := by decide +kernel

/-- R132. -/
theorem test_crcInit : seen (fun t => (t.regs.crc, said t)) (exec (.crcInit) (at_ { r0 with crc := 0x174841BC#32 })) =
    some (0xFFFFFFFF#32, some (0#8, 0#32)) := by decide +kernel

/-- R133. -/
theorem test_crcUpdate : seen (fun t => (t.regs.crc, said t)) (exec (.crcUpdate 0x61#8) (at_ r0)) =
    some (0x174841BC#32, some (0#8, 0#32)) := by decide +kernel

/-- V-CRC-6: refused with a chunk open. -/
theorem test_crcUpdate_badState : seen (fun t => (t.regs.crc, said t)) (exec (.crcUpdate 0x61#8) (at_ (chunkRegs 0#32))) =
    some (0x575E51F5#32, some (0x02#8, 0#32)) := by decide +kernel

/-- R134: the accumulator is left. -/
theorem test_crcFinal : seen (fun t => (t.regs.crc, said t)) (exec (.crcFinal) (at_ { r0 with crc := 0x174841BC#32 })) =
    some (0x174841BC#32, some (0#8, 0xE8B7BE43#32)) := by decide +kernel

/-- R142. -/
theorem test_adlInit : seen (fun t => (t.regs.s1, t.regs.s2)) (exec (.adlInit) (at_ { r0 with s1 := 98#16, s2 := 98#16 })) =
    some (1#16, 0#16) := by decide +kernel

/-- R141, both sums wrap. -/
theorem test_adlUpdate : seen (fun t => (t.regs.s1, t.regs.s2)) (exec (.adlUpdate 0xFF#8) (at_ { r0 with s1 := 65520#16, s2 := 65520#16 })) =
    some (254#16, 253#16) := by decide +kernel

/-- R144. -/
theorem test_adlFinal : seen (fun t => (t.regs.s1, said t)) (exec (.adlFinal) (at_ { r0 with s1 := 0x0062#16, s2 := 0x0062#16 })) =
    some (0x0062#16, some (0#8, 0x00620062#32)) := by decide +kernel

/-- V-ADL-4: refused with a zlib stream open. -/
theorem test_adlFinal_badState : seen (fun t => said t) (exec (.adlFinal) (at_ (streamRegs 1#32 1#16))) =
    some (some (0x02#8, 0#32)) := by decide +kernel

/-- V-WR-1. -/
theorem test_writeBe4 : seen (fun t => (t.out, t.regs.count, t.regs.crc, said t)) (exec (.writeBe4 0x11223344#32) (at_ r0)) =
    some ([0x11#8, 0x22#8, 0x33#8, 0x44#8], 4#32, 0xFFFFFFFF#32, some (0#8, 0#32)) := by decide +kernel

/-- V-WR-1. -/
theorem test_writeLe4 : seen (fun t => (t.out, t.regs.count, t.regs.crc, said t)) (exec (.writeLe4 0x11223344#32) (at_ r0)) =
    some ([0x44#8, 0x33#8, 0x22#8, 0x11#8], 4#32, 0xFFFFFFFF#32, some (0#8, 0#32)) := by decide +kernel

/-- V-WR-1. -/
theorem test_writeBe2 : seen (fun t => (t.out, t.regs.count, t.regs.crc, said t)) (exec (.writeBe2 0x11223344#32) (at_ r0)) =
    some ([0x33#8, 0x44#8], 2#32, 0xFFFFFFFF#32, some (0#8, 0#32)) := by decide +kernel

/-- V-WR-1. -/
theorem test_writeLe2 : seen (fun t => (t.out, t.regs.count, t.regs.crc, said t)) (exec (.writeLe2 0x11223344#32) (at_ r0)) =
    some ([0x44#8, 0x33#8], 2#32, 0xFFFFFFFF#32, some (0#8, 0#32)) := by decide +kernel

/-- V-WR-1. -/
theorem test_writeBe1 : seen (fun t => (t.out, t.regs.count, t.regs.crc, said t)) (exec (.writeBe1 0x11223344#32) (at_ r0)) =
    some ([0x44#8], 1#32, 0xFFFFFFFF#32, some (0#8, 0#32)) := by decide +kernel

/-- V-WR-1. -/
theorem test_writeLe1 : seen (fun t => (t.out, t.regs.count, t.regs.crc, said t)) (exec (.writeLe1 0x000001FF#32) (at_ r0)) =
    some ([0xFF#8], 1#32, 0xFFFFFFFF#32, some (0#8, 0#32)) := by decide +kernel

/-- V-WR-1. -/
theorem test_writeBe3 : seen (fun t => (t.out, t.regs.count, t.regs.crc, said t)) (exec (.writeBe3 0xAABBCCDD#32) (at_ r0)) =
    some ([0xBB#8, 0xCC#8, 0xDD#8], 3#32, 0xFFFFFFFF#32, some (0#8, 0#32)) := by decide +kernel

/-- V-WR-1. -/
theorem test_writeLe3 : seen (fun t => (t.out, t.regs.count, t.regs.crc, said t)) (exec (.writeLe3 0xAABBCCDD#32) (at_ r0)) =
    some ([0xDD#8, 0xCC#8, 0xBB#8], 3#32, 0xFFFFFFFF#32, some (0#8, 0#32)) := by decide +kernel

/-- V-WR-1. -/
theorem test_writeBe0 : seen (fun t => (t.out, t.regs.count, t.regs.crc, said t)) (exec (.writeBe0 0xFFFFFFFF#32) (at_ r0)) =
    some ([], 0#32, 0xFFFFFFFF#32, some (0#8, 0#32)) := by decide +kernel

/-- V-WR-1. -/
theorem test_writeLe0 : seen (fun t => (t.out, t.regs.count, t.regs.crc, said t)) (exec (.writeLe0 0x12345678#32) (at_ r0)) =
    some ([], 0#32, 0xFFFFFFFF#32, some (0#8, 0#32)) := by decide +kernel

/-- V-F-3: the sink fails the third append. -/
theorem test_writeBe4_sinkFail : seen (fun t => (t.out, t.regs.count, t.regs.fault, said t)) (exec (.writeBe4 0x89504E47#32) (sinking [.ok, .ok, .fail] r0)) =
    some ([0x89#8, 0x50#8], 2#32, 0x09#8, some (0x09#8, 0#32)) := by decide +kernel

/-- V-CH-7: the third byte does not fit. -/
theorem test_writeBe4_overrun : seen (fun t => (t.out, t.regs.ccnt, t.regs.crc, said t)) (exec (.writeBe4 0x11223344#32) (at_ (chunkRegs 2#32))) =
    some ([0x11#8, 0x22#8], 2#32, 0xF31E4130#32, some (0x05#8, 0#32)) := by decide +kernel

/-- V-SY-5: the count is full at the second byte. -/
theorem test_writeBe2_countOverflow : seen (fun t => (t.out, t.regs.count, said t)) (exec (.writeBe2 0x1122#32) (at_ { r0 with count := 0xFFFFFFFE#32 })) =
    some ([0x11#8], 0xFFFFFFFF#32, some (0x0A#8, 0#32)) := by decide +kernel

/-- V-SY-2: measure mode counts and does not send. -/
theorem test_writeBe2_measure : seen (fun t => (t.out, t.regs.count, said t)) (exec (.writeBe2 0xABCD#32) (sinking [.fail] { r0 with measure := true })) =
    some (([] : List Byte), 2#32, some (0#8, 0#32)) := by decide +kernel

/-- V-CRC-6. -/
theorem test_chunkBegin : seen (fun t => (t.out, t.regs.crc, t.regs.cstate.bit, said t)) (exec (.chunkBegin 0#32) (at_ { r0 with tag := tagIHDR })) =
    some ([0x00#8, 0x00#8, 0x00#8, 0x00#8, 0x49#8, 0x48#8, 0x44#8, 0x52#8], 0x575E51F5#32, 1#32, some (0#8, 0#32)) := by decide +kernel

/-- V-F-4: the sink fails the sixth append; nothing is rolled back. -/
theorem test_chunkBegin_sinkFail : seen (fun t => (t.out, t.regs.crc, t.regs.cstate.bit, said t)) (exec (.chunkBegin 13#32) (sinking [.ok, .ok, .ok, .ok, .ok, .fail] { r0 with tag := tagIHDR })) =
    some ([0x00#8, 0x00#8, 0x00#8, 0x0D#8, 0x49#8], 0x22FDE946#32, 0#32, some (0x09#8, 0#32)) := by decide +kernel

/-- R166's example. -/
theorem test_chunkEnd : seen (fun t => (t.out, t.regs.cstate.bit, t.regs.cseq, t.regs.crc)) (exec (.chunkEnd) (at_ { chunkRegs 0#32 with tag := tagIEND, cseq := 2#2, crc := 0x51BD9F7D#32 })) =
    some ([0xAE#8, 0x42#8, 0x60#8, 0x82#8], 0#32, 3#2, 0x51BD9F7D#32) := by decide +kernel

/-- V-CH-8: one payload byte of two. -/
theorem test_chunkEnd_underrun : seen (fun t => (t.out, t.regs.cstate, said t)) (exec (.chunkEnd) (at_ { chunkRegs 2#32 with ccnt := 1#32 })) =
    some (([] : List Byte), CState.cOpen, some (0x06#8, 0#32)) := by decide +kernel

/-- R178's example `ZREM = 65536`, with the header pair. -/
theorem test_zBegin : seen (fun t => (t.out, t.regs.zrem, t.regs.zblk, t.regs.zstate.bit)) (exec (.zBegin 65536#32) (at_ r0)) =
    some ([0x78#8, 0x01#8, 0x00#8, 0xFF#8, 0xFF#8, 0x00#8, 0x00#8], 65536#32, 65535#16, 1#32) := by decide +kernel

/-- V-Z-1: the empty stream. -/
theorem test_zBegin_empty : seen (fun t => (t.out, t.regs.zblk)) (exec (.zBegin 0#32) (at_ { r0 with s1 := 7#16 })) =
    some ([0x78#8, 0x01#8, 0x01#8, 0x00#8, 0x00#8, 0xFF#8, 0xFF#8], 0#16) := by decide +kernel

/-- V-Z-10, the byte that fills a block: the next header follows at once. -/
theorem test_zData_block : seen (fun t => (t.out, t.regs.zrem, t.regs.zblk, t.regs.adler)) (exec (.zData 0x13#8) (cap4 { streamRegs 6#32 1#16 with s1 := 0x0034#16, s2 := 0x0067#16 })) =
    some ([0x13#8, 0x00#8, 0x04#8, 0x00#8, 0xFB#8, 0xFF#8], 5#32, 4#16, 0x00AE0047#32) := by decide +kernel

/-- V-F-5: the sink fails the second header byte. -/
theorem test_zData_sinkFail : seen (fun t => (t.out, t.regs.zrem, t.regs.adler, said t)) (exec (.zData 0x13#8) ({ cap4 { streamRegs 6#32 1#16 with s1 := 0x0034#16, s2 := 0x0067#16 } with sinkScript := [.ok, .ok, .fail] })) =
    some ([0x13#8, 0x00#8], 5#32, 0x00AE0047#32, some (0x09#8, 0#32)) := by decide +kernel

/-- V-Z-2: the trailer. -/
theorem test_zEnd : seen (fun t => (t.out, t.regs.zstate, t.regs.s1, said t)) (exec (.zEnd) (at_ { streamRegs 0#32 0#16 with s1 := 0x0127#16, s2 := 0x024D#16 })) =
    some ([0x02#8, 0x4D#8, 0x01#8, 0x27#8], ZState.zIdle, 0x0127#16, some (0#8, 0#32)) := by decide +kernel

/-- V-Z-5: a data byte is missing. -/
theorem test_zEnd_underrun : seen (fun t => (t.out, t.regs.zstate, said t)) (exec (.zEnd) (at_ (streamRegs 1#32 1#16))) =
    some (([] : List Byte), ZState.zOpen, some (0x08#8, 0#32)) := by decide +kernel

/-! ## The step: events, faults, reset -/

/-- V-F-1: an illegal word faults. -/
theorem test_step_illegal : seen (fun t => (t.regs.fault, said t, t.events))
    (step { at_ r0 with events := [.command 0x9000000000#40, .reset] }) =
    some (0x01#8, some (0x01#8, 0#32), [.reset]) := by decide +kernel

/-- V-F-2: a halted block answers `HALTED` to a malformed `START`. -/
theorem test_step_halted : seen (fun t => (t.regs, said t))
    (step (State.withFetchWord (at_ { r0 with fault := 0x02#8 }) 40 0x0100000001)) =
    some ({ r0 with fault := 0x02#8 }, some (0x0B#8, 0#32)) := by decide +kernel

/-- R271: reset in mid-command; two of four bytes are out, no response. -/
theorem test_step_resetDuring : seen (fun t => (t.out, t.regs, t.responses, t.sinkScript))
    (step { sinking [.ok, .ok, .ok, .fail] r0 with events := [.resetDuring 0x5411223344#40 2] }) =
    some ([0x11#8, 0x22#8], Regs.reset, [], [.ok, .fail]) := by decide +kernel

/-! ## The host's side -/

/-- `30_encoding.md` R110: a tag in quotes, a comment, a line that would be illegal. -/
theorem test_assembleLine :
    assembleLine ['W', 'R', 'R', 'E', 'G', ' ', 'T', 'A', 'G', ',', ' ', '\'', 'I', 'H', 'D', 'R', '\'']
        = some 0x1249484452#40
      ∧ assembleLine ['C', 'R', 'C', '_', 'U', 'P', 'D', 'A', 'T', 'E', ' ', '0', 'x', '4', '9', ' ', ';', 'a']
        = some 0x3100000049#40
      ∧ assembleLine ['W', 'R', 'R', 'E', 'G', ' ', '1', ',', '2'] = none := by decide +kernel

/-- The pixel of program P2. -/
def onePixel : Image := { width := 1#32, height := 1#32, pixels := [0x12#8, 0x34#8, 0x56#8, 0x78#8] }

/-- Program P2: the 26 words of `EncodePng(1, 1, [12 34 56 78])`. -/
theorem test_encodePng : (encodePng Params.hardware onePixel).map (fun is => is.map encode) = some
    ([0x0100000000#40, 0x5489504E47#40, 0x540D0A1A0A#40, 0x1249484452#40, 0x700000000D#40, 0x5400000001#40,
      0x5400000001#40, 0x5100000008#40, 0x5100000006#40, 0x5100000000#40, 0x5100000000#40, 0x5100000000#40,
      0x7100000000#40] ++
     [0x1249444154#40, 0x7000000010#40, 0x8000000005#40, 0x8100000000#40, 0x8100000012#40, 0x8100000034#40,
      0x8100000056#40, 0x8100000078#40, 0x8200000000#40, 0x7100000000#40, 0x1249454E44#40, 0x7000000000#40,
      0x7100000000#40]) := by decide +kernel

/-- Program P4: the measuring pass after command 12 of P2, then the same programme with the 16 that `RDREG COUNT` responds (R214). -/
theorem test_encodePngMeasured : (encodePngMeasured Params.hardware onePixel).map
      (fun is => ((is.1.drop 13).map encode, ((is.2 16#32).take 4).map encode)) = some
    ([0x1300000000#40, 0x1100000001#40, 0x8000000005#40, 0x8100000000#40, 0x8100000012#40, 0x8100000034#40,
      0x8100000056#40, 0x8100000078#40, 0x8200000000#40, 0x2300000000#40],
     [0x1100000000#40, 0x1249444154#40, 0x7000000010#40, 0x8000000005#40]) := by decide +kernel

/-- The length the host reads is the data of the response to `RDREG COUNT` (R196, R214; P4 responds 16). -/
theorem test_lastData : seen State.lastData (exec .rdregCount (at_ { r0 with count := 16#32 })) =
    some (some 16#32) := by decide +kernel

/-- Scenario 2 (R208): a zero dimension is rejected by the host. -/
theorem test_encodePng_zero :
    encodePng Params.hardware { width := 0#32, height := 5#32, pixels := [] } = none := by decide +kernel

/-! ## Witnesses: states and operands that meet the hypotheses of the statements, each clause at a boundary of its range -/

/-- What `seen` shows is a next state. -/
theorem of_seen {α : Type} {f : State → α} {o : Host.Outcome State Fault Refusal} {v : α}
    (h : seen f o = some v) : ∃ t, o = .next t ∧ f t = v := by
  cases o with
  | next t => exact ⟨t, rfl, Option.some.inj h⟩
  | fault _ => cases h
  | refused _ => cases h

/-- A state where the command has just faulted. -/
abbrev halted : State := at_ { r0 with fault := 0x01#8 }

/-- The count one below the most it holds, so that one byte is still taken. -/
abbrev nearFull : State := at_ { r0 with count := 0xFFFFFFFE#32 }

theorem witness_DecodeAndEncodeAgree :
    (Instr.wrregCtrl 1#32).wellFormed = true ∧ (Instr.chunkBegin 0xFFFFFFFF#32).wellFormed = true
      ∧ decode 0x1100000001#40 = .command (.wrregCtrl 1#32)
      ∧ decode 0x70FFFFFFFF#40 = .command (.chunkBegin 0xFFFFFFFF#32) := by decide

/-- One word at the edge of each item: group 9; group 0 function 0; group 1 functions 0 and 4; group 2 function 10; groups 3, 4, 8 function 3; group 7 function 2; groups 5, 6 function 5; no-operand words with 1; byte words with 256; `WRREG CTRL` with 2. -/
theorem witness_IllegalWordsExactly :
    ([0x9000000000#40, 0x0000000000#40, 0x1000000000#40, 0x1400000000#40, 0x2A00000000#40, 0x3300000000#40,
        0x4300000000#40, 0x8300000000#40, 0x7200000000#40, 0x5500000000#40, 0x6500000000#40, 0x0100000001#40,
        0x2900000001#40, 0x3200000001#40, 0x7100000001#40, 0x8200000001#40, 0x8100000100#40, 0x1100000002#40].map
      fun w => ((groupOf w).toNat, (functionOf w).toNat, (immOf w).toNat))
      = [(9, 0, 0), (0, 0, 0), (1, 0, 0), (1, 4, 0), (2, 10, 0), (3, 3, 0),
        (4, 3, 0), (8, 3, 0), (7, 2, 0), (5, 5, 0), (6, 5, 0), (0, 1, 1),
        (2, 9, 1), (3, 2, 1), (7, 1, 1), (8, 2, 1), (8, 1, 256), (1, 1, 2)]
      ∧ (at_ r0).regs.fault = 0#8 ∧ halted.regs.fault ≠ 0#8 := by decide

theorem witness_StepRunsDecodedCommand :
    State.events { at_ r0 with events := [.command 0x8000000003#40, .reset] } = .command 0x8000000003#40 :: [.reset]
      ∧ decode 0x8000000003#40 = .command (.zBegin 3#32)
      ∧ decodeTableWord 40 0x70FFFFFFFF = some (.chunkBegin 0xFFFFFFFF#32) := by decide

theorem witness_ResetLeavesResetValues : State.events { halted with events := [.reset] } = .reset :: [] := by
  decide

theorem witness_ResetCutsCommandShort :
    State.events { at_ r0 with events := [.resetDuring 0x5411223344#40 2] } = .resetDuring 0x5411223344#40 2 :: []
      ∧ ∃ t, execWord 0x5411223344#40 (at_ r0) = .next t ∧ t.out.length = 4 :=
  ⟨by decide, of_seen (by decide +kernel)⟩

theorem witness_NoEventHoldsState : State.reset.events = [] := rfl

theorem witness_WrregWritesOneRegister :
    ((at_ r0).regs.fault = 0#8 ∧ (at_ r0).regs.cstate = .cIdle ∧ (at_ r0).regs.zstate = .zIdle
        ∧ (1#32 : Word).toNat ≤ 1)
      ∧ ((at_ (chunkRegs 0#32)).regs.fault = 0#8 ∧ (at_ (chunkRegs 0#32)).regs.cstate = .cOpen)
      ∧ (at_ (streamRegs 0#32 0#16)).regs.fault = 0#8 ∧ (at_ (streamRegs 0#32 0#16)).regs.zstate = .zOpen := by
  decide

theorem witness_CrcCommandsEffect :
    ((at_ (streamRegs 1#32 1#16)).regs.fault = 0#8 ∧ (at_ (streamRegs 1#32 1#16)).regs.cstate = .cIdle)
      ∧ (at_ (chunkRegs 0#32)).regs.fault = 0#8 ∧ (at_ (chunkRegs 0#32)).regs.cstate = .cOpen := by decide

theorem witness_CrcEngineComputesCrc32 :
    (at_ r0).regs.fault = 0#8 ∧ (at_ r0).regs.cstate = .cIdle := by decide

theorem witness_Crc32DetectsOneChangedByte : (0x00#8 : Byte) ≠ 0x80#8 := by decide

theorem witness_AdlerCommandsEffect :
    ((at_ (chunkRegs 0#32)).regs.fault = 0#8 ∧ (at_ (chunkRegs 0#32)).regs.zstate = .zIdle)
      ∧ (at_ (streamRegs 1#32 1#16)).regs.fault = 0#8 ∧ (at_ (streamRegs 1#32 1#16)).regs.zstate = .zOpen := by
  decide

theorem witness_AdlerEngineComputesAdler32 :
    (at_ (chunkRegs 0#32)).regs.fault = 0#8 ∧ (at_ (chunkRegs 0#32)).regs.zstate = .zIdle := by decide

/-- A raw write that fills the count; a payload that fills its chunk; a write in measure mode against a failing sink; a write inside a stream. -/
theorem witness_WriterEmitsItsBytes :
    writerBytes (.writeBe1 0x12#32) = some [0x12#8]
      ∧ (nearFull.regs.fault = 0#8 ∧ nearFull.regs.zstate = .zIdle ∧ nearFull.Takes 1 ∧ nearFull.Fits 1)
      ∧ ((at_ (chunkRegs 1#32)).regs.zstate = .zIdle ∧ (at_ (chunkRegs 1#32)).Takes 1
        ∧ (at_ (chunkRegs 1#32)).Fits 1)
      ∧ (sinking [.fail] { r0 with measure := true }).Takes 1
      ∧ (at_ (streamRegs 1#32 1#16)).regs.zstate = .zOpen := by decide +kernel

/-- The second byte stops: the count is full after the first; the sink fails it; the chunk is full after the first. -/
theorem witness_WriterStopsAtFaultingByte :
    writerBytes (.writeBe2 0x1122#32) = some ([0x11#8] ++ 0x22#8 :: [])
      ∧ (nearFull.regs.fault = 0#8 ∧ nearFull.regs.zstate = .zIdle ∧ nearFull.Takes 1 ∧ nearFull.Fits 1
        ∧ (nearFull.afterPay [0x11#8]).Fits 1 ∧ (nearFull.afterPay [0x11#8]).regs.count = 0xFFFFFFFF#32)
      ∧ ((sinking [.ok, .fail] r0).Takes 1 ∧ (sinking [.ok, .fail] r0).Fits 1
        ∧ ((sinking [.ok, .fail] r0).afterPay [0x11#8]).regs.count ≠ 0xFFFFFFFF#32
        ∧ ((sinking [.ok, .fail] r0).afterPay [0x11#8]).regs.measure = false
        ∧ ((sinking [.ok, .fail] r0).afterPay [0x11#8]).answerAt 0 = .fail)
      ∧ (at_ (chunkRegs 1#32)).Takes 1 ∧ (at_ (chunkRegs 1#32)).Fits 1
        ∧ ((at_ (chunkRegs 1#32)).afterPay [0x11#8]).regs.cstate = .cOpen
        ∧ ((at_ (chunkRegs 1#32)).afterPay [0x11#8]).regs.ccnt
          = ((at_ (chunkRegs 1#32)).afterPay [0x11#8]).regs.clen := by
  decide +kernel

/-- Idle, the tag of the first chunk set, the count as full as eight bytes allow. -/
abbrev beginState : State := at_ { r0 with tag := tagIHDR, count := 0xFFFFFFF7#32 }

theorem witness_ChunkBeginOpensChunk :
    beginState.regs.fault = 0#8 ∧ beginState.regs.cstate = .cIdle ∧ beginState.regs.zstate = .zIdle
      ∧ expectedTag beginState.regs.cseq = some beginState.regs.tag
      ∧ (0x7FFFFFFF#32 : Word).toNat ≤ beginState.params.chunkLenMax.toNat ∧ beginState.Takes 8 := by
  decide +kernel

/-- A chunk open; a stream open; three chunks done; another tag; a length one over the limit. -/
theorem witness_ChunkBeginChecksInOrder :
    ((at_ (chunkRegs 0#32)).regs.fault = 0#8 ∧ (at_ (chunkRegs 0#32)).regs.cstate = .cOpen)
      ∧ (at_ (streamRegs 0#32 0#16)).regs.zstate = .zOpen
      ∧ ((at_ { r0 with cseq := 3#2 }).regs.cseq = 3#2
        ∧ (at_ { r0 with cseq := 3#2 }).regs.cstate = .cIdle ∧ (at_ { r0 with cseq := 3#2 }).regs.zstate = .zIdle)
      ∧ expectedTag (at_ { r0 with tag := tagIDAT }).regs.cseq ≠ some (at_ { r0 with tag := tagIDAT }).regs.tag
      ∧ expectedTag beginState.regs.cseq = some beginState.regs.tag
      ∧ beginState.params.chunkLenMax.toNat < (0x80000000#32 : Word).toNat := by decide

/-- An empty chunk, the count as full as four bytes allow. -/
abbrev endState : State := at_ { chunkRegs 0#32 with count := 0xFFFFFFFB#32 }

theorem witness_ChunkEndClosesChunk :
    endState.regs.fault = 0#8 ∧ endState.regs.cstate = .cOpen ∧ endState.regs.zstate = .zIdle
      ∧ endState.regs.ccnt = endState.regs.clen ∧ endState.Takes 4 := by decide +kernel

theorem witness_ChunkEndChecksInOrder :
    ((at_ r0).regs.fault = 0#8 ∧ (at_ r0).regs.cstate = .cIdle)
      ∧ (at_ (streamRegs 0#32 0#16)).regs.zstate = .zOpen
      ∧ (at_ (chunkRegs 1#32)).regs.fault = 0#8 ∧ (at_ (chunkRegs 1#32)).regs.cstate = .cOpen
        ∧ (at_ (chunkRegs 1#32)).regs.zstate = .zIdle
        ∧ (at_ (chunkRegs 1#32)).regs.ccnt ≠ (at_ (chunkRegs 1#32)).regs.clen := by decide

/-- The count has room for five of the eight bytes of `CHUNK_BEGIN 13`: the sixth, a tag byte, stops. -/
abbrev beginStops : State := at_ { r0 with tag := tagIHDR, count := 0xFFFFFFFA#32 }

/-- The sink fails the first byte of the CRC field. -/
abbrev endStops : State := sinking [.fail] (chunkRegs 0#32)

theorem witness_FramerStopsAtFaultingByte :
    (beginStops.regs.fault = 0#8 ∧ beginStops.regs.zstate = .zIdle ∧ beginStops.Takes 5
        ∧ beginStops.regs.cstate = .cIdle ∧ expectedTag beginStops.regs.cseq = some beginStops.regs.tag
        ∧ (13#32 : Word).toNat ≤ beginStops.params.chunkLenMax.toNat
        ∧ [octet 13#32 3, octet 13#32 2, octet 13#32 1, octet 13#32 0, octet beginStops.regs.tag 3,
            octet beginStops.regs.tag 2, octet beginStops.regs.tag 1, octet beginStops.regs.tag 0]
          = [0x00#8, 0x00#8, 0x00#8, 0x0D#8, 0x49#8] ++ 0x48#8 :: [0x44#8, 0x52#8]
        ∧ (beginStops.afterOut [0x00#8, 0x00#8, 0x00#8, 0x0D#8, 0x49#8]).regs.count = 0xFFFFFFFF#32)
      ∧ endStops.regs.fault = 0#8 ∧ endStops.regs.zstate = .zIdle ∧ endStops.Takes 0
        ∧ endStops.regs.cstate = .cOpen ∧ endStops.regs.ccnt = endStops.regs.clen
        ∧ [octet (endStops.regs.crc ^^^ 0xFFFFFFFF#32) 3, octet (endStops.regs.crc ^^^ 0xFFFFFFFF#32) 2,
            octet (endStops.regs.crc ^^^ 0xFFFFFFFF#32) 1, octet (endStops.regs.crc ^^^ 0xFFFFFFFF#32) 0]
          = [] ++ 0xA8#8 :: [0xA1#8, 0xAE#8, 0x0A#8]
        ∧ (endStops.afterOut []).regs.count ≠ 0xFFFFFFFF#32 ∧ (endStops.afterOut []).regs.measure = false
        ∧ (endStops.afterOut []).answerAt 0 = .fail := by decide +kernel

/-- A chunk of two payload bytes, in normal mode and in measure mode. -/
theorem witness_ChunkLaw (m : Bool) :
    ∃ s1 s2 s3, exec (.chunkBegin 2#32) (at_ { r0 with tag := tagIHDR, measure := m }) = .next s1
      ∧ execAll [.writeBe2 0xABCD#32] s1 = some s2
      ∧ (∀ i ∈ [Instr.writeBe2 0xABCD#32], i ≠ .start ∧ i ≠ .chunkEnd)
      ∧ exec .chunkEnd s2 = .next s3 ∧ s3.regs.fault = 0#8 := by
  cases m <;> exact ⟨_, _, _, rfl, rfl, by decide, rfl, by decide +kernel⟩

/-- Raw with the count as full as seven bytes allow; in a chunk with seven bytes left; a stream open. -/
theorem witness_ZBeginOpensStream :
    ((at_ { r0 with count := 0xFFFFFFF8#32 }).regs.fault = 0#8
        ∧ (at_ { r0 with count := 0xFFFFFFF8#32 }).regs.zstate = .zIdle
        ∧ (at_ { r0 with count := 0xFFFFFFF8#32 }).Takes 7 ∧ (at_ { r0 with count := 0xFFFFFFF8#32 }).Fits 7)
      ∧ ((at_ (chunkRegs 7#32)).regs.zstate = .zIdle ∧ (at_ (chunkRegs 7#32)).Takes 7
        ∧ (at_ (chunkRegs 7#32)).Fits 7)
      ∧ (at_ (streamRegs 0#32 0#16)).regs.zstate = .zOpen := by decide +kernel

/-- The last byte of the data; a byte inside a block; the byte that fills a block with one to come, in a chunk with six bytes left. -/
theorem witness_ZDataTakesOneByte :
    ((at_ (streamRegs 1#32 1#16)).regs.fault = 0#8 ∧ (at_ (streamRegs 1#32 1#16)).regs.zstate = .zOpen
        ∧ (at_ (streamRegs 1#32 1#16)).regs.zrem = 1#32 ∧ (at_ (streamRegs 1#32 1#16)).Takes 1
        ∧ (at_ (streamRegs 1#32 1#16)).Fits 1)
      ∧ ((at_ (streamRegs 2#32 2#16)).regs.zblk ≠ 1#16 ∧ (at_ (streamRegs 2#32 2#16)).regs.zrem ≠ 0#32)
      ∧ (at_ { streamRegs 2#32 1#16 with cstate := .cOpen, clen := 6#32 }).regs.zblk = 1#16
        ∧ (at_ { streamRegs 2#32 1#16 with cstate := .cOpen, clen := 6#32 }).regs.zrem ≠ 1#32
        ∧ (at_ { streamRegs 2#32 1#16 with cstate := .cOpen, clen := 6#32 }).Takes 6
        ∧ (at_ { streamRegs 2#32 1#16 with cstate := .cOpen, clen := 6#32 }).Fits 6 := by decide +kernel

theorem witness_ZEndClosesStream :
    (at_ (streamRegs 0#32 0#16)).regs.fault = 0#8 ∧ (at_ (streamRegs 0#32 0#16)).regs.zstate = .zOpen
      ∧ (at_ (streamRegs 0#32 0#16)).regs.zrem = 0#32 ∧ (at_ (streamRegs 0#32 0#16)).Takes 4
      ∧ (at_ { streamRegs 0#32 0#16 with cstate := .cOpen, clen := 4#32 }).Fits 4 := by decide +kernel

theorem witness_StreamLengthChecks :
    (at_ (streamRegs 0#32 0#16)).regs.fault = 0#8
      ∧ ((at_ (streamRegs 0#32 0#16)).regs.zstate = .zOpen ∧ (at_ (streamRegs 0#32 0#16)).regs.zrem = 0#32)
      ∧ ((at_ (streamRegs 1#32 1#16)).regs.zstate = .zOpen ∧ (at_ (streamRegs 1#32 1#16)).regs.zrem ≠ 0#32)
      ∧ (at_ r0).regs.fault = 0#8 ∧ (at_ r0).regs.zstate = .zIdle := by decide

/-- `Z_BEGIN`, the second byte of the header pair stops; -/
theorem witness_WrapperStopsAtFaultingByte_zBegin :
    nearFull.regs.fault = 0#8 ∧ nearFull.regs.zstate = .zIdle ∧ nearFull.Takes 1 ∧ nearFull.Fits 1
      ∧ [nearFull.params.zhdr0, nearFull.params.zhdr1]
          ++ blockHeader (3#32 : Word).toNat nearFull.params.zblockCap.toNat
        = [0x78#8] ++ 0x01#8 :: [0x01#8, 0x03#8, 0x00#8, 0xFC#8, 0xFF#8] := by decide +kernel

/-- `Z_DATA`, the data byte stops in a full chunk; the second byte of the next header is failed by the sink (V-F-5). -/
theorem witness_WrapperStopsAtFaultingByte_zData :
    (State.regs (at_ { streamRegs 1#32 1#16 with cstate := .cOpen })).zstate = .zOpen
      ∧ (State.regs (at_ { streamRegs 1#32 1#16 with cstate := .cOpen })).ccnt
        = (State.regs (at_ { streamRegs 1#32 1#16 with cstate := .cOpen })).clen
      ∧ ((254#16 : Half).toNat = ((1#16 : Half).toNat + (0xFD#8 : Byte).toNat) % 65521
        ∧ (254#16 : Half).toNat = ((0#16 : Half).toNat + (254#16 : Half).toNat) % 65521)
      ∧ State.Takes { cap4 (streamRegs 6#32 1#16) with sinkScript := [.ok, .ok, .fail] } 2
      ∧ State.Fits { cap4 (streamRegs 6#32 1#16) with sinkScript := [.ok, .ok, .fail] } 2
      ∧ State.answerAt { cap4 (streamRegs 6#32 1#16) with sinkScript := [.ok, .ok, .fail] } 2 = .fail
      ∧ blockHeader ((6#32 : Word).toNat - 1) (cap4 (streamRegs 6#32 1#16)).params.zblockCap.toNat
        = [0x00#8] ++ 0x04#8 :: [0x00#8, 0xFB#8, 0xFF#8] := by decide +kernel

/-- `Z_END`, the last byte of the trailer stops. -/
theorem witness_WrapperStopsAtFaultingByte_zEnd :
    (at_ { streamRegs 0#32 0#16 with cstate := .cOpen, clen := 3#32 }).regs.zstate = .zOpen
      ∧ (at_ { streamRegs 0#32 0#16 with cstate := .cOpen, clen := 3#32 }).regs.zrem = 0#32
      ∧ (at_ { streamRegs 0#32 0#16 with cstate := .cOpen, clen := 3#32 }).Takes 3
      ∧ (at_ { streamRegs 0#32 0#16 with cstate := .cOpen, clen := 3#32 }).Fits 3
      ∧ [BitVec.ofNat 8 ((0#16 : Half).toNat / 256), BitVec.ofNat 8 (0#16 : Half).toNat,
          BitVec.ofNat 8 ((1#16 : Half).toNat / 256), BitVec.ofNat 8 (1#16 : Half).toNat]
        = [0x00#8, 0x00#8, 0x00#8] ++ 0x01#8 :: [] := by decide +kernel

/-- A stream of one data byte in a chunk whose declared length it fills, in normal mode and in measure mode. -/
theorem witness_ZlibLaw (m : Bool) :
    Params.hardware.Valid ∧ (at_ { chunkRegs 12#32 with measure := m }).regs.cstate = .cOpen
      ∧ (at_ { chunkRegs 12#32 with measure := m }).regs.ccnt.toNat
        ≤ (at_ { chunkRegs 12#32 with measure := m }).regs.clen.toNat
      ∧ ∃ s1 s2 s3, exec (.zBegin 1#32) (at_ { chunkRegs 12#32 with measure := m }) = .next s1
      ∧ execAll [.rdregZrem, .zData 0x61#8] s1 = some s2
      ∧ (∀ i ∈ [Instr.rdregZrem, .zData 0x61#8], i ≠ .start ∧ i ≠ .zEnd)
      ∧ exec .zEnd s2 = .next s3 ∧ s3.regs.fault = 0#8 := by
  cases m <;> exact ⟨by decide, rfl, by decide, _, _, _, rfl, rfl, by decide, rfl, by decide +kernel⟩

theorem witness_OnlyStreamCommandsEmitInStream :
    (at_ (streamRegs 1#32 1#16)).regs.zstate = .zOpen
      ∧ (∃ t, exec (.writeBe1 1#32) (at_ (streamRegs 1#32 1#16)) = .next t)
      ∧ (∀ b, Instr.writeBe1 1#32 ≠ .zData b) ∧ Instr.writeBe1 1#32 ≠ .zEnd ∧ Instr.writeBe1 1#32 ≠ .start :=
  ⟨rfl, exec_next _ _, by simp, by simp, by simp⟩

theorem witness_PngStreamLength :
    Params.hardware.Valid ∧ onePixel.accepted Params.hardware = true := by decide +kernel

/-- An illegal word, a legal command, and `START` with an operand, to a halted block. -/
theorem witness_HaltedRefusesEveryOtherWord :
    halted.regs.fault ≠ 0#8 ∧ decode 0x0100000001#40 = .illegal .immNotZero
      ∧ decode 0x3000000000#40 = .command .crcInit ∧ bypassesHalt .crcInit = false := by decide

theorem witness_BadStateExactlyWhereNotAdmitted :
    (at_ r0).regs.fault = 0#8 ∧ (at_ r0).admits .chunkEnd = false ∧ (at_ r0).admits .crcInit = true := by decide

theorem witness_FaultsOnlyFromMatrix :
    (at_ r0).regs.fault = 0#8
      ∧ ∃ t, exec .chunkEnd (at_ r0) = .next t ∧ t.regs.fault = FaultCode.badState.code :=
  ⟨rfl, of_seen (by decide +kernel)⟩

theorem witness_OneResponsePerCommand :
    ∃ t, execWord 0x3200000000#40 (at_ { r0 with crc := 0#32 }) = .next t
      ∧ said t = some (0x00#8, 0xFFFFFFFF#32) := of_seen (by decide +kernel)

/-- By the command, by reset, and by a reset that cuts a command short. -/
theorem witness_OnlyStartAndResetLeaveHalt :
    halted.regs.fault ≠ 0#8
      ∧ (∃ t, step { halted with events := [.command 0x0100000000#40] } = .next t ∧ t.regs.fault = 0#8)
      ∧ (∃ t, step { halted with events := [.reset] } = .next t ∧ t.regs.fault = 0#8)
      ∧ ∃ t, step { halted with events := [.resetDuring 0x3000000000#40 0] } = .next t ∧ t.regs.fault = 0#8 :=
  ⟨by decide, of_seen (by decide +kernel), of_seen (by decide +kernel), of_seen (by decide +kernel)⟩

/-- At reset, and in a stream with the sums, the block counter and `CCNT` at the top of their ranges. -/
theorem witness_StepKeepsInvariant :
    State.reset.Inv ∧ (∃ t, step State.reset = .next t)
      ∧ (at_ { streamRegs 65535#32 65535#16 with s1 := 65520#16, s2 := 65520#16, cstate := .cOpen, cseq := 2#2, clen := 7#32, ccnt := 7#32 }).Inv :=
  ⟨by decide +kernel, ⟨_, rfl⟩, by decide +kernel⟩

/-- In measure mode with a sink that would fail, and the count full. -/
theorem witness_MeasureModeNeverReachesSink :
    (sinking [.fail] { r0 with measure := true, count := 0xFFFFFFFF#32 }).regs.measure = true
      ∧ (sinking [.fail] { r0 with measure := true, count := 0xFFFFFFFF#32 }).regs.fault = 0#8
      ∧ (∃ t, exec (.writeBe1 1#32) (sinking [.fail] { r0 with measure := true, count := 0xFFFFFFFF#32 }) = .next t)
      ∧ Instr.writeBe1 1#32 ≠ .start ∧ ∀ v, Instr.writeBe1 1#32 ≠ .wrregCount v :=
  ⟨rfl, rfl, exec_next _ _, by simp, by simp⟩

theorem witness_CountGrowsWithOutput :
    nearFull.regs.measure = false ∧ (∃ t, exec (.writeBe2 1#32) nearFull = .next t ∧ t.out.length = 1)
      ∧ Instr.writeBe2 1#32 ≠ .start ∧ ∀ v, Instr.writeBe2 1#32 ≠ .wrregCount v :=
  ⟨rfl, of_seen (by decide +kernel), by simp, by simp⟩

/-- Two states with the same block and different output, responses and pending events. -/
theorem witness_BlockIsFunctionOfItsRegisters :
    State.out { at_ r0 with out := [1#8] } ≠ State.out (at_ r0)
      ∧ State.regs { at_ r0 with out := [1#8] } = State.regs (at_ r0)
      ∧ State.params { at_ r0 with out := [1#8] } = State.params (at_ r0)
      ∧ State.sinkScript { at_ r0 with out := [1#8] } = State.sinkScript (at_ r0)
      ∧ State.asked { at_ r0 with out := [1#8] } = State.asked (at_ r0)
      ∧ (∃ t, execWord 0x5411223344#40 { at_ r0 with out := [1#8] } = .next t)
      ∧ ∃ t, execWord 0x5411223344#40 (at_ r0) = .next t :=
  ⟨by decide, rfl, rfl, rfl, rfl, execWord_next _ _, execWord_next _ _⟩

/-- For each clause a command that changes the register. -/
theorem witness_RegistersChangeOnlyByTheirWriters :
    (∃ t, exec (.wrregTag 1#32) (at_ r0) = .next t ∧ t.regs.tag = 1#32)
      ∧ (∃ t, exec (.wrregCtrl 1#32) (at_ r0) = .next t ∧ t.regs.measure = true)
      ∧ (∃ t, exec (.zBegin 1#32) (at_ { r0 with s1 := 2#16 }) = .next t
        ∧ (t.regs.s1, t.regs.zstate.bit, t.regs.zrem, t.regs.zblk) = (1#16, 1#32, 1#32, 1#16))
      ∧ (∃ t, exec (.chunkBegin 1#32) beginState = .next t
        ∧ (t.regs.crc, t.regs.cstate.bit, t.regs.clen, t.regs.count)
          = (0x575E51F5#32, 1#32, 1#32, 0xFFFFFFFF#32))
      ∧ (∃ t, exec .chunkEnd endState = .next t ∧ (t.regs.cseq, t.regs.cstate.bit) = (1#2, 0#32))
      ∧ (∃ t, exec (.writeBe1 1#32) (at_ (chunkRegs 1#32)) = .next t ∧ (t.regs.ccnt, t.regs.count) = (1#32, 9#32))
      ∧ ∃ t, exec .chunkEnd (at_ r0) = .next t ∧ t.regs.fault = 0x02#8 :=
  ⟨of_seen (by decide +kernel), of_seen (by decide +kernel), of_seen (by decide +kernel),
    of_seen (by decide +kernel), of_seen (by decide +kernel), of_seen (by decide +kernel),
    of_seen (by decide +kernel)⟩


end Sys2Proof.Tests
end

/-! SUPPORT. The classes of commands that the proofs about the registers distinguish, and what an emission does to the registers, at its end or where it stops. -/

namespace Sys2Proof.Machine

variable {s t u : State} {bs : List Byte} {f : FaultCode} {i : Instr}

/-! ## Classes of commands -/

/-- The write of a command that emits nothing and can only be refused by its state: `WRREG` and the checksum engines' commands. -/
def directWrite : Instr → Option (Regs → Regs)
  | .wrregCtrl v => some fun r => { r with measure := v.getLsbD 0 }
  | .wrregTag v => some fun r => { r with tag := v }
  | .wrregCount v => some fun r => { r with count := v }
  | .crcInit => some fun r => { r with crc := crcOnes }
  | .crcUpdate b => some fun r => { r with crc := fold r.crc b }
  | .adlInit => some adlerInit
  | .adlUpdate b => some (adlerStep b)
  | .crcFinal | .adlFinal => some id
  | .start
  | .rdregStatus | .rdregCtrl | .rdregTag | .rdregCount | .rdregCrc
  | .rdregAdler | .rdregClen | .rdregCcnt | .rdregZrem | .rdregZblk
  | .writeBe0 _ | .writeBe1 _ | .writeBe2 _ | .writeBe3 _ | .writeBe4 _
  | .writeLe0 _ | .writeLe1 _ | .writeLe2 _ | .writeLe3 _ | .writeLe4 _
  | .chunkBegin _ | .chunkEnd
  | .zBegin _ | .zData _ | .zEnd => none

theorem require_cases (c : Bool) (f : FaultCode) (s : State) :
    require c f s = .raised f s ∨ require c f s = .done s := by
  cases c <;> simp [require]

theorem require_andThen_cases (c : Bool) (f : FaultCode) (s : State) (k : State → Ran) :
    (require c f s).andThen k = .raised f s ∨ (require c f s).andThen k = k s := by
  rcases require_cases c f s with h | h <;> simp [h]

/-- A body that is refused by the state or makes one register write, from a state that is not halted. -/
theorem checkedWrite_cases {body : State → Ran} {r : Regs} (data : Word) (hl : s.regs.fault = 0#8)
    (hb : body s = .raised .badState s ∨ body s = .done (s.withRegs r)) :
    runCommand data body s = s.takeFault .badState
      ∨ ∃ d, runCommand data body s = (s.withRegs r).respond statusOk d := by
  rw [runCommand_live hl]
  rcases hb with hb | hb <;> rw [hb]
  · exact .inl rfl
  · exact .inr ⟨data, rfl⟩

/-- A direct command raises `BAD_STATE` or makes its one write. -/
theorem direct_cases {w : Regs → Regs} (hw : directWrite i = some w) (hl : s.regs.fault = 0#8)
    (h : exec i s = .next t) :
    t = s.takeFault .badState ∨ ∃ d, t = (s.withRegs (w s.regs)).respond statusOk d := by
  cases i <;> cases hw <;> cases h
  case crcFinal | adlFinal => exact checkedWrite_cases _ hl (require_cases _ _ s)
  all_goals exact checkedWrite_cases _ hl (require_andThen_cases _ _ s _)

/-- A command that does not run in the halted state is direct, a writer, or one of the framer's and the wrapper's five. -/
theorem command_classes (hb : bypassesHalt i = false) :
    (∃ w, directWrite i = some w) ∨ (∃ bs, writerBytes i = some bs) ∨ (∃ len, i = .chunkBegin len)
      ∨ i = .chunkEnd ∨ (∃ total, i = .zBegin total) ∨ (∃ b, i = .zData b) ∨ i = .zEnd := by
  cases i <;> simp [bypassesHalt, directWrite, writerBytes] at hb ⊢

/-- `RDREG` only responds, in every state. -/
theorem rdreg_responds (hb : bypassesHalt i = true) (hs : i ≠ .start) :
    ∃ r, exec i s = .next (readRegister r s) := by
  cases i <;> simp [bypassesHalt] at hb hs <;> exact ⟨_, rfl⟩

/-- A command other than `START` only responds (`RDREG`, or refused in the halted state), or it runs its pseudocode from a state that is not halted (`60_exceptions.md` R240). -/
theorem exec_responds_or_runs (hs : i ≠ .start) (h : exec i s = .next t) :
    (∃ status d, t = s.respond status d) ∨ s.regs.fault = 0#8 ∧ bypassesHalt i = false := by
  cases hb : bypassesHalt i with
  | true =>
    obtain ⟨r, hr⟩ := rdreg_responds (s := s) hb hs
    rw [hr] at h; cases h
    exact .inl ⟨_, _, rfl⟩
  | false =>
    by_cases hl : s.regs.fault = 0#8
    · exact .inr ⟨hl, rfl⟩
    · rw [exec_halted hl hb] at h; cases h
      exact .inl ⟨_, _, rfl⟩

/-- A command that runs and is not direct ends as `Ends` says: it is not `WRREG`. -/
theorem ends_of_not_direct (hw : directWrite i = none) (hl : s.regs.fault = 0#8)
    (hb : bypassesHalt i = false) (h : exec i s = .next t) : Ends i s t := by
  refine exec_ends hl h hb fun v => ⟨?_, ?_, ?_⟩ <;> rintro rfl <;> cases hw

/-! ## What an emission does to the registers -/

/-- Bytes through `Out`, at the end of the run or where it stopped: only `COUNT` moved. -/
def Counted (s t : State) : Prop :=
  t.params = s.params ∧ ∃ n, t.regs = { s.regs with count := n }

/-- Tag bytes, at the end of the run or where it stopped: only `COUNT` and `CRC` moved. -/
def CountedFolded (s t : State) : Prop :=
  t.params = s.params ∧ ∃ n c, t.regs = { s.regs with count := n, crc := c }

/-- Bytes through `Pay`, at the end of the run or where it stopped: `COUNT` moved, `CRC` and `CCNT` only with a chunk open, and `CCNT` not past `CLEN` (`20_memory.md` R77). -/
def Paid (s t : State) : Prop :=
  t.params = s.params ∧ ∃ n c m, t.regs = { s.regs with count := n, crc := c, ccnt := m }
    ∧ (s.regs.cstate = .cIdle → c = s.regs.crc ∧ m = s.regs.ccnt)
    ∧ (s.regs.ccnt.toNat ≤ s.regs.clen.toNat → m.toNat ≤ s.regs.clen.toNat)

theorem counted_afterOut (s : State) (bs : List Byte) : Counted s (s.afterOut bs) :=
  ⟨by simp, _, afterOut_regs s bs⟩

theorem counted_outStops (h : OutStops bs s f t) : Counted s t := by
  obtain ⟨xs, b, ys, -, -, ⟨-, rfl, -⟩ | ⟨-, rfl, -⟩⟩ := h
  · exact counted_afterOut s xs
  · exact counted_afterOut s xs

theorem countedFolded_afterFolded (s : State) (bs : List Byte) : CountedFolded s (s.afterFolded bs) :=
  ⟨by simp [State.afterFolded], s.regs.count + BitVec.ofNat 32 bs.length, foldBytes s.regs.crc bs,
    by simp [State.afterFolded]⟩

theorem countedFolded_foldedStops (h : FoldedStops bs s f t) : CountedFolded s t := by
  obtain ⟨xs, b, ys, -, -, ⟨-, rfl, -⟩ | ⟨-, rfl, -⟩⟩ := h
  · exact countedFolded_afterFolded s xs
  · exact countedFolded_afterFolded s xs

/-- Where `CHUNK_BEGIN` reaches its end (`43_chunk_framer.md` R163). -/
theorem chunkHead_regs (len : Word) (xs ys : List Byte) (s : State) :
    ∃ n c, (openChunk ((startCrc ((declareLength len s).afterOut xs)).afterFolded ys)).regs
      = { s.regs with clen := len, ccnt := 0#32, crc := c, count := n, cstate := .cOpen } :=
  ⟨s.regs.count + BitVec.ofNat 32 xs.length + BitVec.ofNat 32 ys.length, foldBytes crcOnes ys, by
    simp [openChunk, State.afterFolded, startCrc, declareLength]⟩

theorem chunkHead_params (len : Word) (xs ys : List Byte) (s : State) :
    (openChunk ((startCrc ((declareLength len s).afterOut xs)).afterFolded ys)).params = s.params := by
  simp [openChunk, State.afterFolded, startCrc, declareLength]

/-- Where `CHUNK_END` reaches its end (`43_chunk_framer.md` R166). -/
theorem chunkClosed_regs (xs : List Byte) (s : State) :
    ∃ n, (closeChunk (s.afterOut xs)).regs
      = { s.regs with count := n, cstate := .cIdle, cseq := s.regs.cseq + 1#2 } :=
  ⟨s.regs.count + BitVec.ofNat 32 xs.length, by simp [closeChunk]⟩

theorem paid_afterPay (h : emitAll payByte bs s = .done (s.afterPay bs)) : Paid s (s.afterPay bs) := by
  refine ⟨by simp, _, _, _, afterPay_regs s bs, fun hi => by simp [hi], fun hle => ?_⟩
  split
  · rename_i ho
    have := (emitPay_needs h).2 ho hle
    have := s.regs.clen.isLt
    simp only [BitVec.toNat_add, BitVec.toNat_ofNat]
    omega
  · exact hle

theorem paid_payStops (h : PayStops bs s f t) : Paid s t := by
  obtain ⟨xs, b, ys, -, hd, ⟨-, rfl, -⟩ | ⟨-, rfl, -⟩ | ⟨-, rfl, -⟩⟩ := h
  · exact paid_afterPay hd
  · exact paid_afterPay hd
  · exact paid_afterPay hd

end Sys2Proof.Machine

/-! SUPPORT. The invariants of the registers (`10_state.md` R50) hold at reset and every step keeps them. -/

namespace Sys2Proof.Machine

variable {s t u : State} {bs : List Byte} {f : FaultCode} {i : Instr}

/-- The clauses of the invariant that hold after every byte of a command, so also where a fault stops it. -/
structure Bounded (p : Params) (r : Regs) : Prop where
  valid : p.Valid
  s1 : r.s1.toNat < 65521
  s2 : r.s2.toNat < 65521
  ccnt : r.ccnt.toNat ≤ r.clen.toNat
  zblk_le_zrem : r.zblk.toNat ≤ r.zrem.toNat
  zblk_le_cap : r.zblk.toNat ≤ p.zblockCap.toNat
  cseq : r.cstate = .cOpen → r.cseq.toNat ≤ 2

/-- The clauses of the invariant that hold between commands while no fault is recorded. -/
structure Settled (r : Regs) : Prop where
  idle : r.zstate = .zIdle → r.zrem = 0#32 ∧ r.zblk = 0#16
  stream : r.zstate = .zOpen → r.zrem ≠ 0#32 → r.zblk ≠ 0#16

theorem inv_iff :
    s.Inv ↔ Bounded s.params s.regs ∧ s.regs.fault.toNat ≤ 0x0A
      ∧ (s.regs.fault = 0#8 → Settled s.regs) := by
  constructor
  · rintro ⟨hp, h1, h2, hc, hr, hb, hq, hf, hi, ho⟩
    exact ⟨⟨hp, h1, h2, hc, hr, hb, hq⟩, hf, fun hl => ⟨hi hl, ho hl⟩⟩
  · rintro ⟨⟨hp, h1, h2, hc, hr, hb, hq⟩, hf, hs⟩
    exact ⟨hp, h1, h2, hc, hr, hb, hq, hf, fun hl => (hs hl).idle, fun hl => (hs hl).stream⟩

/-- The reset values meet every clause (R53). -/
theorem bounded_reset {p : Params} (hp : p.Valid) : Bounded p Regs.reset :=
  ⟨hp, by decide, by decide, by decide, by decide, by simp [Regs.reset], nofun⟩

theorem inv_of_reset (hp : s.params.Valid) (hr : s.regs = Regs.reset) : s.Inv := by
  rw [inv_iff, hr]
  exact ⟨bounded_reset hp, by decide, fun _ => ⟨fun _ => ⟨rfl, rfl⟩, nofun⟩⟩

/-- A response leaves the invariants as they are: they read the registers and the parameters only. -/
theorem inv_respond {status : Byte} {d : Word} (h : s.Inv) : (s.respond status d).Inv := h

/-- A fault leaves the clauses that hold after every byte; the others are those of a block that is not halted (`60_exceptions.md` R236). -/
theorem inv_takeFault (h : Bounded u.params u.regs) : (u.takeFault f).Inv :=
  inv_iff.mpr ⟨{ h with }, code_le f, fun h0 => absurd h0 (code_ne_zero f)⟩

theorem inv_of_live (hl : u.regs.fault = 0#8) (hb : Bounded u.params u.regs) (hs : Settled u.regs) :
    u.Inv := inv_iff.mpr ⟨hb, by simp [hl], fun _ => hs⟩

/-! ## Emission keeps the clauses -/

theorem Counted.bounded (h : Counted s t) (hb : Bounded s.params s.regs) : Bounded t.params t.regs := by
  obtain ⟨hp, n, hr⟩ := h
  rw [hp, hr]
  exact { hb with }

theorem CountedFolded.bounded (h : CountedFolded s t) (hb : Bounded s.params s.regs) :
    Bounded t.params t.regs := by
  obtain ⟨hp, n, c, hr⟩ := h
  rw [hp, hr]
  exact { hb with }

theorem Paid.bounded (h : Paid s t) (hb : Bounded s.params s.regs) : Bounded t.params t.regs := by
  obtain ⟨hp, n, c, m, hr, -, hm⟩ := h
  rw [hp, hr]
  exact { hb with ccnt := hm hb.ccnt }

/-! ## The register changes of the framer and the wrapper -/

theorem bounded_declareLength {p : Params} (len : Word) (hb : Bounded p s.regs) :
    Bounded p (declareLength len s).regs :=
  { hb with ccnt := Nat.zero_le _ }

/-- A tag is expected before the fourth chunk only (`43_chunk_framer.md` R161). -/
theorem cseq_le_of_expectedTag {q : BitVec 2} {tag : Word} (h : expectedTag q = some tag) :
    q.toNat ≤ 2 := by
  have hq : q.toNat ≠ 3 := fun e => by
    rw [BitVec.eq_of_toNat_eq (show q.toNat = (3#2).toNat from e)] at h
    cases h
  have := q.isLt
  omega

theorem bounded_startCrc {p : Params} (hb : Bounded p s.regs) : Bounded p (startCrc s).regs :=
  { hb with }

theorem bounded_adlerInit {p : Params} {r : Regs} (hb : Bounded p r) : Bounded p (adlerInit r) :=
  { hb with
    s1 := show 1 < 65521 by decide
    s2 := show 0 < 65521 by decide }

theorem bounded_openStream {p : Params} (total : Word) (hb : Bounded p s.regs) :
    Bounded p (openStream total s).regs :=
  { bounded_adlerInit hb with
    zblk_le_zrem := Nat.zero_le _
    zblk_le_cap := Nat.zero_le _ }

theorem bounded_adlerStep {p : Params} {r : Regs} (b : Byte) (hb : Bounded p r) :
    Bounded p (adlerStep b r) :=
  { hb with
    s1 := by rw [(adlerStep_toNat b r).1]; exact Nat.mod_lt _ (by decide)
    s2 := by rw [(adlerStep_toNat b r).2]; exact Nat.mod_lt _ (by decide) }

/-- Taking a data byte counts both counters down together (`44_zlib_stored.md` R179). -/
theorem bounded_tookData {p : Params} (b : Byte) (hblk : s.regs.zblk ≠ 0#16) (hb : Bounded p s.regs) :
    Bounded p (tookData b s).regs := by
  have hpos : s.regs.zblk.toNat ≠ 0 := fun e => hblk (BitVec.eq_of_toNat_eq e)
  have hrem := s.regs.zrem.isLt
  have hle := hb.zblk_le_zrem
  have hcap := hb.zblk_le_cap
  have hr : (s.regs.zrem - 1#32).toNat = s.regs.zrem.toNat - 1 := by
    rw [BitVec.toNat_sub, BitVec.toNat_ofNat]; omega
  have hk : (s.regs.zblk - 1#16).toNat = s.regs.zblk.toNat - 1 := by
    rw [BitVec.toNat_sub, BitVec.toNat_ofNat]; omega
  exact { bounded_adlerStep b hb with
    zblk_le_zrem := by change (s.regs.zblk - 1#16).toNat ≤ (s.regs.zrem - 1#32).toNat; omega
    zblk_le_cap := by change (s.regs.zblk - 1#16).toNat ≤ _; omega }

/-- A new stored block is within what the stream still expects and within the cap (`44_zlib_stored.md` R178). -/
theorem bounded_setBlock {p : Params} {n : Word} (hn : s.regs.zrem = n) (hb : Bounded p s.regs) :
    Bounded p (setBlock (blockLength n p.zblockCap) s).regs :=
  { hb with
    zblk_le_zrem := by
      change (blockLength n p.zblockCap).toNat ≤ s.regs.zrem.toNat
      rw [blockLength_toNat, hn]; exact Nat.min_le_left _ _
    zblk_le_cap := by
      change (blockLength n p.zblockCap).toNat ≤ _
      rw [blockLength_toNat]; exact Nat.min_le_right _ _ }

/-- A new stored block is not empty while data is expected, since the cap is not 0 (R12). -/
theorem settled_setBlock {p : Params} {n : Word} (hp : p.Valid) (hz : s.regs.zstate = .zOpen)
    (hn : s.regs.zrem = n) : Settled (setBlock (blockLength n p.zblockCap) s).regs := by
  refine ⟨fun hi => ?_, fun _ hr he => ?_⟩
  · have : s.regs.zstate = .zIdle := hi
    rw [hz] at this; cases this
  · have hmin : min n.toNat p.zblockCap.toNat = 0 := by
      rw [← blockLength_toNat]; exact congrArg BitVec.toNat he
    have hpos : n.toNat ≠ 0 := fun e => hr (by rw [← hn] at e; exact BitVec.eq_of_toNat_eq e)
    have := hp.2
    omega

/-! ## Every command keeps the invariants -/

theorem inv_of_direct {w : Regs → Regs} (hw : directWrite i = some w) (hl : s.regs.fault = 0#8)
    (hi : s.Inv) (h : exec i s = .next t) : t.Inv := by
  obtain ⟨hb, -, hs⟩ := inv_iff.mp hi
  have hs := hs hl
  have key : Bounded s.params (w s.regs) ∧ Settled (w s.regs) ∧ (w s.regs).fault = s.regs.fault := by
    cases i <;> cases hw
    case adlInit => exact ⟨bounded_adlerInit hb, { hs with }, rfl⟩
    case adlUpdate b => exact ⟨bounded_adlerStep b hb, { hs with }, rfl⟩
    all_goals exact ⟨{ hb with }, { hs with }, rfl⟩
  obtain ⟨hb', hs', hf'⟩ := key
  rcases direct_cases hw hl h with rfl | ⟨d, rfl⟩
  · exact inv_takeFault hb
  · exact inv_respond (inv_of_live (hf'.trans hl) hb' hs')

/-- A run of bytes that reaches its end leaves the block as settled as it was. -/
theorem Paid.inv (h : Paid s t) (hl : s.regs.fault = 0#8) (hi : s.Inv) : t.Inv := by
  obtain ⟨hb, -, hs⟩ := inv_iff.mp hi
  have hb' := h.bounded hb
  obtain ⟨-, n, c, m, hr, -⟩ := h
  refine inv_of_live ?_ hb' ?_
  · rw [hr]; exact hl
  · rw [hr]; exact { hs hl with }

theorem inv_of_writer (hw : writerBytes i = some bs) (hl : s.regs.fault = 0#8) (hi : s.Inv)
    (h : exec i s = .next t) : t.Inv := by
  have hb := (inv_iff.mp hi).1
  rcases writer_cases hw hl h with ⟨-, rfl⟩ | ⟨-, ⟨he, rfl⟩ | ⟨f, u, hs, rfl⟩⟩
  · exact inv_takeFault hb
  · exact inv_respond ((paid_afterPay he).inv hl hi)
  · exact inv_takeFault ((paid_payStops hs).bounded hb)

theorem inv_of_chunkBegin {len : Word} (hl : s.regs.fault = 0#8) (hi : s.Inv)
    (h : exec (.chunkBegin len) s = .next t) : t.Inv := by
  obtain ⟨hb, -, hs⟩ := inv_iff.mp hi
  have hlen : Bounded (declareLength len s).params (declareLength len s).regs :=
    bounded_declareLength len hb
  have hcrc := bounded_startCrc ((counted_afterOut _ (beBytes len 4)).bounded hlen)
  rcases chunkBegin_cases hl h with ⟨-, rfl⟩ | ⟨-, ⟨-, rfl⟩ | ⟨htag, ⟨-, rfl⟩ | ⟨-, ⟨f, u, hu, rfl⟩ |
    ⟨-, ⟨f, u, hu, rfl⟩ | ⟨-, rfl⟩⟩⟩⟩⟩
  · exact inv_takeFault hb
  · exact inv_takeFault hb
  · exact inv_takeFault hb
  · exact inv_takeFault ((counted_outStops hu).bounded hlen)
  · exact inv_takeFault ((countedFolded_foldedStops hu).bounded hcrc)
  · obtain ⟨n, c, hr⟩ := chunkHead_regs len (beBytes len 4) (beBytes s.regs.tag 4) s
    refine inv_respond (inv_of_live ?_ ?_ ?_)
    · rw [hr]; exact hl
    · rw [hr, chunkHead_params]
      exact { hb with ccnt := Nat.zero_le _, cseq := fun _ => cseq_le_of_expectedTag htag }
    · rw [hr]; exact { hs hl with }

theorem inv_of_chunkEnd (hl : s.regs.fault = 0#8) (hi : s.Inv) (h : exec .chunkEnd s = .next t) :
    t.Inv := by
  obtain ⟨hb, -, hs⟩ := inv_iff.mp hi
  rcases chunkEnd_cases hl h with ⟨-, rfl⟩ | ⟨-, ⟨-, rfl⟩ | ⟨-, ⟨f, u, hu, rfl⟩ | ⟨-, rfl⟩⟩⟩
  · exact inv_takeFault hb
  · exact inv_takeFault hb
  · exact inv_takeFault ((counted_outStops hu).bounded hb)
  · obtain ⟨n, hr⟩ := chunkClosed_regs (beBytes (s.regs.crc ^^^ crcOnes) 4) s
    have hp : (closeChunk (s.afterOut (beBytes (s.regs.crc ^^^ crcOnes) 4))).params = s.params :=
      afterOut_params s _
    refine inv_respond (inv_of_live ?_ ?_ ?_)
    · rw [hr]; exact hl
    · rw [hr, hp]; exact { hb with cseq := nofun }
    · rw [hr]; exact { hs hl with }

/-- A stored block that starts ends the command with the invariants met, whatever came before it. -/
theorem inv_startedBlock {p : Params} (hl : s.regs.fault = 0#8) (hb : Bounded s.params s.regs)
    (hp : s.params = p) (hz : s.regs.zstate = .zOpen)
    (he : emitAll payByte bs s = .done (s.afterPay bs)) :
    (setBlock (blockLength s.regs.zrem p.zblockCap) (s.afterPay bs)).Inv := by
  subst hp
  have hb' := (paid_afterPay he).bounded hb
  rw [afterPay_params] at hb'
  have hparams : (setBlock (blockLength s.regs.zrem s.params.zblockCap) (s.afterPay bs)).params
      = s.params := afterPay_params s bs
  refine inv_of_live ((afterPay_fault s bs).trans hl) ?_ ?_
  · rw [hparams]; exact bounded_setBlock (afterPay_zrem s bs) hb'
  · exact settled_setBlock hb.valid ((afterPay_zstate s bs).trans hz) (afterPay_zrem s bs)

theorem inv_of_zBegin {total : Word} (hl : s.regs.fault = 0#8) (hi : s.Inv)
    (h : exec (.zBegin total) s = .next t) : t.Inv := by
  have hb := (inv_iff.mp hi).1
  have hopen : Bounded (openStream total s).params (openStream total s).regs :=
    bounded_openStream total hb
  rcases zBegin_cases hl h with ⟨-, rfl⟩ | ⟨-, ⟨f, u, hu, rfl⟩ | ⟨he, rfl⟩⟩
  · exact inv_takeFault hb
  · exact inv_takeFault ((paid_payStops hu).bounded hopen)
  · exact inv_respond (inv_startedBlock (s := openStream total s) hl hopen rfl rfl he)

theorem inv_of_zData {b : Byte} (hl : s.regs.fault = 0#8) (hi : s.Inv)
    (h : exec (.zData b) s = .next t) : t.Inv := by
  obtain ⟨hb, -, hs⟩ := inv_iff.mp hi
  rcases zData_cases hl h with ⟨-, rfl⟩ | ⟨hz, ⟨-, rfl⟩ | ⟨hrem, ⟨f, u, hu, rfl⟩ | ⟨he, hrest⟩⟩⟩
  · exact inv_takeFault hb
  · exact inv_takeFault hb
  · exact inv_takeFault ((paid_payStops hu).bounded hb)
  have hblk : s.regs.zblk ≠ 0#16 := (hs hl).stream hz hrem
  have htook : Bounded (tookData b (s.afterPay [b])).params (tookData b (s.afterPay [b])).regs :=
    bounded_tookData b (by rwa [afterPay_zblk]) ((paid_afterPay he).bounded hb)
  have hp : (tookData b (s.afterPay [b])).params = s.params := afterPay_params s [b]
  have hf : (tookData b (s.afterPay [b])).regs.fault = 0#8 := (afterPay_fault s [b]).trans hl
  have hz' : (tookData b (s.afterPay [b])).regs.zstate = .zOpen := (afterPay_zstate s [b]).trans hz
  rcases hrest with ⟨hno, rfl⟩ | ⟨-, ⟨f, u, hu, rfl⟩ | ⟨he2, rfl⟩⟩
  · refine inv_respond (inv_of_live hf htook ⟨fun hi => ?_, fun _ hr hk => hno ⟨hk, hr⟩⟩)
    rw [hz'] at hi; cases hi
  · exact inv_takeFault ((paid_payStops hu).bounded htook)
  · exact inv_respond (inv_startedBlock hf htook hp hz' he2)

theorem inv_of_zEnd (hl : s.regs.fault = 0#8) (hi : s.Inv) (h : exec .zEnd s = .next t) : t.Inv := by
  have hb := (inv_iff.mp hi).1
  rcases zEnd_cases hl h with ⟨-, rfl⟩ | ⟨-, ⟨-, rfl⟩ | ⟨hrem, ⟨f, u, hu, rfl⟩ | ⟨he, rfl⟩⟩⟩
  · exact inv_takeFault hb
  · exact inv_takeFault hb
  · exact inv_takeFault ((paid_payStops hu).bounded hb)
  · have hblk : s.regs.zblk = 0#16 := by
      have := hb.zblk_le_zrem
      rw [hrem] at this
      exact BitVec.eq_of_toNat_eq (Nat.le_zero.mp this)
    refine inv_respond (inv_of_live ((afterPay_fault s _).trans hl)
      { (paid_afterPay he).bounded hb with } ⟨fun _ => ⟨?_, ?_⟩, nofun⟩)
    · exact (afterPay_zrem s _).trans hrem
    · exact (afterPay_zblk s _).trans hblk

theorem inv_of_exec (hi : s.Inv) (h : exec i s = .next t) : t.Inv := by
  by_cases hstart : i = .start
  · subst hstart; cases h
    exact inv_respond (inv_of_reset (s := s.resetRegs) (inv_iff.mp hi).1.valid rfl)
  rcases exec_responds_or_runs hstart h with ⟨status, d, rfl⟩ | ⟨hl, hb⟩
  · exact inv_respond hi
  rcases command_classes hb with ⟨w, hw⟩ | ⟨bs, hw⟩ | ⟨len, rfl⟩ | rfl | ⟨total, rfl⟩ | ⟨b, rfl⟩ | rfl
  · exact inv_of_direct hw hl hi h
  · exact inv_of_writer hw hl hi h
  · exact inv_of_chunkBegin hl hi h
  · exact inv_of_chunkEnd hl hi h
  · exact inv_of_zBegin hl hi h
  · exact inv_of_zData hl hi h
  · exact inv_of_zEnd hl hi h

/-- An illegal word only responds, or records its fault (`60_exceptions.md` R232). -/
theorem illegalCommand_cases (s : State) :
    (illegalCommand s = s.respond statusHalted 0#32) ∨ illegalCommand s = s.takeFault .illegalCmd := by
  by_cases hl : s.regs.fault = 0#8
  · exact .inr (runCommand_live hl)
  · exact .inl (runCommand_halted hl)

theorem inv_of_execWord {w : CommandWord} (hi : s.Inv) (h : execWord w s = .next t) : t.Inv := by
  unfold execWord at h
  cases hd : decode w with
  | command i => rw [hd] at h; exact inv_of_exec hi h
  | illegal why =>
    rw [hd] at h; cases h
    rcases illegalCommand_cases s with he | he <;> rw [he]
    · exact inv_respond hi
    · exact inv_takeFault (inv_iff.mp hi).1

theorem inv_of_handle {e : HostEvent} (hi : s.Inv) (h : handle e s = .next t) : t.Inv := by
  have hv := (inv_iff.mp hi).1.valid
  cases e with
  | command w => exact inv_of_execWord hi h
  | reset => cases h; exact inv_of_reset (s := s.resetRegs) hv rfl
  | resetDuring w k =>
    obtain ⟨u, hu⟩ := execWord_next w s
    simp only [handle, execCut, hu] at h
    cases h
    exact inv_of_reset (s := s.cutByReset u k) hv rfl

/-- Settles O41: each command keeps the clauses that hold after every byte, and where it ends without a fault the clauses that hold between commands. -/
theorem stepKeepsInvariant : Obligations.StepKeepsInvariant := by
  intro s t hi h
  unfold step takeEvent at h
  cases he : s.events with
  | nil => rw [he] at h; cases h; exact hi
  | cons e rest => rw [he] at h; exact inv_of_handle (s := { s with events := rest }) hi h

/-- Settles O42. -/
theorem resetMeetsInvariant : Obligations.ResetMeetsInvariant :=
  inv_of_reset (by decide) rfl

end Sys2Proof.Machine

/-! SUPPORT. The values of the registers after reset and in the responses of `RDREG` (`70_reset_and_hazards.md` R270, `45_system_commands.md` R196). -/

namespace Sys2Proof.Machine

/-- A pending reset takes the event and resets the registers, nothing else (`70_reset_and_hazards.md` R270). -/
theorem step_reset {s : State} {rest : List HostEvent} (h : s.events = .reset :: rest) :
    step s = .next ({ s with events := rest } : State).resetRegs := by
  unfold step takeEvent
  rw [h]
  rfl

/-- The numbered registers after reset (R270). -/
theorem read_reset :
    [RegName.status, .ctrl, .tag, .count, .crc, .adler, .clen, .ccnt, .zrem, .zblk].map Regs.reset.read
      = [0#32, 0#32, 0#32, 0#32, 0xFFFFFFFF#32, 1#32, 0#32, 0#32, 0#32, 0#32] := by decide

/-- Settles O5. -/
theorem resetLeavesResetValues : Obligations.ResetLeavesResetValues := by
  intro s rest h
  exact ⟨_, step_reset h, rfl, rfl, rfl, rfl, rfl, rfl, rfl, rfl, rfl, rfl, rfl, rfl, rfl, rfl,
    read_reset, rfl, rfl, rfl, rfl, rfl, rfl, rfl⟩

theorem cstate_bit_toNat (c : CState) : c.bit.toNat = if c = .cOpen then 1 else 0 := by
  cases c <;> rfl

theorem zstate_bit_toNat (z : ZState) : z.bit.toNat = if z = .zOpen then 1 else 0 := by
  cases z <;> rfl

theorem zblk_read_toNat (r : Regs) : (r.read .zblk).toNat = r.zblk.toNat :=
  BitVec.toNat_setWidth_of_le (by decide)

/-- Settles O9. -/
theorem rdregRespondsRegister : Obligations.RdregRespondsRegister := by
  intro s
  refine ⟨⟨s.regs.status, rfl, ?_⟩, rfl, rfl, rfl, rfl, ⟨s.regs.adler, rfl, adler_toNat s.regs⟩,
    rfl, rfl, rfl, ⟨s.regs.read .zblk, rfl, zblk_read_toNat s.regs⟩⟩
  rw [status_toNat, cstate_bit_toNat, zstate_bit_toNat]

end Sys2Proof.Machine

/-! SUPPORT. `COUNT` and `OUT` grow together in normal mode (`10_state.md` R44, `20_memory.md` R76). -/

namespace Sys2Proof.Machine

variable {s t u : State} {i : Instr}

/-- In normal mode what is sent is counted and appended. -/
theorem Sent.count_out {bs : List Byte} {n : Nat} (h : Sent bs n s u) (hm : s.regs.measure = false) :
    u.regs.count.toNat + s.out.length = s.regs.count.toNat + u.out.length := by
  have hout := congrArg List.length h.out
  simp only [hm, Bool.false_eq_true, if_false, List.length_append] at hout
  have := h.count
  omega

theorem Ends.count_out (h : Ends i s t) (hm : s.regs.measure = false) :
    t.regs.count.toNat + s.out.length = s.regs.count.toNat + t.out.length := by
  obtain ⟨bs, n, u, hu, ⟨d, rfl, -⟩ | ⟨f, rfl, -⟩⟩ := h
  · exact hu.count_out hm
  · exact hu.count_out hm

/-- `WRREG` of the two registers that are not `COUNT` leaves `COUNT` and `OUT`. -/
theorem direct_count_out {w : Regs → Regs} (hw : directWrite i = some w) (hc : ∀ v, i ≠ .wrregCount v)
    (hl : s.regs.fault = 0#8) (h : exec i s = .next t) :
    t.regs.count = s.regs.count ∧ t.out = s.out := by
  have key : (w s.regs).count = s.regs.count := by
    cases i <;> cases hw
    case wrregCount v => exact absurd rfl (hc v)
    all_goals rfl
  rcases direct_cases hw hl h with rfl | ⟨d, rfl⟩
  · exact ⟨rfl, rfl⟩
  · exact ⟨key, rfl⟩

/-- Settles O45: a command that runs is direct and leaves both, or it sends bytes, which are counted one by one. -/
theorem countGrowsWithOutput : Obligations.CountGrowsWithOutput := by
  intro i s t hm h hstart hcount
  rcases exec_responds_or_runs hstart h with ⟨status, d, rfl⟩ | ⟨hl, hb⟩
  · rfl
  cases hw : directWrite i with
  | some w =>
    obtain ⟨hc, ho⟩ := direct_count_out hw hcount hl h
    rw [hc, ho]
  | none => exact (ends_of_not_direct hw hl hb h).count_out hm

end Sys2Proof.Machine

/-! SUPPORT. Which commands write which register (`10_state.md` R34 to R46). -/

namespace Sys2Proof.Machine

variable {s t u : State} {bs : List Byte} {f : FaultCode} {i : Instr} {r r' : Regs}

/-- The commands that emit through `Pay`. -/
def EmitsPayload (i : Instr) : Prop :=
  writerBytes i ≠ none ∨ (∃ n, i = .zBegin n) ∨ (∃ b, i = .zData b) ∨ i = .zEnd

/-- The rules' lists of writers, for every register but `FAULT`: what differs from `r` to `r'` is what the command may write. -/
structure Written (i : Instr) (r r' : Regs) : Prop where
  tag : r'.tag ≠ r.tag → ∃ v, i = .wrregTag v
  measure : r'.measure ≠ r.measure → ∃ v, i = .wrregCtrl v
  adler : r'.s1 ≠ r.s1 ∨ r'.s2 ≠ r.s2 →
    i = .adlInit ∨ (∃ b, i = .adlUpdate b) ∨ (∃ n, i = .zBegin n) ∨ ∃ b, i = .zData b
  crc : r'.crc ≠ r.crc →
    i = .crcInit ∨ (∃ b, i = .crcUpdate b) ∨ (∃ l, i = .chunkBegin l)
      ∨ (EmitsPayload i ∧ r.cstate = .cOpen)
  cstate : r'.cstate ≠ r.cstate →
    ((∃ l, i = .chunkBegin l) ∧ r'.cstate = .cOpen) ∨ (i = .chunkEnd ∧ r'.cstate = .cIdle)
  zstate : r'.zstate ≠ r.zstate →
    ((∃ n, i = .zBegin n) ∧ r'.zstate = .zOpen) ∨ (i = .zEnd ∧ r'.zstate = .zIdle)
  cseq : r'.cseq ≠ r.cseq → i = .chunkEnd ∧ r'.cseq = r.cseq + 1#2
  clen : r'.clen ≠ r.clen → i = .chunkBegin r'.clen
  ccnt : r'.ccnt ≠ r.ccnt →
    ((∃ l, i = .chunkBegin l) ∧ r'.ccnt = 0#32) ∨ (EmitsPayload i ∧ r.cstate = .cOpen)
  stream : r'.zrem ≠ r.zrem ∨ r'.zblk ≠ r.zblk → (∃ n, i = .zBegin n) ∨ ∃ b, i = .zData b
  count : r'.count ≠ r.count →
    i = .wrregCount r'.count ∨ EmitsPayload i ∨ (∃ l, i = .chunkBegin l) ∨ i = .chunkEnd

theorem Written.refl (i : Instr) (r : Regs) : Written i r r := by constructor <;> simp

/-- A fault taken at the end writes `FAULT` only. -/
theorem Written.takeFault (h : Written i r u.regs) : Written i r (u.takeFault f).regs := { h with }

theorem Written.of_direct {w : Regs → Regs} (hw : directWrite i = some w) (r : Regs) :
    Written i r (w r) := by
  have same := Written.refl i r
  cases i <;> cases hw
  case wrregCtrl v => exact { same with measure := fun _ => ⟨v, rfl⟩ }
  case wrregTag v => exact { same with tag := fun _ => ⟨v, rfl⟩ }
  case wrregCount v => exact { same with count := fun _ => .inl rfl }
  case crcInit => exact { same with crc := fun _ => .inl rfl }
  case crcUpdate b => exact { same with crc := fun _ => .inr (.inl ⟨b, rfl⟩) }
  case adlInit => exact { same with adler := fun _ => .inl rfl }
  case adlUpdate b => exact { same with adler := fun _ => .inr (.inl ⟨b, rfl⟩) }
  case crcFinal | adlFinal => exact same

/-! ## The framer -/

theorem Written.counted (h : Written i r s.regs) (hi : (∃ l, i = .chunkBegin l) ∨ i = .chunkEnd)
    (hc : Counted s t) : Written i r t.regs := by
  obtain ⟨-, n, hr⟩ := hc
  rw [hr]
  exact { h with count := fun _ => .inr (.inr hi) }

theorem Written.countedFolded {len : Word} (h : Written (.chunkBegin len) r s.regs)
    (hc : CountedFolded s t) : Written (.chunkBegin len) r t.regs := by
  obtain ⟨-, n, c, hr⟩ := hc
  rw [hr]
  exact { h with
    count := fun _ => .inr (.inr (.inl ⟨len, rfl⟩))
    crc := fun _ => .inr (.inr (.inl ⟨len, rfl⟩)) }

theorem written_of_chunkBegin {len : Word} (hl : s.regs.fault = 0#8)
    (h : exec (.chunkBegin len) s = .next t) : Written (.chunkBegin len) s.regs t.regs := by
  have same := Written.refl (.chunkBegin len) s.regs
  have hlen : Written (.chunkBegin len) s.regs (declareLength len s).regs :=
    { same with clen := fun _ => rfl, ccnt := fun _ => .inl ⟨⟨len, rfl⟩, rfl⟩ }
  have hstart : Written (.chunkBegin len) s.regs
      (startCrc ((declareLength len s).afterOut (beBytes len 4))).regs :=
    { hlen.counted (.inl ⟨len, rfl⟩) (counted_afterOut _ _) with
      crc := fun _ => .inr (.inr (.inl ⟨len, rfl⟩)) }
  rcases chunkBegin_cases hl h with ⟨-, rfl⟩ | ⟨-, ⟨-, rfl⟩ | ⟨-, ⟨-, rfl⟩ | ⟨-, ⟨f, u, hu, rfl⟩ |
    ⟨-, ⟨f, u, hu, rfl⟩ | ⟨-, rfl⟩⟩⟩⟩⟩
  · exact same.takeFault
  · exact same.takeFault
  · exact same.takeFault
  · exact (hlen.counted (.inl ⟨len, rfl⟩) (counted_outStops hu)).takeFault
  · exact (hstart.countedFolded (countedFolded_foldedStops hu)).takeFault
  · exact { hstart.countedFolded (countedFolded_afterFolded _ (beBytes s.regs.tag 4)) with
      cstate := fun _ => .inl ⟨⟨len, rfl⟩, rfl⟩ }

theorem written_of_chunkEnd (hl : s.regs.fault = 0#8) (h : exec .chunkEnd s = .next t) :
    Written .chunkEnd s.regs t.regs := by
  have same := Written.refl .chunkEnd s.regs
  rcases chunkEnd_cases hl h with ⟨-, rfl⟩ | ⟨-, ⟨-, rfl⟩ | ⟨-, ⟨f, u, hu, rfl⟩ | ⟨-, rfl⟩⟩⟩
  · exact same.takeFault
  · exact same.takeFault
  · exact (same.counted (.inr rfl) (counted_outStops hu)).takeFault
  · obtain ⟨n, hr⟩ := chunkClosed_regs (beBytes (s.regs.crc ^^^ crcOnes) 4) s
    rw [respond_regs, hr]
    exact { same with
      count := fun _ => .inr (.inr (.inr rfl))
      cstate := fun _ => .inr ⟨rfl, rfl⟩
      cseq := fun _ => ⟨rfl, rfl⟩ }

/-! ## The writer and the wrapper -/

/-- No command that emits through `Pay` writes `CSTATE`. -/
theorem Written.cstate_eq (h : Written i r r') (hp : EmitsPayload i) : r'.cstate = r.cstate := by
  by_contra hne
  rcases h.cstate hne with ⟨⟨l, rfl⟩, -⟩ | ⟨rfl, -⟩ <;> simp [EmitsPayload, writerBytes] at hp

/-- Bytes through `Pay` write `COUNT`, and with a chunk open `CRC` and `CCNT`. -/
theorem Written.paid (h : Written i r s.regs) (hp : EmitsPayload i) (hpaid : Paid s t) :
    Written i r t.regs := by
  obtain ⟨-, n, c, m, hr, hidle, -⟩ := hpaid
  rw [hr]
  have hc := h.cstate_eq hp
  cases hs : s.regs.cstate with
  | cIdle =>
    obtain ⟨rfl, rfl⟩ := hidle hs
    exact { h with count := fun _ => .inr (.inl hp) }
  | cOpen =>
    have ho : EmitsPayload i ∧ r.cstate = .cOpen := ⟨hp, hc ▸ hs⟩
    exact { h with
      count := fun _ => .inr (.inl hp)
      crc := fun _ => .inr (.inr (.inr ho))
      ccnt := fun _ => .inr ho }

theorem written_of_writer (hw : writerBytes i = some bs) (hl : s.regs.fault = 0#8)
    (h : exec i s = .next t) : Written i s.regs t.regs := by
  have hp : EmitsPayload i := .inl (by simp [hw])
  have same := Written.refl i s.regs
  rcases writer_cases hw hl h with ⟨-, rfl⟩ | ⟨-, ⟨he, rfl⟩ | ⟨f, u, hu, rfl⟩⟩
  · exact same.takeFault
  · exact same.paid hp (paid_afterPay he)
  · exact (same.paid hp (paid_payStops hu)).takeFault

theorem Written.setBlock (len : Half) (h : Written i r s.regs)
    (hi : (∃ n, i = .zBegin n) ∨ ∃ b, i = .zData b) :
    Written i r (Machine.setBlock len s).regs :=
  { h with stream := fun _ => hi }

theorem written_of_zBegin {total : Word} (hl : s.regs.fault = 0#8)
    (h : exec (.zBegin total) s = .next t) : Written (.zBegin total) s.regs t.regs := by
  have hp : EmitsPayload (.zBegin total) := .inr (.inl ⟨total, rfl⟩)
  have same := Written.refl (.zBegin total) s.regs
  have hopen : Written (.zBegin total) s.regs (openStream total s).regs :=
    { same with
      adler := fun _ => .inr (.inr (.inl ⟨total, rfl⟩))
      stream := fun _ => .inl ⟨total, rfl⟩
      zstate := fun _ => .inl ⟨⟨total, rfl⟩, rfl⟩ }
  rcases zBegin_cases hl h with ⟨-, rfl⟩ | ⟨-, ⟨f, u, hu, rfl⟩ | ⟨he, rfl⟩⟩
  · exact same.takeFault
  · exact (hopen.paid hp (paid_payStops hu)).takeFault
  · exact (hopen.paid hp (paid_afterPay he)).setBlock _ (.inl ⟨total, rfl⟩)

theorem written_of_zData {b : Byte} (hl : s.regs.fault = 0#8) (h : exec (.zData b) s = .next t) :
    Written (.zData b) s.regs t.regs := by
  have hp : EmitsPayload (.zData b) := .inr (.inr (.inl ⟨b, rfl⟩))
  have same := Written.refl (.zData b) s.regs
  rcases zData_cases hl h with ⟨-, rfl⟩ | ⟨-, ⟨-, rfl⟩ | ⟨-, ⟨f, u, hu, rfl⟩ | ⟨he, hrest⟩⟩⟩
  · exact same.takeFault
  · exact same.takeFault
  · exact (same.paid hp (paid_payStops hu)).takeFault
  have htook : Written (.zData b) s.regs (tookData b (s.afterPay [b])).regs :=
    { same.paid hp (paid_afterPay he) with
      adler := fun _ => .inr (.inr (.inr ⟨b, rfl⟩))
      stream := fun _ => .inr ⟨b, rfl⟩ }
  rcases hrest with ⟨-, rfl⟩ | ⟨-, ⟨f, u, hu, rfl⟩ | ⟨he2, rfl⟩⟩
  · exact htook
  · exact (htook.paid hp (paid_payStops hu)).takeFault
  · exact (htook.paid hp (paid_afterPay he2)).setBlock _ (.inr ⟨b, rfl⟩)

theorem written_of_zEnd (hl : s.regs.fault = 0#8) (h : exec .zEnd s = .next t) :
    Written .zEnd s.regs t.regs := by
  have hp : EmitsPayload .zEnd := .inr (.inr (.inr rfl))
  have same := Written.refl .zEnd s.regs
  rcases zEnd_cases hl h with ⟨-, rfl⟩ | ⟨-, ⟨-, rfl⟩ | ⟨-, ⟨f, u, hu, rfl⟩ | ⟨he, rfl⟩⟩⟩
  · exact same.takeFault
  · exact same.takeFault
  · exact (same.paid hp (paid_payStops hu)).takeFault
  · exact { same.paid hp (paid_afterPay he) with zstate := fun _ => .inr ⟨rfl, rfl⟩ }

/-! ## Every command -/

theorem written_of_exec (hs : i ≠ .start) (h : exec i s = .next t) : Written i s.regs t.regs := by
  rcases exec_responds_or_runs hs h with ⟨status, d, rfl⟩ | ⟨hl, hb⟩
  · exact .refl i s.regs
  rcases command_classes hb with ⟨w, hw⟩ | ⟨bs, hw⟩ | ⟨len, rfl⟩ | rfl | ⟨total, rfl⟩ | ⟨b, rfl⟩ | rfl
  · rcases direct_cases hw hl h with rfl | ⟨d, rfl⟩
    · exact (Written.refl i s.regs).takeFault
    · exact .of_direct hw s.regs
  · exact written_of_writer hw hl h
  · exact written_of_chunkBegin hl h
  · exact written_of_chunkEnd hl h
  · exact written_of_zBegin hl h
  · exact written_of_zData hl h
  · exact written_of_zEnd hl h

/-- A direct command leaves `FAULT`, and its one fault is `BAD_STATE`. -/
theorem directWrite_fault {w : Regs → Regs} (hw : directWrite i = some w) (r : Regs) :
    (w r).fault = r.fault ∧ .badState ∈ raisable i := by
  cases i <;> cases hw <;> simp [raisable, adlerInit, adlerStep]

/-- `FAULT` is written once, with a fault of the command's list (`60_exceptions.md` R236, R247). -/
theorem fault_written (hs : i ≠ .start) (h : exec i s = .next t) (hne : t.regs.fault ≠ s.regs.fault) :
    s.regs.fault = 0#8 ∧ ∃ f ∈ raisable i, t.regs.fault = f.code := by
  rcases exec_responds_or_runs hs h with ⟨status, d, rfl⟩ | ⟨hl, hb⟩
  · exact absurd rfl hne
  refine ⟨hl, ?_⟩
  cases hw : directWrite i with
  | some w =>
    obtain ⟨hf, hbad⟩ := directWrite_fault hw s.regs
    rcases direct_cases hw hl h with rfl | ⟨d, rfl⟩
    · exact ⟨_, hbad, rfl⟩
    · exact absurd hf hne
  | none =>
    obtain ⟨bs, n, u, -, ⟨d, rfl, hf, -⟩ | ⟨f, rfl, hr, -⟩⟩ := ends_of_not_direct hw hl hb h
    · exact absurd hf hne
    · exact ⟨f, hr, rfl⟩

/-- Settles O47: each command's lines write only registers whose list of writers names the command. -/
theorem registersChangeOnlyByTheirWriters : Obligations.RegistersChangeOnlyByTheirWriters := by
  intro i s t h hs payload
  have w := written_of_exec hs h
  exact ⟨w.tag, w.measure, w.adler, w.crc, w.cstate, w.zstate, w.cseq, w.clen, w.ccnt, w.stream,
    w.count, fault_written hs h⟩

end Sys2Proof.Machine

/-! SUPPORT. The block reads neither `OUT` nor the responses nor the other pending events (`10_state.md` R52): putting these behind a state commutes with every command. -/

namespace Sys2Proof.Machine

variable {s t : State} {i : Instr}

/-- The state `s` with the events of `base`, and with what `s` has put out and responded behind what `base` has. -/
def State.onto (base s : State) : State :=
  { s with
    events := base.events
    out := base.out ++ s.out
    responses := base.responses ++ s.responses }

/-- The block alone: its registers, parameters and sink, with nothing pending and nothing put out. -/
def State.bare (s : State) : State := { s with events := [], out := [], responses := [] }

theorem onto_bare (s : State) : s.onto s.bare = s := by
  simp [State.onto, State.bare]

/-- Both ends of a run, put onto a base. -/
def Ran.onto (base : State) : Ran → Ran
  | .done s => .done (base.onto s)
  | .raised f s => .raised f (base.onto s)

/-- Pseudocode that does not read what a base changes. -/
def Blind (k : State → Ran) : Prop := ∀ base s, k (base.onto s) = (k s).onto base

/-! ## The primitives and their composition -/

theorem Blind.andThen {j k : State → Ran} (hj : Blind j) (hk : Blind k) :
    Blind fun s => (j s).andThen k := by
  intro base s
  change (j (base.onto s)).andThen k = ((j s).andThen k).onto base
  rw [hj base s]
  cases j s with
  | done u => exact hk base u
  | raised f u => rfl

theorem Blind.ite {j k : State → Ran} (c : Regs → Prop) [∀ r, Decidable (c r)] (hj : Blind j)
    (hk : Blind k) : Blind fun s => if c s.regs then j s else k s := by
  intro base s
  by_cases h : c s.regs
  · have h' : c (base.onto s).regs := h
    simpa only [h, h', if_true] using hj base s
  · have h' : ¬c (base.onto s).regs := h
    simpa only [h, h', if_false] using hk base s

theorem blind_require (c : Params → Regs → Bool) (f : FaultCode) :
    Blind fun s => require (c s.params s.regs) f s := by
  intro base s
  change require (c s.params s.regs) f (base.onto s) = (require (c s.params s.regs) f s).onto base
  cases c s.params s.regs <;> rfl

theorem blind_sinkAppend (b : Byte) : Blind (sinkAppend b) := by
  intro base s
  unfold sinkAppend
  rw [show (base.onto s).nextAnswer = s.nextAnswer from rfl]
  cases s.nextAnswer with
  | ok => simp [Ran.onto, State.onto, State.sinkAsked]
  | fail => rfl

theorem blind_outByte (b : Byte) : Blind (outByte b) :=
  Blind.ite (fun r => r.count = 0xFFFFFFFF#32) (fun _ _ => rfl)
    (Blind.ite (fun r => r.measure) (fun _ _ => rfl)
      ((blind_sinkAppend b).andThen fun _ _ => rfl))

theorem payByte_cIdle {b : Byte} (h : s.regs.cstate = .cIdle) : payByte b s = outByte b s := by
  simp [payByte, h]

theorem payByte_cOpen {b : Byte} (h : s.regs.cstate = .cOpen) :
    payByte b s = if s.regs.ccnt = s.regs.clen then .raised .chunkOverrun s
      else (outByte b s).andThen fun t => .done (t.folded b).paid := by
  simp [payByte, h]

theorem blind_payByte (b : Byte) : Blind (payByte b) := by
  have hopen : Blind fun s => if s.regs.ccnt = s.regs.clen then .raised .chunkOverrun s
      else (outByte b s).andThen fun t => .done (t.folded b).paid :=
    Blind.ite (fun r => r.ccnt = r.clen) (fun _ _ => rfl) ((blind_outByte b).andThen fun _ _ => rfl)
  intro base s
  cases hs : s.regs.cstate with
  | cIdle => rw [payByte_cIdle hs, payByte_cIdle (s := base.onto s) hs]; exact blind_outByte b base s
  | cOpen => rw [payByte_cOpen hs, payByte_cOpen (s := base.onto s) hs]; exact hopen base s

theorem blind_outFolded (b : Byte) : Blind (outFolded b) := (blind_outByte b).andThen fun _ _ => rfl

theorem blind_emitAll {one : Byte → State → Ran} (h : ∀ b, Blind (one b)) (bs : List Byte) :
    Blind (emitAll one bs) := by
  induction bs with
  | nil => exact fun _ _ => rfl
  | cons b bs ih => exact (h b).andThen ih

theorem blind_startBlock : Blind startBlock := by
  intro base s
  rw [startBlock_eq, startBlock_eq]
  exact ((blind_emitAll blind_payByte _).andThen fun _ _ => rfl) base s

theorem blind_nextBlock : Blind nextBlock :=
  Blind.ite (fun r => r.zblk = 0#16 ∧ r.zrem ≠ 0#32) blind_startBlock fun _ _ => rfl

theorem onto_respond (base s : State) (status : Byte) (d : Word) :
    (base.onto s).respond status d = base.onto (s.respond status d) := by
  simp [State.onto, State.respond]

theorem onto_takeFault (base s : State) (f : FaultCode) :
    (base.onto s).takeFault f = base.onto (s.takeFault f) := by
  simp [State.onto, State.takeFault, State.respond, State.withRegs]

theorem onto_runCommand {body : State → Ran} (data : Word) (h : Blind body) (base s : State) :
    runCommand data body (base.onto s) = base.onto (runCommand data body s) := by
  unfold runCommand
  change (if s.regs.fault = 0#8 then _ else _) = _
  split
  · rw [h]
    cases body s with
    | done u => exact onto_respond base u _ _
    | raised f u => exact onto_takeFault base u f
  · exact onto_respond base s _ _

/-! ## The commands -/

theorem blind_requireNoChunk : Blind requireNoChunk := blind_require (fun _ r => r.cstate = .cIdle) _
theorem blind_requireNoStream : Blind requireNoStream := blind_require (fun _ r => r.zstate = .zIdle) _
theorem blind_requireStream : Blind requireStream := blind_require (fun _ r => r.zstate = .zOpen) _
theorem blind_requireIdle : Blind requireIdle :=
  blind_require (fun _ r => r.cstate = .cIdle ∧ r.zstate = .zIdle) _
theorem blind_requireChunk : Blind requireChunk :=
  blind_require (fun _ r => r.cstate = .cOpen ∧ r.zstate = .zIdle) _

/-- Bytes that are a function of the parameters and the registers. -/
theorem blind_emitOf {one : Byte → State → Ran} (h : ∀ b, Blind (one b))
    (bytes : Params → Regs → List Byte) : Blind fun s => emitAll one (bytes s.params s.regs) s :=
  fun base s => blind_emitAll h (bytes s.params s.regs) base s

theorem blind_emitChunkHead (len : Word) : Blind (emitChunkHead len) := by
  have htags : Blind fun t => (emitAll outFolded (beBytes t.regs.tag 4) (startCrc t)).andThen
      fun u => .done (openChunk u) := fun base t =>
    ((blind_emitAll blind_outFolded (beBytes t.regs.tag 4)).andThen fun _ _ => rfl) base (startCrc t)
  exact fun base s =>
    ((blind_emitAll blind_outByte (beBytes len 4)).andThen htags) base (declareLength len s)

/-- Every command commutes with putting its state onto a base. -/
theorem exec_onto (i : Instr) (base s : State) :
    ∃ t, exec i s = .next t ∧ exec i (base.onto s) = .next (base.onto t) := by
  cases hw : writerBytes i with
  | some bs =>
    refine ⟨_, exec_writer hw s, (exec_writer hw _).trans (congrArg _ ?_)⟩
    exact onto_runCommand _ (blind_requireNoStream.andThen (blind_emitAll blind_payByte bs)) base s
  | none =>
    cases i <;> refine ⟨_, rfl, congrArg Host.Outcome.next ?_⟩
    case writeBe0 | writeBe1 | writeBe2 | writeBe3 | writeBe4 | writeLe0 | writeLe1 | writeLe2 | writeLe3
      | writeLe4 => cases hw
    case start => exact onto_respond base s.resetRegs _ _
    case rdregStatus | rdregCtrl | rdregTag | rdregCount | rdregCrc | rdregAdler | rdregClen
      | rdregCcnt | rdregZrem | rdregZblk => exact onto_respond base _ _ _
    case wrregCtrl | wrregTag | wrregCount =>
      exact onto_runCommand _ (blind_requireIdle.andThen fun _ _ => rfl) base s
    case crcInit | crcUpdate =>
      exact onto_runCommand _ (blind_requireNoChunk.andThen fun _ _ => rfl) base s
    case crcFinal => exact onto_runCommand _ blind_requireNoChunk base s
    case adlInit | adlUpdate =>
      exact onto_runCommand _ (blind_requireNoStream.andThen fun _ _ => rfl) base s
    case adlFinal => exact onto_runCommand _ blind_requireNoStream base s
    case chunkBegin len =>
      refine onto_runCommand _ (blind_requireIdle.andThen ?_) base s
      refine (blind_require (fun _ r => expectedTag r.cseq = some r.tag) _).andThen ?_
      exact (blind_require (fun p _ => len ≤ p.chunkLenMax) _).andThen (blind_emitChunkHead len)
    case chunkEnd =>
      refine onto_runCommand _ (blind_requireChunk.andThen ?_) base s
      refine (blind_require (fun _ r => r.ccnt = r.clen) _).andThen ?_
      exact (blind_emitOf blind_outByte fun _ r => beBytes (r.crc ^^^ crcOnes) 4).andThen
        fun _ _ => rfl
    case zBegin total =>
      have hrest : Blind fun t => (payByte t.params.zhdr1 t).andThen startBlock := fun base t =>
        ((blind_payByte t.params.zhdr1).andThen blind_startBlock) base t
      refine onto_runCommand _ (blind_requireNoStream.andThen fun base t => ?_) base s
      exact ((blind_payByte t.params.zhdr0).andThen hrest) base (openStream total t)
    case zData b =>
      refine onto_runCommand _ (blind_requireStream.andThen ?_) base s
      refine (blind_require (fun _ r => r.zrem ≠ 0#32) _).andThen ?_
      exact (blind_payByte b).andThen fun base t => blind_nextBlock base (tookData b t)
    case zEnd =>
      refine onto_runCommand _ (blind_requireStream.andThen ?_) base s
      refine (blind_require (fun _ r => r.zrem = 0#32) _).andThen ?_
      exact (blind_emitOf blind_payByte fun _ r => beBytes r.adler 4).andThen fun _ _ => rfl

theorem execWord_onto (w : CommandWord) (base s : State) :
    ∃ t, execWord w s = .next t ∧ execWord w (base.onto s) = .next (base.onto t) := by
  unfold execWord
  cases decode w with
  | command i => exact exec_onto i base s
  | illegal why => exact ⟨_, rfl, congrArg _ (onto_runCommand _ (fun _ _ => rfl) base s)⟩

/-! ## One response -/

/-- Every command responds once (`30_encoding.md` R109). -/
theorem exec_responds_once (h : exec i s = .next t) : ∃ r, t.responses = s.responses ++ [r] := by
  by_cases hstart : i = .start
  · subst hstart; cases h; exact ⟨_, rfl⟩
  rcases exec_responds_or_runs hstart h with ⟨status, d, rfl⟩ | ⟨hl, hb⟩
  · exact ⟨_, rfl⟩
  cases hw : directWrite i with
  | some w => rcases direct_cases hw hl h with rfl | ⟨d, rfl⟩ <;> exact ⟨_, rfl⟩
  | none =>
    obtain ⟨bs, n, u, hu, ⟨d, rfl, -⟩ | ⟨f, rfl, -⟩⟩ := ends_of_not_direct hw hl hb h
    · exact ⟨_, congrArg (· ++ _) hu.responses⟩
    · exact ⟨_, congrArg (· ++ _) hu.responses⟩

theorem execWord_responds_once {w : CommandWord} (h : execWord w s = .next t) :
    ∃ r, t.responses = s.responses ++ [r] := by
  unfold execWord at h
  cases hd : decode w with
  | command i => rw [hd] at h; exact exec_responds_once h
  | illegal why =>
    rw [hd] at h; cases h
    rcases illegalCommand_cases s with he | he <;> rw [he] <;> exact ⟨_, rfl⟩

/-- Equal registers, parameters and sink are an equal block. -/
theorem bare_eq {s' : State} (hr : s.regs = s'.regs) (hp : s.params = s'.params)
    (hs : s.sinkScript = s'.sinkScript) (ha : s.asked = s'.asked) : s.bare = s'.bare :=
  state_ext hr hp rfl hs ha rfl rfl

/-- Settles O46: both steps are the step of the bare block, put onto their own outputs. -/
theorem blockIsFunctionOfItsRegisters : Obligations.BlockIsFunctionOfItsRegisters := by
  intro w s s' t t' hr hp hs ha h h'
  obtain ⟨u, hu, hon⟩ := execWord_onto w s s.bare
  obtain ⟨u', hu', hon'⟩ := execWord_onto w s' s'.bare
  rw [onto_bare, h, Host.Outcome.next.injEq] at hon
  rw [onto_bare, h', Host.Outcome.next.injEq] at hon'
  rw [← bare_eq hr hp hs ha, hu, Host.Outcome.next.injEq] at hu'
  subst hon hon' hu'
  obtain ⟨r, hresp⟩ := execWord_responds_once hu
  have hone : u.responses = [r] := hresp
  exact ⟨rfl, rfl, rfl, u.out, r, rfl, rfl, congrArg (s.responses ++ ·) hone,
    congrArg (s'.responses ++ ·) hone⟩

end Sys2Proof.Machine

/-! SUPPORT. A step runs the pending word, and whatever event it takes it only adds to `OUT` and the responses (`20_memory.md` R71, R74). -/

namespace Sys2Proof.Machine

variable {s t : State} {i : Instr}

/-- A pending event is taken from the queue and handled. -/
theorem step_event {e : HostEvent} {rest : List HostEvent} (h : s.events = e :: rest) :
    step s = handle e { s with events := rest } := by
  unfold step takeEvent
  rw [h]

theorem execWord_command {w : CommandWord} (h : decode w = .command i) (s : State) :
    execWord w s = exec i s := by
  unfold execWord
  rw [h]

theorem decode_of_decodeTableWord {nbits w : Nat} (h : decodeTableWord nbits w = some i) :
    decode (tableWord nbits w) = .command i := by
  unfold decodeTableWord at h
  split at h
  · cases hd : decode (tableWord nbits w) with
    | command j => rw [hd] at h; cases h; rfl
    | illegal why => rw [hd] at h; cases h
  · cases h

theorem withFetchWord_events (s : State) (nbits w : Nat) :
    (s.withFetchWord nbits w).events = .command (tableWord nbits w) :: s.events := rfl

/-- Settles O4. -/
theorem stepRunsDecodedCommand : Obligations.StepRunsDecodedCommand := by
  refine ⟨fun s w rest i he hd => ?_, fun s nbits w i hd => ?_⟩
  · exact (step_event he).trans (execWord_command hd _)
  · exact (step_event (withFetchWord_events s nbits w)).trans
      (execWord_command (decode_of_decodeTableWord hd) s)

/-! ## What every event leaves and adds -/

/-- No command writes a parameter: it only responds, makes its one write, or sends bytes. -/
theorem exec_params (h : exec i s = .next t) : t.params = s.params := by
  by_cases hstart : i = .start
  · subst hstart; cases h; rfl
  rcases exec_responds_or_runs hstart h with ⟨status, d, rfl⟩ | ⟨hl, hb⟩
  · rfl
  cases hw : directWrite i with
  | some w => rcases direct_cases hw hl h with rfl | ⟨d, rfl⟩ <;> rfl
  | none =>
    obtain ⟨bs, n, u, hu, ⟨d, rfl, -⟩ | ⟨f, rfl, -⟩⟩ := ends_of_not_direct hw hl hb h
    · exact hu.params
    · exact hu.params

theorem execWord_params {w : CommandWord} (h : execWord w s = .next t) : t.params = s.params := by
  unfold execWord at h
  cases hd : decode w with
  | command i => rw [hd] at h; exact exec_params h
  | illegal why =>
    rw [hd] at h; cases h
    rcases illegalCommand_cases s with he | he <;> rw [he] <;> rfl

/-- From `s` to `t` the logs only grew, and the pending events and the parameters stayed. -/
def Appends (s t : State) : Prop :=
  (∃ appended, t.out = s.out ++ appended) ∧ (∃ answered, t.responses = s.responses ++ answered)
    ∧ t.events = s.events ∧ t.params = s.params

/-- A word's step is the bare block's step put onto the state, so it adds behind the logs. -/
theorem execWord_appends {w : CommandWord} (h : execWord w s = .next t) : Appends s t := by
  obtain ⟨u, -, hon⟩ := execWord_onto w s s.bare
  rw [onto_bare, h, Host.Outcome.next.injEq] at hon
  have hp := execWord_params h
  subst hon
  exact ⟨⟨u.out, rfl⟩, ⟨u.responses, rfl⟩, rfl, hp⟩

/-- A command cut short has appended the first of the bytes the whole command appends (`70_reset_and_hazards.md` R271). -/
theorem cutByReset_appends (h : Appends s t) (k : Nat) : Appends s (s.cutByReset t k) := by
  obtain ⟨⟨appended, ho⟩, -⟩ := h
  refine ⟨⟨appended.take (min k (t.out.length - s.out.length)), ?_⟩, ⟨[], by simp [State.cutByReset]⟩,
    rfl, rfl⟩
  change t.out.take (s.out.length + _) = _
  rw [ho, List.take_length_add_append]

theorem handle_appends (e : HostEvent) (s : State) : ∃ t, handle e s = .next t ∧ Appends s t := by
  cases e with
  | command w =>
    obtain ⟨t, ht⟩ := execWord_next w s
    exact ⟨t, ht, execWord_appends ht⟩
  | reset => exact ⟨s.resetRegs, rfl, ⟨[], by simp⟩, ⟨[], by simp⟩, rfl, rfl⟩
  | resetDuring w k =>
    obtain ⟨t, ht⟩ := execWord_next w s
    exact ⟨s.cutByReset t k, by simp only [handle, execCut, ht],
      cutByReset_appends (execWord_appends ht) k⟩

/-- Settles O43: each kind of event only adds to the logs, the idle step adds nothing. -/
theorem outputIsAppendOnly : Obligations.OutputIsAppendOnly := by
  intro s
  cases he : s.events with
  | nil =>
    refine ⟨s, [], [], ?_, by simp, by simp, he, rfl⟩
    unfold step takeEvent
    rw [he]
  | cons e rest =>
    obtain ⟨t, ht, ⟨appended, ho⟩, ⟨answered, hr⟩, hev, hp⟩ := handle_appends e { s with events := rest }
    exact ⟨t, appended, answered, (step_event he).trans ht, ho, hr, hev, hp⟩

end Sys2Proof.Machine

/-! SUPPORT. Measure mode: bytes are counted and the sink is not asked (`20_memory.md` R76, `45_system_commands.md` R198). -/

namespace Sys2Proof.Machine

variable {s t u : State} {i : Instr}

/-- From `s` to `t` the sink was not asked for anything. -/
def SinkUntouched (s t : State) : Prop :=
  t.out = s.out ∧ t.asked = s.asked ∧ t.sinkScript = s.sinkScript

theorem Sent.sinkUntouched {bs : List Byte} {n : Nat} (h : Sent bs n s u) (hm : s.regs.measure = true) :
    SinkUntouched s u := by
  have hout := h.out
  have hasked := h.asked
  have hscript := h.script
  rw [h.silent hm] at hasked hscript
  rw [hm] at hout
  exact ⟨by simpa using hout, hasked, hscript⟩

/-- A command that is not a direct write, in measure mode: the sink is untouched, its fault is not `SINK_FAIL`, `COUNT` has not fallen. -/
theorem Ends.measure (h : Ends i s t) (hl : s.regs.fault = 0#8) (hm : s.regs.measure = true) :
    SinkUntouched s t ∧ t.regs.fault ≠ FaultCode.sinkFail.code
      ∧ s.regs.count.toNat ≤ t.regs.count.toNat := by
  obtain ⟨bs, n, u, hu, hend⟩ := h
  have hcount : s.regs.count.toNat ≤ u.regs.count.toNat := hu.count ▸ Nat.le_add_right _ _
  rcases hend with ⟨d, rfl, hf, -⟩ | ⟨f, rfl, -, hsink, -⟩
  · refine ⟨hu.sinkUntouched hm, ?_, hcount⟩
    rw [respond_regs, hf, hl]
    exact (code_ne_zero _).symm
  · refine ⟨hu.sinkUntouched hm, fun he => ?_, hcount⟩
    have := hsink (code_injective he)
    rw [hm] at this; cases this

/-- A direct command raises no `SINK_FAIL` and never asks the sink, in either mode. -/
theorem direct_measure {w : Regs → Regs} (hw : directWrite i = some w) (hl : s.regs.fault = 0#8)
    (h : exec i s = .next t) : SinkUntouched s t ∧ t.regs.fault ≠ FaultCode.sinkFail.code := by
  rcases direct_cases hw hl h with rfl | ⟨d, rfl⟩
  · exact ⟨⟨rfl, rfl, rfl⟩, fun he => nomatch code_injective (f := .badState) he⟩
  · refine ⟨⟨rfl, rfl, rfl⟩, ?_⟩
    change (w s.regs).fault ≠ _
    rw [(directWrite_fault hw s.regs).1, hl]
    exact (code_ne_zero _).symm

/-- Settles O44: `START` and a command that only responds leave the sink; a command that runs is direct, or it sends bytes, which measure mode keeps from the sink. -/
theorem measureModeNeverReachesSink : Obligations.MeasureModeNeverReachesSink := by
  intro i s t hm h
  by_cases hstart : i = .start
  · subst hstart; cases h
    exact ⟨rfl, rfl, rfl, fun _ => by rw [respond_regs, resetRegs_regs]; decide,
      fun hne => absurd rfl hne⟩
  rcases exec_responds_or_runs hstart h with ⟨status, d, rfl⟩ | ⟨hl, hb⟩
  · refine ⟨rfl, rfl, rfl, fun hl => ?_, fun _ _ => Nat.le_refl _⟩
    rw [respond_regs, hl]
    decide
  cases hw : directWrite i with
  | some w =>
    obtain ⟨⟨ho, ha, hsc⟩, hf⟩ := direct_measure hw hl h
    exact ⟨ho, ha, hsc, fun _ => hf, fun _ hc => (direct_count_out hw hc hl h).1 ▸ Nat.le_refl _⟩
  | none =>
    obtain ⟨⟨ho, ha, hsc⟩, hf, hle⟩ := (ends_of_not_direct hw hl hb h).measure hl hm
    exact ⟨ho, ha, hsc, fun _ => hf, fun _ _ => hle⟩

end Sys2Proof.Machine

/-! SUPPORT. How a command ends at the byte that stops it: what it did before stays, and the fault is that byte's (`20_memory.md` R76 to R78, `60_exceptions.md` R244, R245, R250). -/

namespace Sys2Proof.Machine

variable {s t u : State} {bs sent unsent : List Byte} {b : Byte} {data : Word} {k : State → Ran}

/-! ## One byte -/

theorem outByte_countFull (b : Byte) (h : s.regs.count = 0xFFFFFFFF#32) :
    outByte b s = .raised .countOverflow s := if_pos h

theorem outByte_sinkFails (b : Byte) (hc : s.regs.count ≠ 0xFFFFFFFF#32) (hm : s.regs.measure = false)
    (ha : s.nextAnswer = .fail) : outByte b s = .raised .sinkFail s.sinkAsked := by
  simp [outByte, sinkAppend, hc, hm, ha]

/-- `Pay` where the payload has room is `Out`, and with a chunk open the fold and the count after it. -/
theorem payByte_of_fits (b : Byte) (h : s.Fits 1) : ∃ k, payByte b s = (outByte b s).andThen k := by
  cases hs : s.regs.cstate with
  | cIdle => exact ⟨.done, by rw [payByte_cIdle hs]; cases outByte b s <;> rfl⟩
  | cOpen =>
    have hne : s.regs.ccnt ≠ s.regs.clen := fun he => by
      rcases h with h | h
      · rw [hs] at h; cases h
      · rw [he] at h; omega
    exact ⟨_, by rw [payByte_cOpen hs, if_neg hne]⟩

/-- A command that has come to a byte for `Out` ends there if the byte is stopped. -/
theorem outByte_stopped (b : Byte) (t : State) (data : Word) (k : State → Ran) :
    t.OutStopped (.next (finish data ((outByte b t).andThen k))) := by
  refine ⟨fun hc => ?_, fun hc hm ha => ?_⟩
  · rw [outByte_countFull b hc]; rfl
  · rw [answerAt_zero] at ha
    rw [outByte_sinkFails b hc hm ha, List.drop_one]
    rfl

/-- A command that has come to a byte for `Pay` ends there if the byte is stopped. -/
theorem payByte_stopped (b : Byte) (t : State) (data : Word) (k : State → Ran) :
    t.PayStopped (.next (finish data ((payByte b t).andThen k))) := by
  refine ⟨fun ⟨ho, hl⟩ => ?_, fun hf => ?_⟩
  · rw [payByte_cOpen ho, if_pos hl]; rfl
  · obtain ⟨j, hj⟩ := payByte_of_fits b hf
    rw [hj, andThen_assoc]
    exact outByte_stopped b t data _

/-! ## A byte within a run -/

/-- A run whose first bytes went out has come to the next one. -/
theorem emitAll_at_byte {one : Byte → State → Ran} (h : emitAll one sent s = .done u) (b : Byte)
    (unsent : List Byte) (k : State → Ran) :
    (emitAll one (sent ++ b :: unsent) s).andThen k
      = (one b u).andThen fun v => (emitAll one unsent v).andThen k := by
  rw [emitAll_append, h, andThen_done, emitAll_cons, andThen_assoc]

theorem emitOut_stopped (ht : s.Takes sent.length) :
    (s.afterOut sent).OutStopped
      (.next (finish data ((emitAll outByte (sent ++ b :: unsent) s).andThen k))) := by
  rw [emitAll_at_byte (emitOut_takes ht)]
  exact outByte_stopped b _ data _

theorem emitFolded_stopped (ht : s.Takes sent.length) :
    (s.afterFolded sent).OutStopped
      (.next (finish data ((emitAll outFolded (sent ++ b :: unsent) s).andThen k))) := by
  rw [emitAll_at_byte (emitFolded_takes ht), outFolded, andThen_assoc]
  exact outByte_stopped b _ data _

theorem emitPay_stopped (ht : s.Takes sent.length) (hf : s.Fits sent.length) :
    (s.afterPay sent).PayStopped
      (.next (finish data ((emitAll payByte (sent ++ b :: unsent) s).andThen k))) := by
  rw [emitAll_at_byte (emitPay_takes ht hf)]
  exact payByte_stopped b _ data _

/-! ## Admitted commands -/

theorem require_holds {c : Bool} {f : FaultCode} (h : c = true) (s : State) : require c f s = .done s :=
  if_pos h

/-- A writer command outside a zlib stream is its run of bytes (`42_byte_order_writer.md` R152, R153). -/
theorem exec_writer_admitted {i : Instr} (hw : writerBytes i = some bs) (hl : s.regs.fault = 0#8)
    (hz : s.regs.zstate = .zIdle) :
    exec i s = .next (finish 0#32 ((emitAll payByte bs s).andThen .done)) := by
  have hr : requireNoStream s = .done s := require_holds (decide_eq_true hz) s
  rw [exec_writer hw, runCommand_live hl, hr, andThen_done]
  cases emitAll payByte bs s <;> rfl

/-- `CHUNK_BEGIN` past its three checks (`43_chunk_framer.md` R163). -/
theorem exec_chunkBegin_admitted {len : Word} (hl : s.regs.fault = 0#8) (hc : s.regs.cstate = .cIdle)
    (hz : s.regs.zstate = .zIdle) (htag : expectedTag s.regs.cseq = some s.regs.tag)
    (hlen : len ≤ s.params.chunkLenMax) :
    exec (.chunkBegin len) s = .next (finish 0#32 (emitChunkHead len s)) := by
  change Host.Outcome.next (runCommand 0#32 _ s) = _
  have hr : requireIdle s = .done s := require_holds (decide_eq_true ⟨hc, hz⟩) s
  rw [runCommand_live hl, hr, andThen_done, require_holds (decide_eq_true htag), andThen_done,
    require_holds (decide_eq_true hlen), andThen_done]

/-- `CHUNK_END` past its two checks (`43_chunk_framer.md` R166). -/
theorem exec_chunkEnd_admitted (hl : s.regs.fault = 0#8) (hc : s.regs.cstate = .cOpen)
    (hz : s.regs.zstate = .zIdle) (hcnt : s.regs.ccnt = s.regs.clen) :
    exec .chunkEnd s = .next (finish 0#32
      ((emitAll outByte (beBytes (s.regs.crc ^^^ crcOnes) 4) s).andThen fun u => .done (closeChunk u))) := by
  change Host.Outcome.next (runCommand 0#32 _ s) = _
  have hr : requireChunk s = .done s := require_holds (decide_eq_true ⟨hc, hz⟩) s
  rw [runCommand_live hl, hr, andThen_done, require_holds (decide_eq_true hcnt), andThen_done]

/-- `Z_BEGIN` past its check (`44_zlib_stored.md` R177). -/
theorem exec_zBegin_admitted (total : Word) (hl : s.regs.fault = 0#8) (hz : s.regs.zstate = .zIdle) :
    exec (.zBegin total) s = .next (finish 0#32
      ((emitAll payByte ([s.params.zhdr0, s.params.zhdr1]
          ++ blockHeader total.toNat s.params.zblockCap.toNat) (openStream total s)).andThen
        fun t => .done (setBlock (blockLength total s.params.zblockCap) t))) := by
  change Host.Outcome.next (runCommand 0#32 _ s) = _
  have hr : requireNoStream s = .done s := require_holds (decide_eq_true hz) s
  rw [runCommand_live hl, hr, andThen_done, zBegin_eq]

/-- `Z_DATA` past its two checks (`44_zlib_stored.md` R179). -/
theorem exec_zData_admitted (b : Byte) (hl : s.regs.fault = 0#8) (hz : s.regs.zstate = .zOpen)
    (hrem : s.regs.zrem ≠ 0#32) :
    exec (.zData b) s
      = .next (finish 0#32 ((payByte b s).andThen fun t => nextBlock (tookData b t))) := by
  change Host.Outcome.next (runCommand 0#32 _ s) = _
  have hr : requireStream s = .done s := require_holds (decide_eq_true hz) s
  rw [runCommand_live hl, hr, andThen_done, require_holds (decide_eq_true hrem), andThen_done]

/-- `Z_END` past its two checks (`44_zlib_stored.md` R180). -/
theorem exec_zEnd_admitted (hl : s.regs.fault = 0#8) (hz : s.regs.zstate = .zOpen)
    (hrem : s.regs.zrem = 0#32) :
    exec .zEnd s = .next (finish 0#32
      ((emitAll payByte (beBytes s.regs.adler 4) s).andThen fun t => .done (closeStream t))) := by
  change Host.Outcome.next (runCommand 0#32 _ s) = _
  have hr : requireStream s = .done s := require_holds (decide_eq_true hz) s
  rw [runCommand_live hl, hr, andThen_done, require_holds (decide_eq_true hrem), andThen_done,
    writeBE_eq]

/-! ## The writer -/

/-- Settles O20: past its check a writer command is one run of `Pay`. -/
theorem writerStopsAtFaultingByte : Obligations.WriterStopsAtFaultingByte := by
  intro i sent b unsent s hw hl hz ht hf
  rw [exec_writer_admitted hw hl hz]
  exact emitPay_stopped ht hf

/-! ## The framer -/

theorem withRegs_withRegs (s : State) (r r' : Regs) : (s.withRegs r).withRegs r' = s.withRegs r' := rfl

/-- `Out` moves `COUNT` alone, so a write of other registers may come before or after it. -/
theorem afterOut_withRegs {r : Regs} (hm : r.measure = s.regs.measure) :
    (s.withRegs r).afterOut bs
      = (s.afterOut bs).withRegs { r with count := r.count + BitVec.ofNat 32 bs.length } := by
  cases h : s.regs.measure <;> simp [State.afterOut, State.withRegs, hm, h]

/-- A byte of two runs in a row is a byte of the first or a byte of the second. -/
theorem append_eq_sent_cons {xs ys : List Byte} (h : xs ++ ys = sent ++ b :: unsent) :
    (∃ rest, xs = sent ++ b :: rest) ∨ ∃ more, sent = xs ++ more ∧ ys = more ++ b :: unsent := by
  rcases List.append_eq_append_iff.mp h with ⟨more, hs, hy⟩ | ⟨rest, hx, hy⟩
  · exact .inr ⟨more, hs, hy⟩
  · cases rest with
    | nil => exact .inr ⟨[], by simpa using hx.symm, hy.symm⟩
    | cons c rest => obtain ⟨rfl, -⟩ := List.cons.inj hy; exact .inl ⟨rest, hx⟩

/-- The state in which `CHUNK_BEGIN` stops at the byte after `sent` (`43_chunk_framer.md` R163). -/
def chunkHeadStopped (len : Word) (sent : List Byte) (s : State) : State :=
  (s.afterOut sent).withRegs { (s.afterOut sent).regs with
    clen := len, ccnt := 0#32
    crc := if sent.length < 4 then s.regs.crc else foldBytes crcOnes (sent.drop 4) }

theorem chunkHeadStopped_of_length (len : Word) (h : sent.length < 4) (s : State) :
    (declareLength len s).afterOut sent = chunkHeadStopped len sent s := by
  simp [declareLength, chunkHeadStopped, afterOut_withRegs, h]

theorem chunkHeadStopped_of_tag (len : Word) {lenBytes : List Byte} (h : lenBytes.length = 4)
    (more : List Byte) (s : State) :
    (startCrc ((declareLength len s).afterOut lenBytes)).afterFolded more
      = chunkHeadStopped len (lenBytes ++ more) s := by
  have hdrop : (lenBytes ++ more).drop 4 = more := by rw [← h, List.drop_left]
  have hlen : ¬(lenBytes ++ more).length < 4 := by rw [List.length_append]; omega
  rw [chunkHeadStopped, hdrop, if_neg hlen, ← afterOut_append]
  simp [State.afterFolded, startCrc, declareLength, afterOut_withRegs, withRegs_withRegs]

/-- `CHUNK_BEGIN` past its checks stops within the length field or within the tag. -/
theorem chunkHead_stopped (len : Word) (ht : s.Takes sent.length)
    (hb : beBytes len 4 ++ beBytes s.regs.tag 4 = sent ++ b :: unsent) :
    (chunkHeadStopped len sent s).OutStopped (.next (finish 0#32 (emitChunkHead len s))) := by
  have hlen := beBytes_length len 4
  unfold emitChunkHead
  rcases append_eq_sent_cons hb with ⟨rest, hx⟩ | ⟨more, rfl, hy⟩
  · have hlt : sent.length < 4 := by
      rw [hx, List.length_append, List.length_cons] at hlen; omega
    rw [← chunkHeadStopped_of_length len hlt s, hx]
    exact emitOut_stopped (s := declareLength len s) ht
  · rw [List.length_append] at ht
    have hd : (declareLength len s).Takes ((beBytes len 4).length + more.length) := ht
    have htag : ((declareLength len s).afterOut (beBytes len 4)).regs.tag = s.regs.tag := by
      simp [declareLength]
    rw [← chunkHeadStopped_of_tag len hlen more s, emitOut_takes (takes_mono hd (by omega)),
      andThen_done, htag, hy]
    exact emitFolded_stopped (s := startCrc _) (takes_afterOut hd)

/-- Settles O25: past its checks each framer command stops within its run of bytes. -/
theorem framerStopsAtFaultingByte : Obligations.FramerStopsAtFaultingByte := by
  intro s sent b unsent hl hz ht
  refine ⟨fun len hc htag hlen hb => ?_, fun hc hcnt hb => ?_⟩
  · rw [exec_chunkBegin_admitted hl hc hz htag hlen]
    exact chunkHead_stopped len ht (by rw [beBytes_four, beBytes_four]; exact hb)
  · rw [exec_chunkEnd_admitted hl hc hz hcnt, beBytes_four, crcOnes, hb]
    exact emitOut_stopped ht

/-! ## The wrapper -/

/-- Taking a data byte and emitting do not read each other's registers. -/
theorem tookData_afterPay (b : Byte) (bs : List Byte) (s : State) :
    tookData b (s.afterPay bs) = (tookData b s).afterPay bs := by
  cases hm : s.regs.measure <;> cases hc : s.regs.cstate <;>
    simp [State.afterPay, State.afterOut, tookData, adlerStep, State.withRegs, hm, hc]

/-- The Adler step by its arithmetic (`41_adler32.md` R141). -/
theorem adlerStep_eq {x y : Half} {r : Regs} (hx : x.toNat = (r.s1.toNat + b.toNat) % 65521)
    (hy : y.toNat = (r.s2.toNat + x.toNat) % 65521) : adlerStep b r = { r with s1 := x, s2 := y } := by
  have h1 : (adlerStep b r).s1 = x := BitVec.eq_of_toNat_eq ((adlerStep_toNat b r).1.trans hx.symm)
  have h2 : (adlerStep b r).s2 = y := BitVec.eq_of_toNat_eq (by rw [(adlerStep_toNat b r).2, hy, ← h1])
  rw [← h1, ← h2]
  rfl

/-- `Z_DATA` whose data byte went out and ended its block, more data being expected, is the run of the next header (`44_zlib_stored.md` R179). -/
theorem exec_zData_header (b : Byte) (hl : s.regs.fault = 0#8) (hz : s.regs.zstate = .zOpen)
    (hblk : s.regs.zblk = 1#16) (hrem : s.regs.zrem ≠ 0#32) (hmore : s.regs.zrem ≠ 1#32)
    (ht : s.Takes 1) (hf : s.Fits 1) :
    exec (.zData b) s = .next (finish 0#32
      ((emitAll payByte (blockHeader (s.regs.zrem.toNat - 1) s.params.zblockCap.toNat)
        ((tookData b s).afterPay [b])).andThen fun t =>
          .done (setBlock (blockLength (s.regs.zrem - 1#32) s.params.zblockCap) t))) := by
  have hrem' : (tookData b s).regs.zrem = s.regs.zrem - 1#32 := rfl
  have hnat : (s.regs.zrem - 1#32).toNat = s.regs.zrem.toNat - 1 := by bv_omega
  have hnext : (tookData b s).regs.zblk = 0#16 ∧ (tookData b s).regs.zrem ≠ 0#32 := by
    refine ⟨?_, by rw [hrem']; bv_omega⟩
    change s.regs.zblk - 1#16 = 0#16
    rw [hblk]; rfl
  rw [exec_zData_admitted b hl hz hrem, payByte_takes ht hf, andThen_done, tookData_afterPay,
    nextBlock, afterPay_zblk, afterPay_zrem, if_pos hnext, startBlock_eq, afterPay_zrem,
    afterPay_params, ← hnat]
  rfl

/-- The trailer is the pair, `S2` above `S1` (`44_zlib_stored.md` R180). -/
theorem adler_beBytes (r : Regs) :
    beBytes r.adler 4 = [BitVec.ofNat 8 (r.s2.toNat / 256), BitVec.ofNat 8 r.s2.toNat,
      BitVec.ofNat 8 (r.s1.toNat / 256), BitVec.ofNat 8 r.s1.toNat] := by
  have h1 := r.s1.isLt
  have hoctet : ∀ k m : Nat, (r.adler.toNat / 256 ^ k) % 256 = m % 256 →
      octet r.adler k = BitVec.ofNat 8 m := fun k m h =>
    BitVec.eq_of_toNat_eq (by simpa only [octet, BitVec.toNat_ofNat] using h)
  rw [beBytes_four, hoctet 3 (r.s2.toNat / 256), hoctet 2 r.s2.toNat, hoctet 1 (r.s1.toNat / 256),
    hoctet 0 r.s1.toNat] <;> rw [adler_toNat] <;> omega

/-- Settles O31: past its checks each wrapper command stops within a run of `Pay`; `Z_DATA` has two, its data byte and the next header. -/
theorem wrapperStopsAtFaultingByte : Obligations.WrapperStopsAtFaultingByte := by
  intro s sent c unsent hl
  refine ⟨fun total hz ht hf hb => ?begin, fun b hz hrem => ⟨?dataByte, ?header⟩,
    fun hz hrem ht hf hb => ?trailer⟩
  case begin =>
    rw [exec_zBegin_admitted total hl hz, hb]
    exact emitPay_stopped (s := openStream total s) ht hf
  case dataByte =>
    rw [exec_zData_admitted b hl hz hrem]
    exact payByte_stopped b s _ _
  case header =>
    intro x y hx hy hblk hmore ht hf hb
    have htook : tookData b s = { s with regs := { s.regs with
        s1 := x, s2 := y, zrem := s.regs.zrem - 1#32, zblk := 0#16 } } := by
      rw [tookData, adlerStep_eq hx hy, hblk]; rfl
    have ht' : (tookData b s).Takes ([b].length + sent.length) := by rw [Nat.add_comm]; exact ht
    have hf' : (tookData b s).Fits ([b].length + sent.length) := by rw [Nat.add_comm]; exact hf
    rw [exec_zData_header b hl hz hblk hrem hmore (takes_mono ht (by omega))
      (fits_mono hf (by omega)), hb, ← htook, show b :: sent = [b] ++ sent from rfl, ← afterPay_append]
    exact emitPay_stopped (takes_afterPay ht') (fits_afterPay hf')
  case trailer =>
    rw [exec_zEnd_admitted hl hz hrem, adler_beBytes, hb]
    exact emitPay_stopped ht hf

end Sys2Proof.Machine

/-! SUPPORT. The decoder as the formats of `30_encoding.md` R101: what it reads from each opcode byte, said once, so that the round trip (R108) and the illegal words (R105) follow from it. -/

namespace Sys2Proof.Machine

variable {op : Nat} {imm : Word} {i : Instr} {w : CommandWord} {d : Decoded}

/-! ## The formats -/

/-- R105 item 1, by group and function: no command has this opcode byte. -/
abbrev NoOpcode (g f : Nat) : Prop :=
  9 ≤ g ∨ (g = 0 ∧ f ≠ 1) ∨ (g = 1 ∧ (f = 0 ∨ 4 ≤ f)) ∨ (g = 2 ∧ 10 ≤ f)
    ∨ ((g = 3 ∨ g = 4 ∨ g = 8) ∧ 3 ≤ f) ∨ (g = 7 ∧ 2 ≤ f) ∨ ((g = 5 ∨ g = 6) ∧ 5 ≤ f)

/-- The opcodes of formats `N` and `RR` (R101, R104). -/
abbrev NoneFormat (g f : Nat) : Prop :=
  (g = 0 ∧ f = 1) ∨ (g = 2 ∧ f ≤ 9) ∨ ((g = 3 ∨ g = 4) ∧ (f = 0 ∨ f = 2))
    ∨ (g = 7 ∧ f = 1) ∨ (g = 8 ∧ f = 2)

/-- The opcodes of format `B` (R101, R104). -/
abbrev ByteFormat (g f : Nat) : Prop := (g = 3 ∨ g = 4 ∨ g = 8) ∧ f = 1

/-- The opcodes whose operand is the whole `imm`, every value of it legal (R101, R104). -/
abbrev WordFormat (g f : Nat) : Prop :=
  (g = 1 ∧ (f = 2 ∨ f = 3)) ∨ ((g = 5 ∨ g = 6) ∧ f ≤ 4) ∨ ((g = 7 ∨ g = 8) ∧ f = 0)

/-- The four items of R105. -/
abbrev IllegalFields (g f v : Nat) : Prop :=
  NoOpcode g f ∨ (NoneFormat g f ∧ v ≠ 0) ∨ (ByteFormat g f ∧ 256 ≤ v) ∨ (g = 1 ∧ f = 1 ∧ 2 ≤ v)

/-- `i` is the well-formed command of this opcode byte and this `imm` (R104, R101). -/
structure HasFields (op : Nat) (imm : Word) (i : Instr) : Prop where
  wellFormed : i.wellFormed = true
  opcode : i.opcode.toNat = op
  immediate : i.immediate = imm

/-- How the decoder reads an opcode byte, format by format. -/
inductive Reads (op : Nat) (imm : Word) : Decoded → Prop where
  | noOpcode (h : NoOpcode (op / 16) (op % 16)) : Reads op imm (.illegal .opcode)
  | noOperand {i : Instr} (h : NoneFormat (op / 16) (op % 16)) (hi : HasFields op 0#32 i) :
      Reads op imm (decodeNone imm i)
  | byteOperand {i : Byte → Instr} (h : ByteFormat (op / 16) (op % 16))
      (hi : ∀ b, HasFields op (b.setWidth 32) (i b)) : Reads op imm (decodeByte imm i)
  | ctrlOperand (h : op = 0x11) : Reads op imm (decodeCtrl imm)
  | wordOperand {i : Instr} (h : WordFormat (op / 16) (op % 16)) (hi : HasFields op imm i) :
      Reads op imm (.command i)

/-- Every row of the opcode map is read as its format says, and what is no row is item 1 of R105. The cases are the rows in their order: `WRREG CTRL`, the three byte rows, no row, the rows with a word operand, and the rest without an operand. -/
theorem decodeFields_reads (op : Nat) (imm : Word) : Reads op imm (decodeFields op imm) := by
  unfold decodeFields
  split
  case h_2 => exact .ctrlOperand rfl
  case h_16 | h_19 | h_34 => exact .byteOperand (by decide) fun b => ⟨rfl, rfl, rfl⟩
  case h_36 =>
    refine .noOpcode ?_
    by_cases hg : 9 ≤ op / 16
    · exact .inl hg
    · have hop : op = 16 * (op / 16) + op % 16 := (Nat.div_add_mod op 16).symm
      generalize op / 16 = g, op % 16 = f at *
      simp only [imp_false] at *
      interval_cases g <;> simp [NoOpcode] <;> omega
  case h_3 | h_4 | h_21 | h_22 | h_23 | h_24 | h_25 | h_26 | h_27 | h_28 | h_29 | h_30 | h_31 | h_33 =>
    exact .wordOperand (by decide) ⟨rfl, rfl, rfl⟩
  all_goals exact .noOperand (by decide) ⟨rfl, rfl, rfl⟩

theorem decode_reads (w : CommandWord) : Reads (opcodeOf w).toNat (immOf w) (decode w) :=
  decodeFields_reads _ _

/-! ## What each format accepts and refuses -/

theorem decodeNone_eq_command {j : Instr} (h : decodeNone imm i = .command j) : imm = 0#32 ∧ i = j := by
  unfold decodeNone at h
  split at h <;> cases h
  exact ⟨‹_›, rfl⟩

theorem decodeByte_eq_command {i : Byte → Instr} {j : Instr} (h : decodeByte imm i = .command j) :
    (imm.setWidth 8).setWidth 32 = imm ∧ i (imm.setWidth 8) = j := by
  unfold decodeByte at h
  split at h <;> cases h
  exact ⟨imm_of_byte ‹_›, rfl⟩

theorem decodeCtrl_eq_command {j : Instr} (h : decodeCtrl imm = .command j) : HasFields 0x11 imm j := by
  unfold decodeCtrl at h
  split at h <;> cases h
  exact ⟨decide_eq_true ‹_›, rfl, rfl⟩

/-- The upper bits of `imm` are 0 exactly when its value fits the bits below. -/
theorem ushiftRight_eq_zero_iff (imm : Word) (k : Nat) : imm >>> k = 0#32 ↔ imm.toNat < 2 ^ k := by
  rw [← BitVec.toNat_inj, BitVec.toNat_ushiftRight, Nat.shiftRight_eq_div_pow]
  exact Nat.div_eq_zero_iff_lt (Nat.two_pow_pos k)

theorem decodeNone_illegal_iff : (∃ why, decodeNone imm i = .illegal why) ↔ imm.toNat ≠ 0 := by
  rw [show imm.toNat ≠ 0 ↔ imm ≠ 0#32 from (BitVec.toNat_inj (y := 0#32)).not]
  unfold decodeNone
  split <;> simp [*]

theorem decodeByte_illegal_iff {i : Byte → Instr} :
    (∃ why, decodeByte imm i = .illegal why) ↔ 256 ≤ imm.toNat := by
  rw [← Nat.not_lt, show imm.toNat < 256 ↔ _ from (ushiftRight_eq_zero_iff imm 8).symm]
  unfold decodeByte
  split <;> simp [*]

theorem decodeCtrl_illegal_iff : (∃ why, decodeCtrl imm = .illegal why) ↔ 2 ≤ imm.toNat := by
  rw [← Nat.not_lt, show imm.toNat < 2 ↔ _ from (ushiftRight_eq_zero_iff imm 1).symm]
  unfold decodeCtrl
  split <;> simp [*]

/-! ## The round trip -/

/-- A command is read only from its own fields. -/
theorem Reads.hasFields (h : Reads op imm (.command i)) : HasFields op imm i := by
  generalize hd : Decoded.command i = d at h
  cases h with
  | noOpcode => cases hd
  | noOperand _ hi =>
    obtain ⟨rfl, rfl⟩ := decodeNone_eq_command hd.symm
    exact hi
  | byteOperand _ hi =>
    obtain ⟨himm, rfl⟩ := decodeByte_eq_command hd.symm
    have hf := hi (imm.setWidth 8)
    rwa [himm] at hf
  | ctrlOperand h =>
    subst h
    exact decodeCtrl_eq_command hd.symm
  | wordOperand _ hi => cases hd; exact hi

/-- A word with the fields of a command is the command's word (R100). -/
theorem HasFields.encode_eq (h : HasFields (opcodeOf w).toNat (immOf w) i) : encode i = w :=
  word_eq_of_fields (by rw [opcodeOf_encode, h.opcode]) (by rw [immOf_encode, h.immediate])

/-- The word of a well-formed command decodes to it; only a checked operand needs an argument of its own. -/
theorem decode_encode_of_wellFormed (i : Instr) : Laws.RoundTrip.Statement i := by
  cases i
  case wrregCtrl v => exact Laws.RoundTrip.wrregCtrl v
  case crcUpdate b => exact Laws.RoundTrip.crcUpdate b
  case adlUpdate b => exact Laws.RoundTrip.adlUpdate b
  case zData b => exact Laws.RoundTrip.zData b
  all_goals exact fun _ => decode_encode _

/-- Settles O2: the family `RoundTrip` one way, the fields the decoder reads the other way. -/
theorem decodeAndEncodeAgree : Obligations.DecodeAndEncodeAgree := by
  refine ⟨decode_encode_of_wellFormed, fun w i hd => ?_⟩
  have hf : HasFields (opcodeOf w).toNat (immOf w) i := (hd ▸ decode_reads w).hasFields
  exact ⟨hf.wellFormed, hf.encode_eq⟩

/-! ## The illegal words -/

/-! The formats exclude each other, so each is illegal by its own item of R105 only. -/

theorem NoneFormat.illegal_iff {g f v : Nat} (h : NoneFormat g f) : IllegalFields g f v ↔ v ≠ 0 := by
  refine ⟨?_, fun hv => .inr (.inl ⟨h, hv⟩)⟩
  rintro (hno | ⟨-, hv⟩ | ⟨hbyte, -⟩ | ⟨hg, hf, -⟩)
  · omega
  · exact hv
  · omega
  · omega

theorem ByteFormat.illegal_iff {g f v : Nat} (h : ByteFormat g f) : IllegalFields g f v ↔ 256 ≤ v := by
  refine ⟨?_, fun hv => .inr (.inr (.inl ⟨h, hv⟩))⟩
  rintro (hno | ⟨hnone, -⟩ | ⟨-, hv⟩ | ⟨hg, hf, -⟩)
  · omega
  · omega
  · exact hv
  · omega

theorem ctrl_illegal_iff {v : Nat} : IllegalFields 1 1 v ↔ 2 ≤ v := by omega

theorem WordFormat.legal {g f v : Nat} (h : WordFormat g f) : ¬IllegalFields g f v := by
  rintro (hno | ⟨hnone, -⟩ | ⟨hbyte, -⟩ | ⟨hg, hf, -⟩) <;> omega

theorem Reads.illegal_iff (h : Reads op imm d) :
    (∃ why, d = .illegal why) ↔ IllegalFields (op / 16) (op % 16) imm.toNat := by
  cases h with
  | noOpcode h => exact iff_of_true ⟨_, rfl⟩ (.inl h)
  | noOperand h => exact decodeNone_illegal_iff.trans h.illegal_iff.symm
  | byteOperand h => exact decodeByte_illegal_iff.trans h.illegal_iff.symm
  | ctrlOperand h => subst h; exact decodeCtrl_illegal_iff.trans ctrl_illegal_iff.symm
  | wordOperand h => exact iff_of_false nofun h.legal

theorem decode_illegal_iff (w : CommandWord) :
    (∃ why, decode w = .illegal why)
      ↔ IllegalFields (groupOf w).toNat (functionOf w).toNat (immOf w).toNat := by
  rw [groupOf_toNat, functionOf_toNat]
  exact (decode_reads w).illegal_iff

theorem execWord_illegal {why : IllegalWord} (h : decode w = .illegal why) (s : State) :
    execWord w s = .next (illegalCommand s) := by
  unfold execWord
  rw [h]

/-- Settles O3: an illegal word is read by no row or refused by its format, and then runs as `illegalCommand`. -/
theorem illegalWordsExactly : Obligations.IllegalWordsExactly := by
  intro w
  refine ⟨decode_illegal_iff w, fun hw s => ?_⟩
  obtain ⟨why, hd⟩ := (decode_illegal_iff w).mpr hw
  rw [execWord_illegal hd]
  exact ⟨fun hl => congrArg _ (runCommand_live hl), fun hl => congrArg _ (runCommand_halted hl)⟩

/-- Settles O1: the decoder computes on fourteen given words. -/
theorem decodeSampleWords : Obligations.DecodeSampleWords := by
  unfold Obligations.DecodeSampleWords
  decide

end Sys2Proof.Machine

/-! SUPPORT. The response to a word: its status, its data, and what `FAULT` records with it (`30_encoding.md` R109, `60_exceptions.md` R231, R236). -/

namespace Sys2Proof.Machine

variable {i : Instr} {s t u : State} {d : Decoded} {data : Word} {f : FaultCode}

/-- The one response from `s` to `t` to a word that decodes to `d`: it says what `FAULT` recorded, and its data is 0 but for the commands that answer a value. -/
def Answers (d : Decoded) (s t : State) : Prop :=
  ∃ r, t.responses = s.responses ++ [r]
    ∧ (r.status = statusOk ∧ (t.regs.fault = s.regs.fault ∨ d = .command .start)
      ∨ r.status = statusHalted ∧ s.regs.fault ≠ 0#8 ∧ t.regs.fault = s.regs.fault
      ∨ ∃ f : FaultCode, r.status = f.code ∧ s.regs.fault = 0#8 ∧ t.regs.fault = f.code)
    ∧ (r.data ≠ 0#32 → r.status = statusOk ∧ ∃ i, d = .command i
        ∧ (i = .crcFinal ∨ i = .adlFinal ∨ (bypassesHalt i = true ∧ i ≠ .start)))

/-! ## The three kinds of response -/

theorem answers_ok (hr : u.responses = s.responses)
    (hf : u.regs.fault = s.regs.fault ∨ i = .start)
    (hd : data ≠ 0#32 → i = .crcFinal ∨ i = .adlFinal ∨ (bypassesHalt i = true ∧ i ≠ .start)) :
    Answers (.command i) s (u.respond statusOk data) :=
  ⟨⟨statusOk, data⟩, congrArg (· ++ _) hr, .inl ⟨rfl, hf.imp_right (congrArg _)⟩,
    fun h => ⟨rfl, i, rfl, hd h⟩⟩

theorem answers_halted (hl : s.regs.fault ≠ 0#8) : Answers d s (s.respond statusHalted 0#32) :=
  ⟨⟨statusHalted, 0#32⟩, rfl, .inr (.inl ⟨rfl, hl, rfl⟩), fun h => absurd rfl h⟩

theorem answers_fault (hl : s.regs.fault = 0#8) (hr : u.responses = s.responses) :
    Answers d s (u.takeFault f) :=
  ⟨⟨f.code, 0#32⟩, congrArg (· ++ _) hr, .inr (.inr ⟨f, rfl, hl, rfl⟩), fun h => absurd rfl h⟩

/-! ## Every command and every word -/

/-- `WRREG`, or one of the commands `exec_ends` speaks of. -/
theorem wrreg_or_ends (i : Instr) :
    (∃ w : Regs → Regs, (∀ r, (w r).fault = r.fault) ∧ ∀ s, exec i s = .next (writeRegister w s))
      ∨ ∀ v, i ≠ .wrregCtrl v ∧ i ≠ .wrregTag v ∧ i ≠ .wrregCount v := by
  cases i
  case wrregCtrl v => exact .inl ⟨fun r => { r with measure := v.getLsbD 0 }, fun _ => rfl, fun _ => rfl⟩
  case wrregTag v => exact .inl ⟨fun r => { r with tag := v }, fun _ => rfl, fun _ => rfl⟩
  case wrregCount v => exact .inl ⟨fun r => { r with count := v }, fun _ => rfl, fun _ => rfl⟩
  all_goals exact .inr fun v => ⟨nofun, nofun, nofun⟩

/-- A command that runs from a state that is not halted answers `OK`, or the fault it takes. -/
theorem exec_answers_live (hl : s.regs.fault = 0#8) (hb : bypassesHalt i = false)
    (h : exec i s = .next t) : Answers (.command i) s t := by
  rcases wrreg_or_ends i with ⟨w, hw, he⟩ | hne
  · rw [he, Host.Outcome.next.injEq] at h
    rcases writeRegister_cases hl h with ⟨-, rfl⟩ | ⟨-, rfl⟩
    · exact answers_fault hl rfl
    · exact answers_ok rfl (.inl (hw s.regs)) fun h => absurd rfl h
  · obtain ⟨bs, n, u, hu, ⟨data, rfl, hf, hd⟩ | ⟨f, rfl, -⟩⟩ := exec_ends hl h hb hne
    · exact answers_ok hu.responses (.inl hf) fun h => (hd h).imp_right .inl
    · exact answers_fault hl hu.responses

theorem exec_answers (h : exec i s = .next t) : Answers (.command i) s t := by
  by_cases hs : i = .start
  · subst hs; cases h
    exact answers_ok (u := s.resetRegs) rfl (.inr rfl) fun h => absurd rfl h
  cases hb : bypassesHalt i with
  | true =>
    obtain ⟨r, hr⟩ := rdreg_responds (s := s) hb hs
    rw [hr] at h; cases h
    exact answers_ok rfl (.inl rfl) fun _ => .inr (.inr ⟨hb, hs⟩)
  | false =>
    by_cases hl : s.regs.fault = 0#8
    · exact exec_answers_live hl hb h
    · rw [exec_halted hl hb] at h; cases h
      exact answers_halted hl

theorem illegalCommand_answers (d : Decoded) (s : State) : Answers d s (illegalCommand s) := by
  by_cases hl : s.regs.fault = 0#8
  · rw [illegalCommand, runCommand_live hl]
    exact answers_fault hl rfl
  · rw [illegalCommand, runCommand_halted hl]
    exact answers_halted hl

theorem execWord_answers (w : CommandWord) (s : State) :
    ∃ t, execWord w s = .next t ∧ Answers (decode w) s t := by
  cases hd : decode w with
  | command i =>
    obtain ⟨t, ht⟩ := exec_next i s
    exact ⟨t, (execWord_command hd s).trans ht, exec_answers ht⟩
  | illegal why => exact ⟨_, execWord_illegal hd s, illegalCommand_answers _ s⟩

/-- Settles O39: `Answers` holds of every word, illegal or decoded. -/
theorem oneResponsePerCommand : Obligations.OneResponsePerCommand := by
  intro w s
  obtain ⟨t, ht, r, hr⟩ := execWord_answers w s
  exact ⟨t, r, ht, hr⟩

end Sys2Proof.Machine

/-! SUPPORT. The CRC engine (`40_crc32.md`): the byte step as eight division steps, which are linear and lose nothing, and the direct commands as the byte step on the accumulator. -/

namespace Sys2Proof.Machine

variable {s t : State} {i : Instr} {is : List Instr} {x c d : Word} {a b : Byte}

/-! ## Several division steps -/

theorem crcStep_iterate_xor (n : Nat) (x y : Word) :
    crcStep^[n] (x ^^^ y) = crcStep^[n] x ^^^ crcStep^[n] y := by
  induction n with
  | zero => rfl
  | succ n ih => simp only [Function.iterate_succ_apply', ih, crcStep_xor]

/-- While the bits shifted out are 0 the polynomial is never applied: the steps are a shift. -/
theorem crcStep_iterate_eq_shift {n : Nat} (h : ∀ i < n, x.getLsbD i = false) :
    crcStep^[n] x = x >>> n := by
  induction n with
  | zero => rw [Function.iterate_zero_apply, BitVec.ushiftRight_zero]
  | succ n ih =>
    have hbit : x.getLsbD n = false := h n (Nat.lt_succ_self n)
    rw [Function.iterate_succ_apply', ih fun i hi => h i (Nat.lt_succ_of_lt hi), crcStep,
      if_neg (by simp [hbit]), BitVec.shiftRight_add]

theorem lowByte_xor_rest (x : Word) : (x.setWidth 8).setWidth 32 ^^^ (x >>> 8 <<< 8) = x := by
  ext i hi
  by_cases h8 : i < 8
  · simp [h8, BitVec.getLsbD_eq_getElem hi]
  · simp [h8, BitVec.getLsbD_eq_getElem hi, Nat.add_sub_cancel' (Nat.le_of_not_lt h8)]

theorem rest_ushiftRight (x : Word) : (x >>> 8 <<< 8) >>> 8 = x >>> 8 := by
  ext i hi
  simpa using BitVec.lt_of_getLsbD

/-- Eight division steps: the table entry takes those of the low byte, and those of the rest are the shift. -/
theorem crcStep_iterate_eight (x : Word) : crcStep^[8] x = crcTable (x.setWidth 8) ^^^ (x >>> 8) := by
  have hrest : crcStep^[8] (x >>> 8 <<< 8) = x >>> 8 := by
    rw [crcStep_iterate_eq_shift fun i hi => by simp [hi], rest_ushiftRight]
  calc crcStep^[8] x = crcStep^[8] ((x.setWidth 8).setWidth 32 ^^^ (x >>> 8 <<< 8)) := by
        rw [lowByte_xor_rest]
    _ = crcTable (x.setWidth 8) ^^^ (x >>> 8) := by rw [crcStep_iterate_xor, hrest]; rfl

/-! ## The byte step -/

/-- Eight division steps with a word exclusive-ored in fold its low byte; its other bytes are still to come. -/
theorem crcStep_iterate_eight_xor (c v : Word) :
    crcStep^[8] (c ^^^ v) = fold c (v.setWidth 8) ^^^ (v >>> 8) := by
  rw [crcStep_iterate_eight, fold, BitVec.setWidth_xor, BitVec.ushiftRight_xor_distrib,
    BitVec.xor_assoc]

theorem fold_eq_crcStep_iterate (c : Word) (b : Byte) :
    fold c b = crcStep^[8] (c ^^^ b.setWidth 32) := by
  rw [crcStep_iterate_eight_xor, byte_of_imm, byte_fits, BitVec.xor_zero]

/-- Settles O12: the statement's division step is `crcStep`. -/
theorem foldIsBitSerialDivision : Obligations.FoldIsBitSerialDivision :=
  fold_eq_crcStep_iterate

/-- The byte step loses nothing of the accumulator with the byte exclusive-ored in. -/
theorem fold_eq_fold_iff : fold c a = fold d b ↔ c ^^^ a.setWidth 32 = d ^^^ b.setWidth 32 := by
  rw [fold_eq_crcStep_iterate, fold_eq_crcStep_iterate]
  exact (crcStep_injective.iterate 8).eq_iff

theorem fold_injective_left (b : Byte) : Function.Injective (fold · b) := fun _ _ h =>
  (BitVec.xor_left_inj _).mp (fold_eq_fold_iff.mp h)

theorem fold_injective_right (c : Word) : Function.Injective (fold c) := fun a b h => by
  have hw : a.setWidth 32 = b.setWidth 32 := (BitVec.xor_right_inj _).mp (fold_eq_fold_iff.mp h)
  rw [← byte_of_imm a, hw, byte_of_imm]

/-! ## Sequences of bytes -/

theorem foldBytes_cons (c : Word) (b : Byte) (bs : List Byte) :
    foldBytes c (b :: bs) = foldBytes (fold c b) bs := rfl

theorem foldBytes_injective (bs : List Byte) : Function.Injective (foldBytes · bs) := by
  induction bs with
  | nil => exact fun _ _ h => h
  | cons b bs ih => exact ih.comp (fold_injective_left b)

/-- Settles O14: the accumulators differ at the changed byte, and no byte after it brings them together. -/
theorem crc32DetectsOneChangedByte : Obligations.Crc32DetectsOneChangedByte := by
  intro before after a b hne h
  have hacc := (BitVec.xor_left_inj _).mp h
  rw [foldBytes_append, foldBytes_append, foldBytes_cons, foldBytes_cons] at hacc
  exact hne (fold_injective_right _ (foldBytes_injective after hacc))

theorem leBytes_four (v : Word) : leBytes v 4 = [octet v 0, octet v 1, octet v 2, octet v 3] := by
  simp [leBytes, byteAt_eq_octet]

/-- Division with a word exclusive-ored in folds the word's bytes, low byte first; the bytes above are still to come. -/
theorem crcStep_iterate_xor_eq_foldBytes (c v : Word) (n : Nat) :
    crcStep^[8 * n] (c ^^^ v) = foldBytes c (leBytes v n) ^^^ (v >>> (8 * n)) := by
  induction n with
  | zero => simp [leBytes, foldBytes]
  | succ n ih =>
    rw [Nat.mul_succ, Nat.add_comm, Function.iterate_add_apply, ih, crcStep_iterate_eight_xor,
      ← BitVec.shiftRight_add, Nat.add_comm, leBytes, foldBytes_append]
    rfl

theorem foldBytes_leBytes_four (c v : Word) :
    foldBytes c (leBytes v 4) = crcStep^[32] (c ^^^ v) := by
  rw [crcStep_iterate_xor_eq_foldBytes c v 4, BitVec.ushiftRight_eq_zero (le_refl 32), BitVec.xor_zero]

/-- All ones divided over 32 steps: the residue of `95_test_vectors.md` section 2.1. -/
theorem crcStep_iterate_crcOnes : crcStep^[32] crcOnes = 0xDEBB20E3#32 := by decide +kernel

/-- Settles O15: the sequence's accumulator and its `Crc32` exclusive-or to all ones, whatever the sequence. -/
theorem crc32Residue : Obligations.Crc32Residue := by
  intro bs
  have hones : foldBytes crcOnes bs ^^^ crc32 bs = crcOnes := by
    rw [crc32, ← BitVec.xor_assoc, BitVec.xor_self, BitVec.zero_xor]
  rw [foldBytes_append, ← leBytes_four, foldBytes_leBytes_four, ← crcOnes, hones,
    crcStep_iterate_crcOnes]

/-! ## The direct commands -/

theorem requireNoChunk_cIdle (hc : s.regs.cstate = .cIdle) : requireNoChunk s = .done s :=
  require_holds (decide_eq_true hc) s

theorem requireNoChunk_cOpen (hc : s.regs.cstate = .cOpen) :
    requireNoChunk s = .raised .badState s := by
  simp [requireNoChunk, require, hc]

theorem exec_crcInit_admitted (hl : s.regs.fault = 0#8) (hc : s.regs.cstate = .cIdle) :
    exec .crcInit s = .next ((startCrc s).respond statusOk 0#32) := by
  change Host.Outcome.next (runCommand 0#32 _ s) = _
  rw [runCommand_live hl, requireNoChunk_cIdle hc]
  rfl

theorem exec_crcUpdate_admitted (b : Byte) (hl : s.regs.fault = 0#8) (hc : s.regs.cstate = .cIdle) :
    exec (.crcUpdate b) s = .next ((s.folded b).respond statusOk 0#32) := by
  change Host.Outcome.next (runCommand 0#32 _ s) = _
  rw [runCommand_live hl, requireNoChunk_cIdle hc]
  rfl

theorem exec_crcFinal_admitted (hl : s.regs.fault = 0#8) (hc : s.regs.cstate = .cIdle) :
    exec .crcFinal s = .next (s.respond statusOk (s.regs.crc ^^^ crcOnes)) := by
  change Host.Outcome.next (runCommand _ requireNoChunk s) = _
  rw [runCommand_live hl, requireNoChunk_cIdle hc]
  rfl

/-- A body that its check stops before its first line, from a state that is not halted (`60_exceptions.md` R241). -/
theorem runCommand_badState {body : State → Ran} (data : Word) (hl : s.regs.fault = 0#8)
    (hb : body s = .raised .badState s) : runCommand data body s = s.takeFault .badState := by
  rw [runCommand_live hl, hb]
  rfl

/-- Settles O11: with no chunk open each command runs its pseudocode, with one its check stops it. -/
theorem crcCommandsEffect : Obligations.CrcCommandsEffect := by
  intro s b hl
  refine ⟨fun hc => ⟨exec_crcInit_admitted hl hc, exec_crcUpdate_admitted b hl hc,
    exec_crcFinal_admitted hl hc⟩, fun hc => ?_⟩
  have hopen := requireNoChunk_cOpen hc
  have hstop : ∀ k, (requireNoChunk s).andThen k = .raised .badState s := fun k => by rw [hopen]; rfl
  exact ⟨congrArg _ (runCommand_badState _ hl (hstop _)),
    congrArg _ (runCommand_badState _ hl (hstop _)), congrArg _ (runCommand_badState _ hl hopen)⟩

/-! ## Runs of direct commands -/

theorem execAll_cons_of_next (h : exec i s = .next t) : execAll (i :: is) s = execAll is t := by
  rw [execAll, h]

/-- The state once one `CRC_UPDATE` per byte has run: the bytes folded in order, each answered `OK` (R133). -/
def State.afterCrcUpdates (s : State) (bs : List Byte) : State :=
  { s with
    regs := { s.regs with crc := foldBytes s.regs.crc bs }
    responses := s.responses ++ List.replicate bs.length { status := statusOk, data := 0#32 } }

theorem afterCrcUpdates_nil (s : State) : s.afterCrcUpdates [] = s := by
  simp [State.afterCrcUpdates, foldBytes]

theorem afterCrcUpdates_cons (s : State) (b : Byte) (bs : List Byte) :
    ((s.folded b).respond statusOk 0#32).afterCrcUpdates bs = s.afterCrcUpdates (b :: bs) := by
  simp [State.afterCrcUpdates, State.folded, foldBytes_cons, List.replicate_succ, State.respond,
    State.withRegs]

theorem execAll_crcUpdate (bs : List Byte) (hl : s.regs.fault = 0#8) (hc : s.regs.cstate = .cIdle) :
    execAll (bs.map .crcUpdate) s = some (s.afterCrcUpdates bs) := by
  induction bs generalizing s with
  | nil => rw [afterCrcUpdates_nil]; rfl
  | cons b bs ih =>
    rw [List.map_cons, execAll_cons_of_next (exec_crcUpdate_admitted b hl hc), ← afterCrcUpdates_cons]
    exact ih hl hc

/-- Settles O13: the first command starts the accumulator, the ones between fold the bytes, the last answers it. -/
theorem crcEngineComputesCrc32 : Obligations.CrcEngineComputesCrc32 := by
  intro s bs hl hc
  have hupdates := execAll_crcUpdate (s := (startCrc s).respond statusOk 0#32) bs hl hc
  have hfinal := exec_crcFinal_admitted
    (s := ((startCrc s).respond statusOk 0#32).afterCrcUpdates bs) hl hc
  rw [List.append_assoc, List.singleton_append, execAll_cons_of_next (exec_crcInit_admitted hl hc),
    execAll_append, hupdates, Option.bind_some, execAll_cons_of_next hfinal, execAll]
  simp [State.afterCrcUpdates, State.respond, startCrc, State.withRegs, List.replicate_succ,
    statusOk, crcOnes, crc32]

end Sys2Proof.Machine

/-! SUPPORT. The Adler engine (`41_adler32.md`): the two sums of a sequence modulo 65521, however often they are reduced, and the direct commands as the Adler step on the pair. -/

namespace Sys2Proof.Machine

variable {s : State}

/-! ## The sums of a sequence -/

/-- One Adler step on the residues (`41_adler32.md` R141). -/
theorem adlerStep_modEq (b : Byte) (r : Regs) :
    (adlerStep b r).s1.toNat ≡ r.s1.toNat + b.toNat [MOD 65521]
      ∧ (adlerStep b r).s2.toNat ≡ r.s2.toNat + (r.s1.toNat + b.toNat) [MOD 65521] := by
  obtain ⟨h1, h2⟩ := adlerStep_toNat b r
  have hs1 : (adlerStep b r).s1.toNat ≡ r.s1.toNat + b.toNat [MOD 65521] := by
    rw [h1]; exact Nat.mod_modEq _ _
  exact ⟨hs1, by rw [h2]; exact (Nat.mod_modEq _ _).trans (hs1.add_left _)⟩

theorem adlerBytes_cons (r : Regs) (b : Byte) (bs : List Byte) :
    adlerBytes r (b :: bs) = adlerBytes (adlerStep b r) bs := rfl

/-- The bytes, each as often as the second sum takes it: the last once, the first once for each byte. -/
def weightedSum (bs : List Byte) : Nat :=
  (bs.zipIdx.map fun x => (bs.length - x.2) * x.1.toNat).sum

theorem weightedSum_cons (b : Byte) (bs : List Byte) :
    weightedSum (b :: bs) = (bs.length + 1) * b.toNat + weightedSum bs := by
  rw [weightedSum, List.zipIdx_cons']
  simp [weightedSum, Function.comp_def]

/-- The first sum takes each byte once, whatever was reduced on the way. -/
theorem adlerBytes_s1_modEq (r : Regs) (bs : List Byte) :
    (adlerBytes r bs).s1.toNat ≡ r.s1.toNat + (bs.map fun b => b.toNat).sum [MOD 65521] := by
  induction bs generalizing r with
  | nil => rfl
  | cons b bs ih =>
    obtain ⟨h1, -⟩ := adlerStep_modEq b r
    rw [adlerBytes_cons, List.map_cons, List.sum_cons, ← Nat.add_assoc]
    exact (ih _).trans (h1.add_right _)

/-- The second sum takes the first sum's start once for each byte, and each byte as `weightedSum` says. -/
theorem adlerBytes_s2_modEq (r : Regs) (bs : List Byte) :
    (adlerBytes r bs).s2.toNat
      ≡ r.s2.toNat + bs.length * r.s1.toNat + weightedSum bs [MOD 65521] := by
  induction bs generalizing r with
  | nil => simp [adlerBytes, weightedSum, Nat.ModEq.refl]
  | cons b bs ih =>
    obtain ⟨h1, h2⟩ := adlerStep_modEq b r
    calc (adlerBytes r (b :: bs)).s2.toNat
        ≡ (adlerStep b r).s2.toNat + bs.length * (adlerStep b r).s1.toNat + weightedSum bs
          [MOD 65521] := ih _
      _ ≡ r.s2.toNat + (r.s1.toNat + b.toNat) + bs.length * (r.s1.toNat + b.toNat) + weightedSum bs
          [MOD 65521] := (h2.add (h1.mul_left _)).add_right _
      _ = r.s2.toNat + (b :: bs).length * r.s1.toNat + weightedSum (b :: bs) := by
        rw [weightedSum_cons, List.length_cons]; ring

/-- The pair stays reduced. -/
theorem bounded_adlerBytes {p : Params} {r : Regs} (bs : List Byte) (hb : Bounded p r) :
    Bounded p (adlerBytes r bs) := by
  induction bs generalizing r with
  | nil => exact hb
  | cons b bs ih => exact ih (bounded_adlerStep b hb)

/-- Settles O17: both sums stay reduced, so each is the remainder of its closed form. -/
theorem adler32ClosedForm : Obligations.Adler32ClosedForm := by
  intro bs
  have hb := bounded_adlerBytes bs
    (bounded_adlerInit (bounded_reset (p := State.reset.params) (by decide)))
  have h1 := adlerBytes_s1_modEq (adlerInit Regs.reset) bs
  have h2 := adlerBytes_s2_modEq (adlerInit Regs.reset) bs
  have hstart : (adlerInit Regs.reset).s2.toNat + bs.length * (adlerInit Regs.reset).s1.toNat
      = bs.length := by simp [adlerInit]
  rw [hstart] at h2
  rw [adler32, adler_toNat, ← Nat.mod_eq_of_modEq h1.symm hb.s1, ← Nat.mod_eq_of_modEq h2.symm hb.s2]
  rfl

/-! ## The direct commands -/

theorem requireNoStream_zIdle (hz : s.regs.zstate = .zIdle) : requireNoStream s = .done s :=
  require_holds (decide_eq_true hz) s

theorem requireNoStream_zOpen (hz : s.regs.zstate = .zOpen) :
    requireNoStream s = .raised .badState s := by
  simp [requireNoStream, require, hz]

/-- A body of one register write, admitted outside a stream (`60_exceptions.md` R241). -/
theorem runCommand_write_noStream (w : Regs → Regs) (hl : s.regs.fault = 0#8)
    (hz : s.regs.zstate = .zIdle) :
    runCommand 0#32 (fun t => (requireNoStream t).andThen fun u => .done (u.withRegs (w u.regs))) s
      = (s.withRegs (w s.regs)).respond statusOk 0#32 := by
  rw [runCommand_live hl, requireNoStream_zIdle hz]
  rfl

theorem exec_adlInit_admitted (hl : s.regs.fault = 0#8) (hz : s.regs.zstate = .zIdle) :
    exec .adlInit s = .next ((s.withRegs (adlerInit s.regs)).respond statusOk 0#32) :=
  congrArg _ (runCommand_write_noStream adlerInit hl hz)

theorem exec_adlUpdate_admitted (b : Byte) (hl : s.regs.fault = 0#8) (hz : s.regs.zstate = .zIdle) :
    exec (.adlUpdate b) s = .next ((s.withRegs (adlerStep b s.regs)).respond statusOk 0#32) :=
  congrArg _ (runCommand_write_noStream (adlerStep b) hl hz)

theorem exec_adlFinal_admitted (hl : s.regs.fault = 0#8) (hz : s.regs.zstate = .zIdle) :
    exec .adlFinal s = .next (s.respond statusOk s.regs.adler) := by
  change Host.Outcome.next (runCommand _ requireNoStream s) = _
  rw [runCommand_live hl, requireNoStream_zIdle hz]
  rfl

/-- Settles O16: with no stream open each command runs its pseudocode, with one its check stops it. -/
theorem adlerCommandsEffect : Obligations.AdlerCommandsEffect := by
  intro s b hl
  refine ⟨fun hz => ⟨exec_adlInit_admitted hl hz, ?update, s.regs.adler, adler_toNat _,
    exec_adlFinal_admitted hl hz⟩, fun hz => ?stopped⟩
  case update =>
    obtain ⟨h1, h2⟩ := adlerStep_toNat b s.regs
    exact ⟨_, _, h1, h2, exec_adlUpdate_admitted b hl hz⟩
  case stopped =>
    have hopen := requireNoStream_zOpen hz
    have hstop : ∀ k, (requireNoStream s).andThen k = .raised .badState s := fun k => by
      rw [hopen]; rfl
    exact ⟨congrArg _ (runCommand_badState _ hl (hstop _)),
      congrArg _ (runCommand_badState _ hl (hstop _)), congrArg _ (runCommand_badState _ hl hopen)⟩

/-! ## Runs of direct commands -/

/-- A sequence changes the pair only. -/
theorem adlerBytes_frame (r : Regs) (bs : List Byte) :
    adlerBytes r bs = { r with s1 := (adlerBytes r bs).s1, s2 := (adlerBytes r bs).s2 } := by
  induction bs generalizing r with
  | nil => rfl
  | cons b bs ih => exact ih (adlerStep b r)

/-- The pair's start does not depend on the registers before it, so the engine's pair packs to `Adler32` (R145). -/
theorem adler_adlerBytes_adlerInit (r : Regs) (bs : List Byte) :
    (adlerBytes (adlerInit r) bs).adler = adler32 bs := by
  obtain ⟨h1, h2⟩ :=
    adlerBytes_congr bs (r := adlerInit r) (r' := adlerInit Regs.reset) rfl rfl
  rw [adler32, Regs.adler, Regs.adler, h1, h2]

/-- One `ADL_UPDATE` per byte, then `ADL_FINAL`: the pair is stepped in order and answered packed (R143, R144). -/
theorem execAll_adlUpdate_adlFinal (bs : List Byte) (hl : s.regs.fault = 0#8)
    (hz : s.regs.zstate = .zIdle) :
    execAll (bs.map .adlUpdate ++ [.adlFinal]) s
      = some { s with
          regs := adlerBytes s.regs bs
          responses := s.responses ++ List.replicate bs.length { status := statusOk, data := 0#32 }
            ++ [{ status := statusOk, data := (adlerBytes s.regs bs).adler }] } := by
  induction bs generalizing s with
  | nil =>
    rw [List.map_nil, List.nil_append, execAll_cons_of_next (exec_adlFinal_admitted hl hz), execAll]
    simp [State.respond, adlerBytes]
  | cons b bs ih =>
    have hrest := ih (s := (s.withRegs (adlerStep b s.regs)).respond statusOk 0#32) hl hz
    rw [List.map_cons, List.cons_append, execAll_cons_of_next (exec_adlUpdate_admitted b hl hz), hrest]
    simp [State.respond, State.withRegs, adlerBytes_cons, List.replicate_succ]

/-- Settles O18: the first command starts the pair, the ones between step it, the last answers it packed. -/
theorem adlerEngineComputesAdler32 : Obligations.AdlerEngineComputesAdler32 := by
  intro s bs hl hz
  have hregs := adlerBytes_frame (adlerInit s.regs) bs
  have hrest := execAll_adlUpdate_adlFinal
    (s := (s.withRegs (adlerInit s.regs)).respond statusOk 0#32) bs hl hz
  refine ⟨(adlerBytes (adlerInit s.regs) bs).s1, (adlerBytes (adlerInit s.regs) bs).s2, ?_⟩
  rw [List.append_assoc, List.singleton_append, execAll_cons_of_next (exec_adlInit_admitted hl hz), hrest]
  simp only [respond_regs, withRegs_regs, adler_adlerBytes_adlerInit]
  rw [hregs]
  simp [State.respond, State.withRegs, adlerInit, List.replicate_succ, statusOk]

end Sys2Proof.Machine

/-! SUPPORT. `Z_DATA` that runs to its end (`44_zlib_stored.md` R178, R179). -/

namespace Sys2Proof.Machine

variable {s : State}

/-- Writing `ZBLK` and emitting do not read each other's registers. -/
theorem setBlock_afterPay (len : Half) (bs : List Byte) (s : State) :
    setBlock len (s.afterPay bs) = (setBlock len s).afterPay bs := by
  cases hm : s.regs.measure <;> cases hc : s.regs.cstate <;>
    simp [State.afterPay, State.afterOut, setBlock, State.withRegs, hm, hc]

/-- `Z_DATA` whose data byte went out inside its block or ended the data: no header follows (R179). -/
theorem exec_zData_noHeader (b : Byte) (hl : s.regs.fault = 0#8) (hz : s.regs.zstate = .zOpen)
    (hrem : s.regs.zrem ≠ 0#32) (hno : s.regs.zblk ≠ 1#16 ∨ s.regs.zrem = 1#32)
    (ht : s.Takes 1) (hf : s.Fits 1) :
    exec (.zData b) s = .next (((tookData b s).afterPay [b]).respond statusOk 0#32) := by
  have hnext : ¬((tookData b s).regs.zblk = 0#16 ∧ (tookData b s).regs.zrem ≠ 0#32) := by
    change ¬(s.regs.zblk - 1#16 = 0#16 ∧ s.regs.zrem - 1#32 ≠ 0#32)
    bv_omega
  rw [exec_zData_admitted b hl hz hrem, payByte_takes ht hf, andThen_done, tookData_afterPay,
    nextBlock, afterPay_zblk, afterPay_zrem, if_neg hnext]
  rfl

/-- `Z_DATA` whose data byte ended its block, more data being expected: the next header goes out too, and `ZBLK` is that block's length (R178, R179). -/
theorem exec_zData_withHeader (b : Byte) (hl : s.regs.fault = 0#8) (hz : s.regs.zstate = .zOpen)
    (hblk : s.regs.zblk = 1#16) (hrem : s.regs.zrem ≠ 0#32) (hmore : s.regs.zrem ≠ 1#32)
    (ht : s.Takes 6) (hf : s.Fits 6) :
    exec (.zData b) s = .next
      (((setBlock (blockLength (s.regs.zrem - 1#32) s.params.zblockCap) (tookData b s)).afterPay
        ([b] ++ blockHeader (s.regs.zrem.toNat - 1) s.params.zblockCap.toNat)).respond
          statusOk 0#32) := by
  have ht' : (tookData b s).Takes ([b].length + 5) := ht
  have hf' : (tookData b s).Fits ([b].length + 5) := hf
  rw [exec_zData_header b hl hz hblk hrem hmore (takes_mono ht (by decide)) (fits_mono hf (by decide)),
    emitPay_takes (takes_afterPay ht') (fits_afterPay hf'), andThen_done, afterPay_append, setBlock_afterPay]
  rfl

/-- Settles O28: the data byte fills its block with more to come, and the next header follows, or it does not. -/
theorem zDataTakesOneByte : Obligations.ZDataTakesOneByte := by
  intro s b hl hz hrem
  obtain ⟨h1, h2⟩ := adlerStep_toNat b s.regs
  refine ⟨_, _, h1, h2, exec_zData_noHeader b hl hz hrem, fun hblk hmore ht hf => ?_⟩
  have hleft : (s.regs.zrem - 1#32).toNat = s.regs.zrem.toNat - 1 := by bv_omega
  have hrem' : BitVec.ofNat 32 (s.regs.zrem.toNat - 1) = s.regs.zrem - 1#32 := by
    rw [← hleft, BitVec.ofNat_toNat, BitVec.setWidth_eq]
  rw [exec_zData_withHeader b hl hz hblk hrem hmore ht hf, blockLength_eq, hleft]
  dsimp only
  rw [hrem']
  rfl

end Sys2Proof.Machine

/-! SUPPORT. The byte-order writer that runs to its end, and inside a zlib stream (`42_byte_order_writer.md` R150 to R153). -/

namespace Sys2Proof.Machine

variable {s : State} {bs : List Byte} {i : Instr}

/-- Outside a stream a writer command whose bytes are all taken is their one emission through `Pay` (R152, R153). -/
theorem exec_writer_takes (hw : writerBytes i = some bs) (hl : s.regs.fault = 0#8)
    (hz : s.regs.zstate = .zIdle) (ht : s.Takes bs.length) (hf : s.Fits bs.length) :
    exec i s = .next ((s.afterPay bs).respond statusOk 0#32) := by
  rw [exec_writer_admitted hw hl hz, emitPay_takes ht hf, andThen_done]
  rfl

/-- Inside a stream the check stops a writer command before its first byte, also where it has none (`60_exceptions.md` R241). -/
theorem exec_writer_zOpen (hw : writerBytes i = some bs) (hl : s.regs.fault = 0#8)
    (hz : s.regs.zstate = .zOpen) : exec i s = .next (s.takeFault .badState) := by
  have hstop : (requireNoStream s).andThen (emitAll payByte bs) = .raised .badState s := by
    rw [requireNoStream_zOpen hz]
    rfl
  rw [exec_writer hw, runCommand_badState 0#32 hl hstop]

/-- Settles O19: outside a stream the bytes go out and the response is `(OK, 0)`, inside one the check refuses. -/
theorem writerEmitsItsBytes : Obligations.WriterEmitsItsBytes := fun _ _ _ hw hl =>
  ⟨exec_writer_takes hw hl, exec_writer_zOpen hw hl⟩

end Sys2Proof.Machine

/-! SUPPORT. The chunk framer's commands that run to their end (`43_chunk_framer.md` R163, R166). -/

namespace Sys2Proof.Machine

variable {s t : State} {len : Word}

/-- The state in which `CHUNK_BEGIN` ends, before its response: length field and tag are out, the chunk is open with no payload counted, and `CRC` covers the tag (R163). -/
def State.chunkBegun (s : State) (len : Word) : State :=
  let u := s.afterOut (be32 len ++ be32 s.regs.tag)
  u.withRegs { u.regs with
    clen := len, ccnt := 0#32, crc := foldBytes crcOnes (be32 s.regs.tag), cstate := .cOpen }

/-- The state in which `CHUNK_END` ends, before its response: the finished CRC is out, the chunk is closed and counted (R166). -/
def State.chunkEnded (s : State) : State := closeChunk (s.afterOut (be32 (s.regs.crc ^^^ crcOnes)))

theorem be32_length (v : Word) : (be32 v).length = 4 := beBytes_length v 4

/-- The head's runs of bytes and register writes, one after another, are the one closed form. -/
theorem openChunk_chunkHead (len : Word) (s : State) :
    openChunk ((startCrc ((declareLength len s).afterOut (be32 len))).afterFolded (be32 s.regs.tag))
      = s.chunkBegun len := by
  have hdrop : (be32 len ++ be32 s.regs.tag).drop 4 = be32 s.regs.tag := by
    rw [← be32_length len, List.drop_left]
  rw [chunkHeadStopped_of_tag len (be32_length len), chunkHeadStopped, hdrop]
  simp [openChunk, State.chunkBegun, withRegs_withRegs, be32_length]

/-- The eight bytes of a chunk's head are taken exactly where its length field is taken and then its tag. -/
theorem takes_chunkHead :
    s.Takes 8 ↔ (declareLength len s).Takes 4
      ∧ (startCrc ((declareLength len s).afterOut (be32 len))).Takes 4 := by
  refine ⟨fun h => ⟨takes_mono (s := s) h (by decide), ?_⟩, fun ⟨hlen, htag⟩ => ?_⟩
  · exact takes_afterOut (s := declareLength len s) (bs := be32 len) h
  · exact takes_add (s := declareLength len s) (be32_length len) hlen htag

theorem emitChunkHead_takes (ht : s.Takes 8) : emitChunkHead len s = .done (s.chunkBegun len) := by
  obtain ⟨hlen, htag⟩ := takes_chunkHead (len := len).mp ht
  have hreg : ((declareLength len s).afterOut (be32 len)).regs.tag = s.regs.tag := by
    simp [declareLength]
  rw [emitChunkHead, ← be32, emitOut_takes (by rwa [be32_length]), andThen_done, hreg, ← be32,
    emitFolded_takes (by rwa [be32_length]), andThen_done, openChunk_chunkHead]

/-- Settles O21: past its checks `CHUNK_BEGIN` is its head, and all eight bytes are taken. -/
theorem chunkBeginOpensChunk : Obligations.ChunkBeginOpensChunk := by
  intro s len hl hc hz htag hlen ht
  rw [exec_chunkBegin_admitted hl hc hz htag hlen, emitChunkHead_takes ht, finish, State.chunkBegun,
    be32, be32, beBytes_four, beBytes_four]
  rfl

/-- Settles O23: past its checks `CHUNK_END` is its run of four bytes, all taken, and then the chunk is closed. -/
theorem chunkEndClosesChunk : Obligations.ChunkEndClosesChunk := by
  intro s hl hc hz hcnt ht
  rw [exec_chunkEnd_admitted hl hc hz hcnt, emitOut_takes ht, andThen_done, beBytes_four]
  simp [finish, closeChunk, State.withRegs, State.answering, State.respond, statusOk, crcOnes]

/-! ## Ends without a fault -/

theorem takeFault_halted (s : State) (f : FaultCode) : (s.takeFault f).regs.fault ≠ 0#8 := code_ne_zero f

/-- A command that ends without a fault began without one (`60_exceptions.md` R237). -/
theorem live_of_exec {i : Instr} (h : exec i s = .next t) (hi : i ≠ .start) (hl : t.regs.fault = 0#8) :
    s.regs.fault = 0#8 := by
  by_contra hne
  exact hne ((halted_stays h hi hne).symm.trans hl)

theorem live_of_execAll {is : List Instr} (h : execAll is s = some t) (hi : ∀ i ∈ is, i ≠ .start)
    (hl : t.regs.fault = 0#8) : s.regs.fault = 0#8 := by
  by_contra hne
  exact hne ((halted_stays_all h hi hne).symm.trans hl)

/-- `CHUNK_BEGIN` without a fault at its end had its tag in order and all its bytes taken. -/
theorem chunkBegin_completes (h : exec (.chunkBegin len) s = .next t) (hl : t.regs.fault = 0#8) :
    expectedTag s.regs.cseq = some s.regs.tag ∧ s.Takes 8
      ∧ t = (s.chunkBegun len).respond statusOk 0#32 := by
  have hs := live_of_exec h (by simp) hl
  rcases chunkBegin_cases hs h with ⟨-, rfl⟩ | ⟨-, ⟨-, rfl⟩ | ⟨htag, ⟨-, rfl⟩ | ⟨-, ⟨f, u, -, rfl⟩ |
    ⟨ht, ⟨f, u, -, rfl⟩ | ⟨ht', rfl⟩⟩⟩⟩⟩
  case inr.inr.inr.inr.inr =>
    exact ⟨htag, takes_chunkHead.mpr ⟨ht, ht'⟩, congrArg (·.respond statusOk 0#32) (openChunk_chunkHead len s)⟩
  all_goals exact absurd hl (takeFault_halted _ _)

/-- `CHUNK_END` without a fault at its end had the declared payload and all its bytes taken. -/
theorem chunkEnd_completes (h : exec .chunkEnd s = .next t) (hl : t.regs.fault = 0#8) :
    s.regs.ccnt = s.regs.clen ∧ s.Takes 4 ∧ t = s.chunkEnded.respond statusOk 0#32 := by
  have hs := live_of_exec h (by simp) hl
  rcases chunkEnd_cases hs h with ⟨-, rfl⟩ | ⟨-, ⟨-, rfl⟩ | ⟨hcnt, ⟨f, u, -, rfl⟩ | ⟨ht, rfl⟩⟩⟩
  case inr.inr.inr => exact ⟨hcnt, ht, rfl⟩
  all_goals exact absurd hl (takeFault_halted _ _)

end Sys2Proof.Machine

/-! SUPPORT. The chunk law (`43_chunk_framer.md` R160, R164, R167): what the commands inside an open chunk do to it is one payload, emitted, folded and counted. -/

namespace Sys2Proof.Machine

variable {s t u : State} {bs xs ys : List Byte} {i : Instr}

/-- From `s` to `t` exactly `bs` went out, counted, and in normal mode appended. -/
structure Emitted (bs : List Byte) (s t : State) : Prop where
  count : t.regs.count.toNat = s.regs.count.toNat + bs.length
  measure : t.regs.measure = s.regs.measure
  out : t.out = s.out ++ if s.regs.measure then [] else bs

theorem Sent.emitted {n : Nat} (h : Sent bs n s t) : Emitted bs s t := ⟨h.count, h.measure, h.out⟩

theorem Emitted.trans (h : Emitted xs s t) (h' : Emitted ys t u) : Emitted (xs ++ ys) s u where
  count := by rw [h'.count, h.count, List.length_append, Nat.add_assoc]
  measure := h'.measure.trans h.measure
  out := by rw [h'.out, h.out, h.measure]; split <;> simp

/-- From `s` to `t` exactly `bs` went out as payload of the chunk that is open in `s` and still is in `t`. -/
structure Carried (bs : List Byte) (s t : State) : Prop extends Emitted bs s t where
  cstate : t.regs.cstate = s.regs.cstate
  cseq : t.regs.cseq = s.regs.cseq
  clen : t.regs.clen = s.regs.clen
  crc : t.regs.crc = foldBytes s.regs.crc bs
  ccnt : t.regs.ccnt = s.regs.ccnt + BitVec.ofNat 32 bs.length

theorem Carried.refl (s : State) : Carried [] s s :=
  { (Sent.refl s).emitted with
    cstate := rfl, cseq := rfl, clen := rfl, crc := rfl, ccnt := (BitVec.add_zero _).symm }

theorem Carried.trans (h : Carried xs s t) (h' : Carried ys t u) : Carried (xs ++ ys) s u :=
  { h.toEmitted.trans h'.toEmitted with
    cstate := h'.cstate.trans h.cstate
    cseq := h'.cseq.trans h.cseq
    clen := h'.clen.trans h.clen
    crc := by rw [h'.crc, h.crc, foldBytes_append]
    ccnt := by rw [h'.ccnt, h.ccnt, List.length_append, BitVec.ofNat_add, BitVec.add_assoc] }

theorem Carried.respond (h : Carried bs s t) (status : Byte) (d : Word) :
    Carried bs s (t.respond status d) := { h with }

/-! ## Register writes of the engines and the wrapper carry nothing -/

theorem Carried.adlerInit (h : Carried bs s t) : Carried bs s (t.withRegs (adlerInit t.regs)) :=
  { h with }

theorem Carried.adlerStep (h : Carried bs s t) (b : Byte) :
    Carried bs s (t.withRegs (adlerStep b t.regs)) := { h with }

theorem Carried.openStream (h : Carried bs s t) (total : Word) :
    Carried bs s (openStream total t) := { h with }

theorem Carried.tookData (h : Carried bs s t) (b : Byte) : Carried bs s (tookData b t) := { h with }

theorem Carried.setBlock (h : Carried bs s t) (n : Half) : Carried bs s (setBlock n t) := { h with }

theorem Carried.closeStream (h : Carried bs s t) : Carried bs s (closeStream t) := { h with }

/-- With a chunk open, a run of `Pay` that reached its end carried its bytes (`20_memory.md` R77). -/
theorem carried_afterPay (ho : s.regs.cstate = .cOpen)
    (he : emitAll payByte bs s = .done (s.afterPay bs)) : Carried bs s (s.afterPay bs) :=
  { (sent_afterPay (emitPay_needs he).1).emitted with
    cstate := afterPay_cstate s bs
    cseq := afterPay_cseq s bs
    clen := afterPay_clen s bs
    crc := by simp [afterPay_regs, ho]
    ccnt := by simp [afterPay_regs, ho] }

/-! ## Each command inside an open chunk -/

theorem writeRegister_cOpen (w : Regs → Regs) (hl : s.regs.fault = 0#8) (ho : s.regs.cstate = .cOpen) :
    writeRegister w s = s.takeFault .badState := by
  rcases writeRegister_cases hl (rfl : writeRegister w s = _) with ⟨-, h⟩ | ⟨⟨hc, -⟩, -⟩
  · exact h
  · rw [ho] at hc; cases hc

/-- Inside a chunk the state admits no direct command but the Adler engine's (`60_exceptions.md` R241). -/
theorem carried_of_direct {w : Regs → Regs} (hw : directWrite i = some w) (hl : s.regs.fault = 0#8)
    (ho : s.regs.cstate = .cOpen) (h : exec i s = .next t) (hl' : t.regs.fault = 0#8) :
    Carried [] s t := by
  have refused : exec i s ≠ .next (s.takeFault .badState) := fun he => by
    rw [he] at h; cases h
    exact takeFault_halted _ _ hl'
  have hcrc b := (crcCommandsEffect s b hl).2 ho
  cases i <;> cases hw
  case wrregCtrl | wrregTag | wrregCount =>
    exact absurd (congrArg _ (writeRegister_cOpen _ hl ho)) refused
  case crcInit => exact absurd (hcrc 0#8).1 refused
  case crcUpdate b => exact absurd (hcrc b).2.1 refused
  case crcFinal => exact absurd (hcrc 0#8).2.2 refused
  all_goals
    rcases direct_cases rfl hl h with rfl | ⟨d, rfl⟩
    · exact absurd hl' (takeFault_halted _ _)
  case adlInit => exact (Carried.refl s).adlerInit.respond _ d
  case adlUpdate b => exact ((Carried.refl s).adlerStep b).respond _ d
  case adlFinal => exact (Carried.refl s).respond _ d

theorem carried_of_writer (hw : writerBytes i = some bs) (hl : s.regs.fault = 0#8)
    (ho : s.regs.cstate = .cOpen) (h : exec i s = .next t) (hl' : t.regs.fault = 0#8) :
    Carried bs s t := by
  rcases writer_cases hw hl h with ⟨-, rfl⟩ | ⟨-, ⟨he, rfl⟩ | ⟨f, u, -, rfl⟩⟩
  · exact absurd hl' (takeFault_halted _ _)
  · exact (carried_afterPay ho he).respond _ _
  · exact absurd hl' (takeFault_halted _ _)

theorem carried_of_zBegin {total : Word} (hl : s.regs.fault = 0#8) (ho : s.regs.cstate = .cOpen)
    (h : exec (.zBegin total) s = .next t) (hl' : t.regs.fault = 0#8) : ∃ bs, Carried bs s t := by
  rcases zBegin_cases hl h with ⟨-, rfl⟩ | ⟨-, ⟨f, u, -, rfl⟩ | ⟨he, rfl⟩⟩
  · exact absurd hl' (takeFault_halted _ _)
  · exact absurd hl' (takeFault_halted _ _)
  · have hopen := (Carried.refl s).openStream total
    exact ⟨_, ((hopen.trans (carried_afterPay (hopen.cstate.trans ho) he)).setBlock _).respond _ _⟩

theorem carried_of_zData {b : Byte} (hl : s.regs.fault = 0#8) (ho : s.regs.cstate = .cOpen)
    (h : exec (.zData b) s = .next t) (hl' : t.regs.fault = 0#8) : ∃ bs, Carried bs s t := by
  rcases zData_cases hl h with ⟨-, rfl⟩ | ⟨-, ⟨-, rfl⟩ | ⟨-, ⟨f, u, -, rfl⟩ | ⟨he, hrest⟩⟩⟩
  · exact absurd hl' (takeFault_halted _ _)
  · exact absurd hl' (takeFault_halted _ _)
  · exact absurd hl' (takeFault_halted _ _)
  have htook := (carried_afterPay ho he).tookData b
  rcases hrest with ⟨-, rfl⟩ | ⟨-, ⟨f, u, -, rfl⟩ | ⟨he', rfl⟩⟩
  · exact ⟨_, htook.respond _ _⟩
  · exact absurd hl' (takeFault_halted _ _)
  · exact ⟨_, ((htook.trans (carried_afterPay (htook.cstate.trans ho) he')).setBlock _).respond _ _⟩

theorem carried_of_zEnd (hl : s.regs.fault = 0#8) (ho : s.regs.cstate = .cOpen)
    (h : exec .zEnd s = .next t) (hl' : t.regs.fault = 0#8) : ∃ bs, Carried bs s t := by
  rcases zEnd_cases hl h with ⟨-, rfl⟩ | ⟨-, ⟨-, rfl⟩ | ⟨-, ⟨f, u, -, rfl⟩ | ⟨he, rfl⟩⟩⟩
  · exact absurd hl' (takeFault_halted _ _)
  · exact absurd hl' (takeFault_halted _ _)
  · exact absurd hl' (takeFault_halted _ _)
  · exact ⟨_, (carried_afterPay ho he).closeStream.respond _ _⟩

/-- A second `CHUNK_BEGIN` inside a chunk is not admitted. -/
theorem chunkBegin_cOpen_faults {len : Word} (ho : s.regs.cstate = .cOpen)
    (h : exec (.chunkBegin len) s = .next t) : t.regs.fault ≠ 0#8 := fun hl' => by
  rcases chunkBegin_cases (live_of_exec h (by simp) hl') h with ⟨-, rfl⟩ | ⟨⟨hc, -⟩, -⟩
  · exact takeFault_halted _ _ hl'
  · rw [ho] at hc; cases hc

/-- A command inside a chunk that ends without a fault carried some payload, maybe none (R164). -/
theorem exec_carried (hs : i ≠ .start) (he : i ≠ .chunkEnd) (ho : s.regs.cstate = .cOpen)
    (h : exec i s = .next t) (hl' : t.regs.fault = 0#8) : ∃ bs, Carried bs s t := by
  rcases exec_responds_or_runs hs h with ⟨status, d, rfl⟩ | ⟨hl, hb⟩
  · exact ⟨[], (Carried.refl s).respond status d⟩
  rcases command_classes hb with ⟨w, hw⟩ | ⟨bs, hw⟩ | ⟨len, rfl⟩ | rfl | ⟨total, rfl⟩ | ⟨b, rfl⟩ | rfl
  · exact ⟨[], carried_of_direct hw hl ho h hl'⟩
  · exact ⟨bs, carried_of_writer hw hl ho h hl'⟩
  · exact absurd hl' (chunkBegin_cOpen_faults ho h)
  · exact absurd rfl he
  · exact carried_of_zBegin hl ho h hl'
  · exact carried_of_zData hl ho h hl'
  · exact carried_of_zEnd hl ho h hl'

theorem execAll_carried {is : List Instr} (h : execAll is s = some t)
    (hi : ∀ i ∈ is, i ≠ .start ∧ i ≠ .chunkEnd) (ho : s.regs.cstate = .cOpen)
    (hl' : t.regs.fault = 0#8) : ∃ payload, Carried payload s t := by
  induction is generalizing s with
  | nil => cases h; exact ⟨[], .refl _⟩
  | cons i is ih =>
    obtain ⟨u, hu⟩ := exec_next i s
    rw [execAll_cons_of_next hu] at h
    obtain ⟨hfirst, hrest⟩ := List.forall_mem_cons.mp hi
    have hlu := live_of_execAll h (fun j hj => (hrest j hj).1) hl'
    obtain ⟨xs, hx⟩ := exec_carried hfirst.1 hfirst.2 ho hu hlu
    obtain ⟨ys, hy⟩ := ih h hrest (hx.cstate.trans ho)
    exact ⟨xs ++ ys, hx.trans hy⟩

/-! ## The whole chunk -/

theorem emitted_chunkBegun (len : Word) (ht : s.Takes 8) :
    Emitted (be32 len ++ be32 s.regs.tag) s (s.chunkBegun len) :=
  { (sent_afterOut (bs := be32 len ++ be32 s.regs.tag) ht).emitted with }

theorem emitted_chunkEnded (ht : s.Takes 4) :
    Emitted (be32 (s.regs.crc ^^^ crcOnes)) s s.chunkEnded :=
  { (sent_afterOut (bs := be32 (s.regs.crc ^^^ crcOnes)) ht).emitted with }

/-- A chunk that is complete carried as many bytes as its head declared (R164). -/
theorem Carried.length_eq {len : Word} (h : Carried bs s t) (hcnt : s.regs.ccnt = 0#32)
    (hlen : s.regs.clen = len) (hend : t.regs.ccnt = t.regs.clen) : bs.length = len.toNat := by
  have hfit : bs.length < 2 ^ 32 := by have := h.count; omega
  rw [h.ccnt, h.clen, hcnt, hlen, BitVec.zero_add] at hend
  rw [← hend, BitVec.toNat_ofNat, Nat.mod_eq_of_lt hfit]

/-- The chunk number does not wrap: a tag is expected for the first three only (R161). -/
theorem cseq_succ_toNat {q : BitVec 2} {tag : Word} (h : expectedTag q = some tag) :
    (q + 1#2).toNat = q.toNat + 1 := by
  have := cseq_le_of_expectedTag h
  rw [BitVec.toNat_add, BitVec.toNat_ofNat]
  omega

/-- Settles O26: head, payload and CRC field are emitted one after another; `CRC` has folded tag and payload when `CHUNK_END` emits it, and `CCNT` has counted the payload when it is compared with `CLEN`. -/
theorem chunkLaw : Obligations.ChunkLaw := by
  intro s s1 s2 s3 len between hbegin hbetween hi hend hl3
  have hl2 := live_of_exec hend (by simp) hl3
  have hl1 := live_of_execAll hbetween (fun i hm => (hi i hm).1) hl2
  obtain ⟨htag, ht1, rfl⟩ := chunkBegin_completes hbegin hl1
  obtain ⟨payload, hp⟩ := execAll_carried hbetween hi rfl hl2
  obtain ⟨hcnt, ht2, rfl⟩ := chunkEnd_completes hend hl3
  have hlen : payload.length = len.toNat := hp.length_eq rfl rfl hcnt
  have hcrc : s2.regs.crc ^^^ crcOnes = crc32 (be32 s.regs.tag ++ payload) := by
    rw [hp.crc, crc32, foldBytes_append]
    rfl
  have hhead : Emitted (be32 len ++ be32 s.regs.tag ++ payload) s s2 :=
    Emitted.trans (t := (s.chunkBegun len).respond statusOk 0#32)
      { emitted_chunkBegun len ht1 with } hp.toEmitted
  have hall := hhead.trans (emitted_chunkEnded ht2)
  rw [hcrc] at hall
  refine ⟨fun hm => ⟨payload, hlen, ?head, ?whole⟩, fun hm => ?measured, ?count, rfl, ?cseq⟩
  case head => simpa [hm] using hhead.out
  case whole => simpa [hm] using hall.out
  case measured => simpa [hm] using hall.out
  case count =>
    have hcount := hall.count
    simp only [List.length_append, be32_length, hlen] at hcount
    rw [respond_regs, hcount]
    omega
  case cseq =>
    have hseq : s2.regs.cseq = s.regs.cseq := hp.cseq.trans (by simp [State.chunkBegun])
    calc (s2.chunkEnded.respond statusOk 0#32).regs.cseq.toNat
        = (s.regs.cseq + 1#2).toNat := by simp [State.chunkEnded, closeChunk, hseq]
      _ = s.regs.cseq.toNat + 1 := cseq_succ_toNat htag

end Sys2Proof.Machine

/-! SUPPORT. The zlib wrapper's `Z_BEGIN` and `Z_END` that run to their end (`44_zlib_stored.md` R177, R180), and the largest payload of one chunk (R182). -/

namespace Sys2Proof.Machine

variable {s : State}

/-- Closing the stream and emitting do not read each other's registers. -/
theorem closeStream_afterPay (bs : List Byte) (s : State) :
    closeStream (s.afterPay bs) = (closeStream s).afterPay bs := by
  cases hm : s.regs.measure <;> cases hc : s.regs.cstate <;>
    simp [State.afterPay, State.afterOut, closeStream, State.withRegs, hm, hc]

/-- Inside a stream the check stops `Z_BEGIN` before its first write (`60_exceptions.md` R241). -/
theorem exec_zBegin_zOpen (total : Word) (hl : s.regs.fault = 0#8) (hz : s.regs.zstate = .zOpen) :
    exec (.zBegin total) s = .next (s.takeFault .badState) := by
  obtain ⟨t, h⟩ := exec_next (.zBegin total) s
  rcases zBegin_cases hl h with ⟨-, rfl⟩ | ⟨hi, -⟩
  · exact h
  · rw [hz] at hi; cases hi

/-- Settles O27: outside a stream the seven bytes are one run of `Pay`, inside one the check refuses. -/
theorem zBeginOpensStream : Obligations.ZBeginOpensStream := by
  intro s total hl
  refine ⟨fun hz ht hf => ?_, exec_zBegin_zOpen total hl⟩
  have hrun := emitPay_takes (s := openStream total s)
    (bs := [s.params.zhdr0, s.params.zhdr1] ++ blockHeader total.toNat s.params.zblockCap.toNat) ht hf
  rw [exec_zBegin_admitted total hl hz, hrun, andThen_done, setBlock_afterPay, blockLength_eq]
  rfl

/-- Settles O29: past its checks `Z_END` is its run of four bytes, all taken, and then the stream is closed. -/
theorem zEndClosesStream : Obligations.ZEndClosesStream := by
  intro s hl hz hrem ht hf
  rw [exec_zEnd_admitted hl hz hrem, emitPay_takes ht hf, andThen_done, closeStream_afterPay,
    adler_beBytes]
  rfl

/-- A payload needs no more than `k` stored blocks exactly when `k` blocks can hold it (`44_zlib_stored.md` R181). -/
theorem nBlocks_le_iff {cap n k : Nat} (hc : 0 < cap) (hk : 0 < k) :
    nBlocks cap n ≤ k ↔ n ≤ k * cap := by
  have hsucc : (k + 1) * cap = k * cap + cap := Nat.succ_mul k cap
  rw [nBlocks, max_le_iff, and_iff_right (show 1 ≤ k from hk), ← Nat.lt_succ_iff,
    Nat.div_lt_iff_lt_mul hc, Nat.succ_eq_add_one]
  omega

/-- Settles O34: the payload that fills 32766 blocks fits with one byte to spare, and a byte more opens a block. -/
theorem largestPayloadOfOneChunk : Obligations.LargestPayloadOfOneChunk := by
  intro n
  have hblocks := nBlocks_le_iff (cap := 65535) (n := n) (k := 32766) (by decide) (by decide)
  change 6 + 5 * nBlocks 65535 n + n ≤ 2147483647 ↔ n ≤ 2147319810
  by_cases hn : n ≤ 32766 * 65535
  · have := hblocks.mpr hn
    omega
  · have := mt hblocks.mp hn
    omega

end Sys2Proof.Machine

/-! SUPPORT. What the commands that are not the stream's own do while a zlib stream is open (`44_zlib_stored.md` R186, `60_exceptions.md` R241). -/

namespace Sys2Proof.Machine

variable {s t : State} {i : Instr}

/-- From `s` to `t` nothing changed but the responses, `FAULT`, and with no chunk open `CRC`. -/
def Quiet (s t : State) : Prop :=
  ∃ c f rs, t = { s with regs := { s.regs with crc := c, fault := f }, responses := rs }
    ∧ (s.regs.cstate = .cOpen → c = s.regs.crc)

theorem quiet_refl (s : State) : Quiet s s := ⟨_, _, _, rfl, fun _ => rfl⟩

theorem quiet_respond (s : State) (status : Byte) (d : Word) : Quiet s (s.respond status d) :=
  ⟨_, _, _, rfl, fun _ => rfl⟩

theorem quiet_takeFault (s : State) (f : FaultCode) : Quiet s (s.takeFault f) :=
  ⟨_, _, _, rfl, fun _ => rfl⟩

theorem quiet_of_refused (he : exec i s = .next (s.takeFault .badState)) (h : exec i s = .next t) :
    Quiet s t := by
  rw [he] at h; cases h
  exact quiet_takeFault s .badState

theorem writeRegister_zOpen (w : Regs → Regs) (hl : s.regs.fault = 0#8) (hz : s.regs.zstate = .zOpen) :
    writeRegister w s = s.takeFault .badState := by
  rcases writeRegister_cases hl (rfl : writeRegister w s = _) with ⟨-, h⟩ | ⟨⟨-, hi⟩, -⟩
  · exact h
  · rw [hz] at hi; cases hi

/-- Inside a stream the state admits no direct command but the CRC engine's, and these with no chunk open only (`60_exceptions.md` R241). -/
theorem quiet_of_direct {w : Regs → Regs} (hw : directWrite i = some w) (hl : s.regs.fault = 0#8)
    (hz : s.regs.zstate = .zOpen) (h : exec i s = .next t) : Quiet s t := by
  have hadl b := (adlerCommandsEffect s b hl).2 hz
  have hcrc b := (crcCommandsEffect s b hl).2
  cases i <;> cases hw
  case wrregCtrl | wrregTag | wrregCount =>
    exact quiet_of_refused (congrArg _ (writeRegister_zOpen _ hl hz)) h
  case adlInit => exact quiet_of_refused (hadl 0#8).1 h
  case adlUpdate b => exact quiet_of_refused (hadl b).2.1 h
  case adlFinal => exact quiet_of_refused (hadl 0#8).2.2 h
  all_goals cases hc : s.regs.cstate
  case crcInit.refl.cIdle | crcUpdate.refl.cIdle | crcFinal.refl.cIdle =>
    rcases direct_cases rfl hl h with rfl | ⟨d, rfl⟩
    · exact quiet_takeFault s _
    · exact ⟨_, _, _, rfl, fun ho => nomatch hc.symm.trans ho⟩
  case crcInit.refl.cOpen => exact quiet_of_refused (hcrc 0#8 hc).1 h
  case crcUpdate.refl.cOpen b => exact quiet_of_refused (hcrc b hc).2.1 h
  case crcFinal.refl.cOpen => exact quiet_of_refused (hcrc 0#8 hc).2.2 h

/-- Inside a stream every command but the stream's own two and `START` is quiet (`44_zlib_stored.md` R186). -/
theorem exec_quiet (hz : s.regs.zstate = .zOpen) (hs : i ≠ .start) (hd : ∀ b, i ≠ .zData b)
    (he : i ≠ .zEnd) (h : exec i s = .next t) : Quiet s t := by
  have hclosed : s.regs.zstate ≠ .zIdle := fun hi => nomatch hz.symm.trans hi
  rcases exec_responds_or_runs hs h with ⟨status, d, rfl⟩ | ⟨hl, hb⟩
  · exact quiet_respond s status d
  rcases command_classes hb with ⟨w, hw⟩ | ⟨bs, hw⟩ | ⟨len, rfl⟩ | rfl | ⟨total, rfl⟩ | ⟨b, rfl⟩ | rfl
  · exact quiet_of_direct hw hl hz h
  · exact quiet_of_refused (exec_writer_zOpen hw hl hz) h
  · rcases chunkBegin_cases hl h with ⟨-, rfl⟩ | ⟨⟨-, hi⟩, -⟩
    · exact quiet_takeFault s _
    · exact absurd hi hclosed
  · rcases chunkEnd_cases hl h with ⟨-, rfl⟩ | ⟨⟨-, hi⟩, -⟩
    · exact quiet_takeFault s _
    · exact absurd hi hclosed
  · exact quiet_of_refused (exec_zBegin_zOpen total hl hz) h
  · exact absurd rfl (hd b)
  · exact absurd rfl he

/-- Settles O33: `START` touches only the registers, and every other command is quiet. -/
theorem onlyStreamCommandsEmitInStream : Obligations.OnlyStreamCommandsEmitInStream := by
  intro i s t hz h hd he
  by_cases hs : i = .start
  · subst hs; cases h
    exact ⟨rfl, rfl, rfl, fun hne => absurd rfl hne⟩
  · obtain ⟨c, f, rs, rfl, -⟩ := exec_quiet hz hs hd he h
    exact ⟨rfl, rfl, rfl, fun _ => ⟨rfl, hz⟩⟩

end Sys2Proof.Machine

/-! SUPPORT. The greedy cut into stored blocks as the block makes it, byte by byte with two counters, and as `StoredBlocks` states it (`44_zlib_stored.md` R176, R178, R179, R181, R184). -/

namespace Sys2Proof.Machine

variable {cap : Half} {data xs : List Byte}

/-- What `Z_DATA` of each byte emits where `rem` data bytes are still to come, `blk` of them in the present block, and a block holds `cap`: the byte, and where it fills its block with more to come the next header (R179). -/
def dataEmission (cap : Nat) : Nat → Nat → List Byte → List Byte
  | _, _, [] => []
  | rem, blk, b :: data =>
    if blk = 1 ∧ rem ≠ 1 then
      b :: blockHeader (rem - 1) cap ++ dataEmission cap (rem - 1) (min (rem - 1) cap) data
    else b :: dataEmission cap (rem - 1) (blk - 1) data

/-- In the last block no header follows. -/
theorem dataEmission_lastBlock (cap n : Nat) (data : List Byte) : dataEmission cap n n data = data := by
  induction data generalizing n with
  | nil => rfl
  | cons b data ih => rw [dataEmission, if_neg (by omega), ih]

/-- The bytes that fill a block with more to come are followed by the next header. -/
theorem dataEmission_fillBlock (cap : Nat) {rem : Nat} (hne : xs ≠ []) (hmore : xs.length < rem)
    (ys : List Byte) :
    dataEmission cap rem xs.length (xs ++ ys)
      = xs ++ (blockHeader (rem - xs.length) cap
          ++ dataEmission cap (rem - xs.length) (min (rem - xs.length) cap) ys) := by
  induction xs generalizing rem with
  | nil => exact absurd rfl hne
  | cons b xs ih =>
    rw [List.length_cons] at hmore ⊢
    rw [List.cons_append, dataEmission]
    by_cases hx : xs = []
    · subst hx
      rw [if_pos ⟨rfl, by simpa using hmore.ne'⟩]
      simp
    · have := List.length_pos_iff.mpr hx
      have hsub : rem - 1 - xs.length = rem - (xs.length + 1) := by omega
      rw [if_neg (by omega), Nat.add_sub_cancel, ih hx (by omega), hsub]
      rfl

/-! ## The stated blocks, one at a time -/

theorem nBlocks_of_le {n c : Nat} (hc : 0 < c) (h : n ≤ c) : nBlocks c n = 1 := by
  have hle : nBlocks c n ≤ 1 := (nBlocks_le_iff hc (by decide)).mpr (by omega)
  exact le_antisymm hle (le_max_left _ _)

theorem nBlocks_of_gt {n c : Nat} (hc : 0 < c) (h : c < n) : nBlocks c n = nBlocks c (n - c) + 1 := by
  have hdiv : (n + c - 1) / c = (n - c + c - 1) / c + 1 := by
    rw [← Nat.add_div_right _ hc]
    congr 1
    omega
  have hpos : 1 ≤ (n - c + c - 1) / c := Nat.div_pos (by omega) hc
  rw [nBlocks, nBlocks, hdiv, max_eq_right hpos, max_eq_right (by omega)]

theorem storedBlocks_of_le {c : Nat} (hc : 0 < c) (h : data.length ≤ c) :
    storedBlocks c data = storedBlock true data := by
  simp [storedBlocks, nBlocks_of_le hc h, List.take_of_length_le h]

/-- A payload that does not fit one block is a full block that is not final, and the blocks of the rest. -/
theorem storedBlocks_of_gt {c : Nat} (hc : 0 < c) (h : c < data.length) :
    storedBlocks c data = storedBlock false (data.take c) ++ storedBlocks c (data.drop c) := by
  have hmore : nBlocks c (data.length - c) ≠ 0 := (Nat.lt_of_lt_of_le Nat.one_pos (le_max_left _ _)).ne'
  rw [storedBlocks, nBlocks_of_gt hc h, List.range_succ_eq_map, List.flatMap_cons, List.flatMap_map]
  simp [storedBlocks, hmore, Nat.succ_mul, Nat.add_comm]

/-- A stored block is the header of `StartBlock` and its data (R176). -/
theorem storedBlock_take (cap : Half) (h : data.length < 2 ^ 32) :
    storedBlock (decide (data.length ≤ cap.toNat)) (data.take cap.toNat)
      = blockHeader data.length cap.toNat ++ data.take cap.toNat := by
  have hn : (BitVec.ofNat 32 data.length).toNat = data.length := by
    rw [BitVec.toNat_ofNat, Nat.mod_eq_of_lt h]
  have hheader := header_eq (BitVec.ofNat 32 data.length) cap
  have hfinal : blockFinal (BitVec.ofNat 32 data.length) cap
      = if data.length ≤ cap.toNat then 0x01#8 else 0x00#8 := by
    have := cap.isLt
    have hcap : cap.toNat % 2 ^ 32 = cap.toNat := Nat.mod_eq_of_lt (by omega)
    simp only [blockFinal, BitVec.le_def, hn, BitVec.toNat_setWidth, hcap]
  rw [blockLength_eq, hfinal, hn] at hheader
  rw [← hheader, storedBlock, List.length_take, Nat.min_comm]
  simp [le16]

/-- The header `Z_BEGIN` emits and what `Z_DATA` of each byte emits are the stored blocks of the data (R184). -/
theorem storedBlocks_eq_emission (hc : 0 < cap.toNat) (h : data.length < 2 ^ 32) :
    storedBlocks cap.toNat data
      = blockHeader data.length cap.toNat
        ++ dataEmission cap.toNat data.length (min data.length cap.toNat) data := by
  induction hn : data.length using Nat.strong_induction_on generalizing data with
  | _ n ih =>
    subst hn
    have hblock := storedBlock_take cap h
    by_cases hle : data.length ≤ cap.toNat
    · rw [decide_eq_true hle, List.take_of_length_le hle] at hblock
      rw [storedBlocks_of_le hc hle, hblock, min_eq_left hle, dataEmission_lastBlock]
    · have hlen : (data.take cap.toNat).length = cap.toNat := by rw [List.length_take]; omega
      have hrest : (data.drop cap.toNat).length = data.length - cap.toNat := List.length_drop
      have hne : data.take cap.toNat ≠ [] := List.length_pos_iff.mp (by omega)
      have hfill := dataEmission_fillBlock cap.toNat (rem := data.length) hne (by omega)
        (data.drop cap.toNat)
      rw [hlen, List.take_append_drop] at hfill
      rw [decide_eq_false hle] at hblock
      rw [storedBlocks_of_gt hc (by omega), hblock, min_eq_right (by omega), hfill,
        ih _ (by omega) (by omega) hrest, List.append_assoc]

end Sys2Proof.Machine

/-! SUPPORT. The zlib law (`44_zlib_stored.md` R175, R176, R181, R182, R184): what the commands of a stream emit, and how the registers of the wrapper follow it. -/

namespace Sys2Proof.Machine

variable {s t u : State} {b : Byte} {bs xs ys data : List Byte} {i : Instr} {total : Word}

/-- From `s` to `t` exactly `bs` went out through `Pay`: raw, or into the chunk that is open in both. -/
structure Streamed (bs : List Byte) (s t : State) : Prop extends Emitted bs s t where
  params : t.params = s.params
  cstate : t.regs.cstate = s.regs.cstate
  clen : t.regs.clen = s.regs.clen
  crc : s.regs.cstate = .cOpen → t.regs.crc = foldBytes s.regs.crc bs
  ccnt : s.regs.cstate = .cOpen → t.regs.ccnt = s.regs.ccnt + BitVec.ofNat 32 bs.length
  fits : s.regs.cstate = .cOpen → s.regs.ccnt.toNat ≤ s.regs.clen.toNat →
    s.regs.ccnt.toNat + bs.length ≤ s.regs.clen.toNat

/-- `CCNT` of a chunk with room for the bytes grew without wrapping (`10_state.md` R50). -/
theorem Streamed.ccnt_toNat (h : Streamed bs s t) (ho : s.regs.cstate = .cOpen)
    (hle : s.regs.ccnt.toNat ≤ s.regs.clen.toNat) :
    t.regs.ccnt.toNat = s.regs.ccnt.toNat + bs.length := by
  have hfits := h.fits ho hle
  have hbound := s.regs.clen.isLt
  rw [h.ccnt ho, BitVec.toNat_add, BitVec.toNat_ofNat]
  omega

theorem Streamed.trans (h : Streamed xs s t) (h' : Streamed ys t u) : Streamed (xs ++ ys) s u :=
  { h.toEmitted.trans h'.toEmitted with
    params := h'.params.trans h.params
    cstate := h'.cstate.trans h.cstate
    clen := h'.clen.trans h.clen
    crc := fun ho => by rw [h'.crc (h.cstate.trans ho), h.crc ho, foldBytes_append]
    ccnt := fun ho => by
      rw [h'.ccnt (h.cstate.trans ho), h.ccnt ho, List.length_append, BitVec.ofNat_add,
        BitVec.add_assoc]
    fits := fun ho hle => by
      have hfirst := h.fits ho hle
      have hcnt := h.ccnt_toNat ho hle
      have hrest := h'.fits (h.cstate.trans ho) (by rw [hcnt, h.clen]; exact hfirst)
      rw [hcnt, h.clen] at hrest
      rw [List.length_append, ← Nat.add_assoc]
      exact hrest }

/-- A run of `Pay` that reached its end. -/
theorem streamed_afterPay (h : emitAll payByte bs s = .done (s.afterPay bs)) :
    Streamed bs s (s.afterPay bs) :=
  { (sent_afterPay (emitPay_needs h).1).emitted with
    params := afterPay_params s bs
    cstate := afterPay_cstate s bs
    clen := afterPay_clen s bs
    crc := fun ho => by simp [afterPay_regs, ho]
    ccnt := fun ho => by simp [afterPay_regs, ho]
    fits := (emitPay_needs h).2 }

/-! ## The writes around the runs stream nothing -/

theorem Streamed.refl (s : State) : Streamed [] s s :=
  { (Sent.refl s).emitted with
    params := rfl
    cstate := rfl
    clen := rfl
    crc := fun _ => rfl
    ccnt := fun _ => (BitVec.add_zero _).symm
    fits := fun _ hle => hle }

theorem streamed_quiet (h : Quiet s t) : Streamed [] s t := by
  obtain ⟨c, f, rs, rfl, hc⟩ := h
  exact { Streamed.refl s with crc := hc }

theorem Streamed.openStream (h : Streamed bs s t) (total : Word) :
    Streamed bs s (openStream total t) := { h with }

theorem Streamed.respond (h : Streamed bs s t) (status : Byte) (d : Word) :
    Streamed bs s (t.respond status d) := { h with }

theorem Streamed.tookData (h : Streamed bs s t) (b : Byte) : Streamed bs s (tookData b t) := { h with }

theorem Streamed.setBlock (h : Streamed bs s t) (n : Half) : Streamed bs s (setBlock n t) := { h with }

theorem Streamed.closeStream (h : Streamed bs s t) : Streamed bs s (closeStream t) := { h with }

/-! ## The stream's commands that end without a fault -/

theorem zBegin_completes (h : exec (.zBegin total) s = .next t) (hl : t.regs.fault = 0#8) :
    let bs := [s.params.zhdr0, s.params.zhdr1] ++ blockHeader total.toNat s.params.zblockCap.toNat
    emitAll payByte bs (openStream total s) = .done ((openStream total s).afterPay bs)
      ∧ t = (setBlock (blockLength total s.params.zblockCap)
          ((openStream total s).afterPay bs)).respond statusOk 0#32 := by
  rcases zBegin_cases (live_of_exec h (by simp) hl) h with ⟨-, rfl⟩ | ⟨-, ⟨f, u, -, rfl⟩ | hend⟩
  · exact absurd hl (takeFault_halted _ _)
  · exact absurd hl (takeFault_halted _ _)
  · exact hend

theorem zEnd_completes (h : exec .zEnd s = .next t) (hl : t.regs.fault = 0#8) :
    s.regs.zrem = 0#32
      ∧ emitAll payByte (be32 s.regs.adler) s = .done (s.afterPay (be32 s.regs.adler))
      ∧ t = (closeStream (s.afterPay (be32 s.regs.adler))).respond statusOk 0#32 := by
  rcases zEnd_cases (live_of_exec h (by simp) hl) h with
    ⟨-, rfl⟩ | ⟨-, ⟨-, rfl⟩ | ⟨hrem, ⟨f, u, -, rfl⟩ | hend⟩⟩
  case inr.inr.inr => exact ⟨hrem, hend⟩
  all_goals exact absurd hl (takeFault_halted _ _)

theorem zData_completes (h : exec (.zData b) s = .next t) (hl : t.regs.fault = 0#8) :
    s.regs.zrem ≠ 0#32 ∧ emitAll payByte [b] s = .done (s.afterPay [b]) ∧
      let s1 := tookData b (s.afterPay [b])
      let header := blockHeader s1.regs.zrem.toNat s.params.zblockCap.toNat
      (¬(s1.regs.zblk = 0#16 ∧ s1.regs.zrem ≠ 0#32) ∧ t = s1.respond statusOk 0#32
        ∨ (s1.regs.zblk = 0#16 ∧ s1.regs.zrem ≠ 0#32)
          ∧ emitAll payByte header s1 = .done (s1.afterPay header)
          ∧ t = (setBlock (blockLength s1.regs.zrem s.params.zblockCap)
              (s1.afterPay header)).respond statusOk 0#32) := by
  rcases zData_cases (live_of_exec h (by simp) hl) h with
    ⟨-, rfl⟩ | ⟨-, ⟨-, rfl⟩ | ⟨hrem, ⟨f, u, -, rfl⟩ | ⟨he, hin | ⟨hnext, ⟨f, u, -, rfl⟩ | hend⟩⟩⟩⟩
  case inr.inr.inr.inl => exact ⟨hrem, he, .inl hin⟩
  case inr.inr.inr.inr.inr => exact ⟨hrem, he, .inr ⟨hnext, hend⟩⟩
  all_goals exact absurd hl (takeFault_halted _ _)

/-! ## The data of an open stream -/

/-- What the data bytes `data` emit where the open stream is in `s` (R179). -/
def State.emission (s : State) (data : List Byte) : List Byte :=
  dataEmission s.params.zblockCap.toNat s.regs.zrem.toNat s.regs.zblk.toNat data

/-- From `s` to `t` the open stream took the bytes `data`: `ZREM` and the pair followed them, their emission went out, and `t` stands where the emission of more data goes on. -/
structure Took (data : List Byte) (s t : State) : Prop where
  zstate : t.regs.zstate = .zOpen
  settled : Settled t.regs
  zrem : t.regs.zrem.toNat + data.length = s.regs.zrem.toNat
  s1 : t.regs.s1 = (adlerBytes s.regs data).s1
  s2 : t.regs.s2 = (adlerBytes s.regs data).s2
  streamed : Streamed (s.emission data) s t
  goesOn : ∀ more, s.emission (data ++ more) = s.emission data ++ t.emission more

theorem adlerBytes_append (r : Regs) (xs ys : List Byte) :
    adlerBytes r (xs ++ ys) = adlerBytes (adlerBytes r xs) ys := List.foldl_append

theorem Took.trans (h : Took xs s t) (h' : Took ys t u) : Took (xs ++ ys) s u where
  zstate := h'.zstate
  settled := h'.settled
  zrem := by rw [← h.zrem, ← h'.zrem, List.length_append]; omega
  s1 := by rw [h'.s1, adlerBytes_append, (adlerBytes_congr ys h.s1 h.s2).1]
  s2 := by rw [h'.s2, adlerBytes_append, (adlerBytes_congr ys h.s1 h.s2).2]
  streamed := by rw [h.goesOn]; exact h.streamed.trans h'.streamed
  goesOn more := by
    rw [List.append_assoc, h.goesOn, h'.goesOn, h.goesOn, List.append_assoc]

/-- A quiet command takes no data. -/
theorem took_quiet (hz : s.regs.zstate = .zOpen) (hset : Settled s.regs) (h : Quiet s t) :
    Took [] s t := by
  have hst := streamed_quiet h
  obtain ⟨c, f, rs, rfl, -⟩ := h
  exact { zstate := hz, settled := { hset with }, zrem := rfl, s1 := rfl, s2 := rfl, streamed := hst,
          goesOn := fun _ => rfl }

/-- The emission of a byte inside its block, or of the last of all. -/
theorem emission_cons_inBlock (hno : ¬(s.regs.zblk.toNat = 1 ∧ s.regs.zrem.toNat ≠ 1)) :
    s.emission (b :: data) = b :: dataEmission s.params.zblockCap.toNat (s.regs.zrem.toNat - 1)
      (s.regs.zblk.toNat - 1) data := if_neg hno

/-- The emission of a byte that ends its block with more to come. -/
theorem emission_cons_endBlock (hend : s.regs.zblk.toNat = 1 ∧ s.regs.zrem.toNat ≠ 1) :
    s.emission (b :: data)
      = b :: blockHeader (s.regs.zrem.toNat - 1) s.params.zblockCap.toNat
        ++ dataEmission s.params.zblockCap.toNat (s.regs.zrem.toNat - 1)
          (min (s.regs.zrem.toNat - 1) s.params.zblockCap.toNat) data := if_pos hend

/-- The next block begins exactly where the byte ends its block with more to come (R179). -/
theorem tookData_endsBlock_iff (b : Byte) (s : State) :
    ((tookData b s).regs.zblk = 0#16 ∧ (tookData b s).regs.zrem ≠ 0#32)
      ↔ s.regs.zblk.toNat = 1 ∧ s.regs.zrem.toNat ≠ 1 := by
  change (s.regs.zblk - 1#16 = 0#16 ∧ s.regs.zrem - 1#32 ≠ 0#32) ↔ _
  bv_omega

theorem tookData_zrem_toNat (b : Byte) (hrem : s.regs.zrem ≠ 0#32) :
    (tookData b s).regs.zrem.toNat = s.regs.zrem.toNat - 1 := by
  change (s.regs.zrem - 1#32).toNat = _
  bv_omega

theorem tookData_zblk_toNat (b : Byte) (hblk : s.regs.zblk ≠ 0#16) :
    (tookData b s).regs.zblk.toNat = s.regs.zblk.toNat - 1 := by
  change (s.regs.zblk - 1#16).toNat = _
  bv_omega

/-- One data byte was taken where `bs` went out and the block is left with `blk` bytes, if that is how the emission goes on. -/
theorem took_of_byte {blk : Half} (hz : s.regs.zstate = .zOpen) (hrem : s.regs.zrem ≠ 0#32)
    (hblk : (tookData b s).regs.zrem ≠ 0#32 → blk ≠ 0#16)
    (hst : Streamed bs s (((setBlock blk (tookData b s)).afterPay bs).respond statusOk 0#32))
    (hon : ∀ more, s.emission (b :: more)
      = bs ++ (setBlock blk (tookData b s)).emission more) :
    Took [b] s (((setBlock blk (tookData b s)).afterPay bs).respond statusOk 0#32) := by
  have hbyte : s.emission [b] = bs := (hon []).trans (List.append_nil bs)
  have hopen : (setBlock blk (tookData b s)).regs.zstate = .zOpen := hz
  have hleft : (setBlock blk (tookData b s)).regs.zrem.toNat + 1 = s.regs.zrem.toNat := by
    change (s.regs.zrem - 1#32).toNat + 1 = _
    bv_omega
  exact {
    zstate := by simpa using hopen
    settled := by
      refine ⟨fun hi => by simp [hopen] at hi, fun _ hr => ?_⟩
      rw [respond_regs, afterPay_zrem] at hr
      rw [respond_regs, afterPay_zblk]
      exact hblk hr
    zrem := by simpa using hleft
    s1 := by rw [respond_regs, afterPay_s1]; rfl
    s2 := by rw [respond_regs, afterPay_s2]; rfl
    streamed := by rw [hbyte]; exact hst
    goesOn := fun more => by
      rw [hbyte, List.singleton_append, hon]
      simp [State.emission] }

/-- A data byte inside its block, or the last of all: no header follows (R179). -/
theorem took_inBlock (hz : s.regs.zstate = .zOpen) (hset : Settled s.regs) (hrem : s.regs.zrem ≠ 0#32)
    (hno : ¬((tookData b s).regs.zblk = 0#16 ∧ (tookData b s).regs.zrem ≠ 0#32))
    (he : emitAll payByte [b] s = .done (s.afterPay [b])) :
    Took [b] s ((tookData b (s.afterPay [b])).respond statusOk 0#32) := by
  have hstream := ((streamed_afterPay he).tookData b).respond statusOk 0#32
  rw [tookData_afterPay] at hstream ⊢
  refine took_of_byte (blk := (tookData b s).regs.zblk) hz hrem (fun hr h0 => hno ⟨h0, hr⟩) hstream
    fun more => ?_
  rw [emission_cons_inBlock (mt (tookData_endsBlock_iff b s).mpr hno),
    ← tookData_zrem_toNat b hrem, ← tookData_zblk_toNat b (hset.stream hz hrem)]
  rfl

/-- A data byte that ends its block with more to come: the next header follows (R178, R179). -/
theorem took_endBlock {header : List Byte} (hp : s.params.Valid) (hz : s.regs.zstate = .zOpen)
    (hrem : s.regs.zrem ≠ 0#32)
    (hend : (tookData b s).regs.zblk = 0#16 ∧ (tookData b s).regs.zrem ≠ 0#32)
    (hheader : header = blockHeader (tookData b s).regs.zrem.toNat s.params.zblockCap.toNat)
    (he : emitAll payByte [b] s = .done (s.afterPay [b]))
    (he' : emitAll payByte header (tookData b (s.afterPay [b]))
      = .done ((tookData b (s.afterPay [b])).afterPay header)) :
    Took [b] s ((setBlock (blockLength (tookData b s).regs.zrem s.params.zblockCap)
      ((tookData b (s.afterPay [b])).afterPay header)).respond statusOk 0#32) := by
  have hstream := ((((streamed_afterPay he).tookData b).trans (streamed_afterPay he')).setBlock
    (blockLength (tookData b s).regs.zrem s.params.zblockCap)).respond statusOk 0#32
  rw [tookData_afterPay, afterPay_append, setBlock_afterPay] at hstream ⊢
  refine took_of_byte hz hrem (fun hr => ?_) hstream fun more => ?_
  · exact (settled_setBlock (s := tookData b s) hp hz rfl).stream hz hr
  · rw [emission_cons_endBlock ((tookData_endsBlock_iff b s).mp hend), ← tookData_zrem_toNat b hrem,
      ← blockLength_toNat, hheader]
    rfl

/-- `Z_DATA` that ends without a fault took its byte. -/
theorem took_of_zData (hp : s.params.Valid) (hz : s.regs.zstate = .zOpen) (hset : Settled s.regs)
    (h : exec (.zData b) s = .next t) (hl : t.regs.fault = 0#8) : Took [b] s t := by
  obtain ⟨hrem, he, ⟨hno, rfl⟩ | ⟨hend, he', rfl⟩⟩ := zData_completes h hl
  · rw [tookData_afterPay, afterPay_zblk, afterPay_zrem] at hno
    exact took_inBlock hz hset hrem hno he
  · have hsame : (tookData b (s.afterPay [b])).regs.zrem = (tookData b s).regs.zrem := by
      rw [tookData_afterPay, afterPay_zrem]
    rw [tookData_afterPay, afterPay_zblk, afterPay_zrem] at hend
    rw [hsame] at he' ⊢
    exact took_endBlock hp hz hrem hend rfl he he'

theorem zDataByte_eq_none (hd : ∀ b, i ≠ .zData b) : zDataByte i = none := by
  cases i with
  | zData b => exact absurd rfl (hd b)
  | _ => rfl

/-- A command inside a stream that ends without a fault took the data byte it has, if any. -/
theorem took_of_exec (hp : s.params.Valid) (hz : s.regs.zstate = .zOpen) (hset : Settled s.regs)
    (hs : i ≠ .start) (he : i ≠ .zEnd) (h : exec i s = .next t) (hl : t.regs.fault = 0#8) :
    Took (zDataByte i).toList s t := by
  by_cases hd : ∃ b, i = .zData b
  · obtain ⟨b, rfl⟩ := hd
    exact took_of_zData hp hz hset h hl
  · have hd : ∀ b, i ≠ .zData b := fun b hb => hd ⟨b, hb⟩
    rw [zDataByte_eq_none hd]
    exact took_quiet hz hset (exec_quiet hz hs hd he h)

theorem took_of_execAll {is : List Instr} (h : execAll is s = some t)
    (hi : ∀ i ∈ is, i ≠ .start ∧ i ≠ .zEnd) (hp : s.params.Valid) (hz : s.regs.zstate = .zOpen)
    (hset : Settled s.regs) (hl : t.regs.fault = 0#8) : Took (is.filterMap zDataByte) s t := by
  induction is generalizing s with
  | nil => cases h; exact took_quiet hz hset (quiet_refl _)
  | cons i is ih =>
    obtain ⟨u, hu⟩ := exec_next i s
    rw [execAll_cons_of_next hu] at h
    obtain ⟨⟨hs, he⟩, hrest⟩ := List.forall_mem_cons.mp hi
    have hlu := live_of_execAll h (fun j hj => (hrest j hj).1) hl
    have hfirst := took_of_exec hp hz hset hs he hu hlu
    have hlater := ih h hrest (hfirst.streamed.params.symm ▸ hp) hfirst.zstate hfirst.settled
    have hdata : (i :: is).filterMap zDataByte = (zDataByte i).toList ++ is.filterMap zDataByte := by
      cases hb : zDataByte i <;> simp [hb]
    rw [hdata]
    exact hfirst.trans hlater

/-! ## The whole stream -/

/-- `Z_BEGIN` that ends without a fault: the header pair and the first block header went out, and the stream expects `N` bytes (R177, R178). -/
theorem zBegin_opens (hp : s.params.Valid) (h : exec (.zBegin total) s = .next t)
    (hl : t.regs.fault = 0#8) :
    Streamed ([s.params.zhdr0, s.params.zhdr1] ++ blockHeader total.toNat s.params.zblockCap.toNat) s t
      ∧ t.regs.zstate = .zOpen ∧ Settled t.regs ∧ t.regs.zrem = total
      ∧ t.regs.zblk = blockLength total s.params.zblockCap
      ∧ t.regs.s1 = 1#16 ∧ t.regs.s2 = 0#16 := by
  obtain ⟨he, rfl⟩ := zBegin_completes h hl
  have hst := (((Streamed.refl s).openStream total).trans (streamed_afterPay he)).setBlock
    (blockLength total s.params.zblockCap)
  exact ⟨hst.respond _ _, afterPay_zstate _ _,
    settled_setBlock hp (afterPay_zstate _ _) (afterPay_zrem _ _), afterPay_zrem _ _, rfl,
    afterPay_s1 _ _, afterPay_s2 _ _⟩

/-- A stream that began with the pair's initial state ends with the checksum of its data in the pair (R180). -/
theorem Took.adler (h : Took data s t) (hs1 : s.regs.s1 = 1#16) (hs2 : s.regs.s2 = 0#16) :
    t.regs.adler = adler32 data := by
  obtain ⟨h1, h2⟩ := adlerBytes_congr data (r := s.regs) (r' := adlerInit Regs.reset) hs1 hs2
  rw [adler32, Regs.adler, Regs.adler, h.s1, h.s2, h1, h2]

/-- What a stream's commands emit is the zlib stream of the data it took (R175, R184). -/
theorem zlibStream_eq {p : Params} (hp : p.Valid) (h : data.length < 2 ^ 32) :
    [p.zhdr0, p.zhdr1] ++ blockHeader data.length p.zblockCap.toNat
        ++ dataEmission p.zblockCap.toNat data.length (min data.length p.zblockCap.toNat) data
        ++ be32 (adler32 data)
      = zlibStream p data := by
  rw [zlibStream, storedBlocks_eq_emission hp.2 h]
  simp

/-- Settles O32: header, data and trailer are emitted one after another; `ZREM` has counted the data down to 0 and the pair has followed it when `Z_END` runs. -/
theorem zlibLaw : Obligations.ZlibLaw := by
  intro s s1 s2 s3 total between hp hbegin hbetween hi hend hl3
  have hl2 := live_of_exec hend (by simp) hl3
  have hl1 := live_of_execAll hbetween (fun i hm => (hi i hm).1) hl2
  obtain ⟨hhead, hz1, hset1, hrem1, hblk1, hs1, hs2⟩ := zBegin_opens hp hbegin hl1
  have htook := took_of_execAll hbetween hi (hhead.params.symm ▸ hp) hz1 hset1 hl2
  obtain ⟨hrem2, htrail, rfl⟩ := zEnd_completes hend hl3
  intro data stream
  have hlen : data.length = total.toNat := by
    have := htook.zrem
    rw [hrem2, hrem1] at this
    simpa using this
  have hadler : s2.regs.adler = adler32 data := htook.adler hs1 hs2
  have hemit : s1.emission data = dataEmission s.params.zblockCap.toNat data.length
      (min data.length s.params.zblockCap.toNat) data := by
    rw [State.emission, hhead.params, hrem1, hblk1, blockLength_toNat, hlen]
  have hall : Streamed stream s
      ((closeStream (s2.afterPay (be32 s2.regs.adler))).respond statusOk 0#32) := by
    have hsent := ((hhead.trans htook.streamed).trans (streamed_afterPay htrail)).closeStream.respond
      statusOk 0#32
    rw [hemit, ← hlen, hadler, zlibStream_eq hp (hlen ▸ total.isLt)] at hsent
    rw [hadler]
    exact hsent
  refine ⟨hlen, hlen ▸ zlibStream_length s.params hp data, fun hm => ?_, fun hm => ?_, hall.count,
    fun ho => ⟨hall.crc ho, hall.ccnt ho, hall.ccnt_toNat ho⟩, rfl⟩
  all_goals simpa [hm] using hall.out

end Sys2Proof.Machine

/-! SUPPORT. The commands `START` and `WRREG` (`45_system_commands.md` R195, R197). -/

namespace Sys2Proof.Machine

variable {s : State}

/-- `START` has no check, so it resets the registers from a halted state too (R195). -/
theorem exec_start (s : State) : exec .start s = .next (s.resetRegs.respond statusOk 0#32) := rfl

/-- Settles O8. -/
theorem startResetsEveryRegister : Obligations.StartResetsEveryRegister := exec_start

/-- With no chunk and no stream open `WRREG` is admitted (R197). -/
theorem writeRegister_idle (w : Regs → Regs) (hl : s.regs.fault = 0#8) (hc : s.regs.cstate = .cIdle)
    (hz : s.regs.zstate = .zIdle) :
    writeRegister w s = (s.withRegs (w s.regs)).respond statusOk 0#32 := by
  rcases writeRegister_cases hl (rfl : writeRegister w s = _) with ⟨hn, -⟩ | ⟨-, h⟩
  · exact absurd ⟨hc, hz⟩ hn
  · exact h

/-- With a chunk or a stream open the check stops `WRREG` before its write (R197). -/
theorem writeRegister_refused (w : Regs → Regs) (hl : s.regs.fault = 0#8)
    (ho : s.regs.cstate = .cOpen ∨ s.regs.zstate = .zOpen) :
    writeRegister w s = s.takeFault .badState :=
  ho.elim (writeRegister_cOpen w hl) (writeRegister_zOpen w hl)

/-- `WRREG CTRL` writes bit 0 of its operand, which is the whole operand where a word encodes it (R197). -/
theorem getLsbD_zero_of_le_one {v : Word} (hv : v.toNat ≤ 1) : v.getLsbD 0 = decide (v.toNat = 1) := by
  rw [BitVec.getLsbD, Nat.testBit_zero, Nat.mod_eq_of_lt (Nat.lt_succ_of_le hv)]

/-- Settles O10: idle each `WRREG` makes its one write, otherwise its check stops it. -/
theorem wrregWritesOneRegister : Obligations.WrregWritesOneRegister := by
  intro s v hl
  refine ⟨fun hc hz => ?idle, fun ho => ?refused⟩
  case idle =>
    have hwrite w := writeRegister_idle w hl hc hz
    refine ⟨fun hv => ?_, congrArg _ (hwrite _), congrArg _ (hwrite _)⟩
    rw [← getLsbD_zero_of_le_one hv]
    exact congrArg _ (hwrite _)
  case refused =>
    have hstop w := writeRegister_refused w hl ho
    exact ⟨congrArg _ (hstop _), congrArg _ (hstop _), congrArg _ (hstop _)⟩

end Sys2Proof.Machine

/-! SUPPORT. The size of an accepted image's output: its payload (`46_png_host_sequence.md` R206) and the chunks around it (R215). -/

namespace Sys2Proof.Machine

variable {p : Params} {g : Image} {y : Nat}

/-- A chunk adds its length, tag and CRC words to its payload (`43_chunk_framer.md` R160). -/
theorem chunkBytes_length (tag : Word) (payload : List Byte) :
    (chunkBytes tag payload).length = 12 + payload.length := by
  simp only [chunkBytes, List.length_append, be32_length]
  omega

/-- The host accepts only a buffer of exactly four bytes a pixel (R207). -/
theorem pixels_length_of_accepted (h : g.accepted p = true) :
    g.pixels.length = g.width.toNat * g.height.toNat * 4 := by
  simp only [Image.accepted, Bool.and_eq_true, decide_eq_true_eq] at h
  obtain ⟨⟨⟨hpix, -⟩, -⟩, -⟩ := h
  exact hpix

/-- A row of a full buffer is full: row `y` ends at `4 * (y + 1) * W`, within the `4 * H * W` pixel bytes. -/
theorem row_length (hpix : g.pixels.length = g.width.toNat * g.height.toNat * 4)
    (hy : y < g.height.toNat) : (g.row y).length = 4 * g.width.toNat := by
  have hend : (y + 1) * g.width.toNat ≤ g.height.toNat * g.width.toNat :=
    Nat.mul_le_mul_right _ hy
  rw [Image.row, List.length_take, List.length_drop, hpix, Nat.mul_comm g.width.toNat,
    Nat.mul_assoc 4]
  rw [Nat.succ_mul] at hend
  omega

/-- Each of the `H` rows adds its filter byte and `4 * W` pixel bytes (R206). -/
theorem payload_length (hpix : g.pixels.length = g.width.toNat * g.height.toNat * 4) :
    g.payload.length = g.payloadLength := by
  have hrow : ∀ n ∈ g.rows.map fun row => (0x00#8 :: row).length, n = 1 + 4 * g.width.toNat := by
    simp only [Image.rows, List.map_map, List.forall_mem_map, List.mem_range]
    intro y hy
    rw [Function.comp_apply, List.length_cons, row_length hpix hy, Nat.add_comm]
  calc g.payload.length
      = (g.rows.map fun row => (0x00#8 :: row).length).sum := List.length_flatMap
    _ = g.rows.length * (1 + 4 * g.width.toNat) := by
        rw [List.sum_eq_card_nsmul _ _ hrow, List.length_map, smul_eq_mul]
    _ = g.payloadLength := by rw [Image.rows, List.length_map, List.length_range, Image.payloadLength]

/-- The signature's 8 bytes, the 25 of `IHDR`, the 12 of `IEND` and the 12 around the zlib stream in `IDAT` make 57 (R215). -/
theorem pngBytes_length (p : Params) (g : Image) :
    (pngBytes p g).length = 57 + (zlibStream p g.payload).length := by
  simp only [pngBytes, List.length_append, be32_length, chunkBytes_length, List.length_cons,
    List.length_nil]
  omega

/-- Settles O35: the zlib stream in `IDAT` has `ZLen` of the payload's length, which is `N`. -/
theorem pngStreamLength : Obligations.PngStreamLength := by
  intro p g hp hacc
  have hpay := payload_length (pixels_length_of_accepted hacc)
  exact ⟨hpay, by rw [pngBytes_length, zlibStream_length p hp, hpay]⟩

end Sys2Proof.Machine

/-! SUPPORT. The halted state: what a halted block refuses, what ends the halt, and the faults that begin it (`60_exceptions.md` R246, R247, R249, R258). -/

namespace Sys2Proof.Machine

variable {s t : State} {w : CommandWord}

/-- Settles O7. -/
theorem noEventHoldsState : Obligations.NoEventHoldsState := by
  intro s hev
  unfold step takeEvent
  rw [hev]

/-- Settles O36: an illegal word and a command that does not pass the halt run in the same frame, which refuses. -/
theorem haltedRefusesEveryOtherWord : Obligations.HaltedRefusesEveryOtherWord := by
  intro w s hl hb
  cases hd : decode w with
  | command i => exact (execWord_command hd s).trans (exec_halted hl (hb i hd))
  | illegal why => exact (execWord_illegal hd s).trans (congrArg _ (runCommand_halted hl))

/-- Settles O38: a fault at the end was written by the command, for `FAULT` was 0 before it, and `START` writes 0. -/
theorem faultsOnlyFromMatrix : Obligations.FaultsOnlyFromMatrix := by
  intro i s t f hl h hf
  have hne : t.regs.fault ≠ 0#8 := hf ▸ code_ne_zero f
  by_cases hs : i = .start
  · subst hs; cases h
    exact absurd rfl hne
  · obtain ⟨-, g, hg, htg⟩ := fault_written hs h (hl.symm ▸ hne)
    exact code_injective (htg.symm.trans hf) ▸ hg

/-! ## The ways out of the halt -/

theorem illegalCommand_halted (hl : s.regs.fault ≠ 0#8) : (illegalCommand s).regs.fault ≠ 0#8 := by
  rwa [illegalCommand, runCommand_halted hl]

/-- Only the word of `START` decodes to it (`30_encoding.md` R108). -/
theorem eq_startWord_of_decode (hd : decode w = .command .start) : w = 0x0100000000#40 := by
  obtain ⟨-, henc⟩ := decodeAndEncodeAgree.2 w .start hd
  exact henc.symm

/-- Of the words, only `START` ends the halted state (R249). -/
theorem start_of_execWord_live (h : execWord w s = .next t) (hl : s.regs.fault ≠ 0#8)
    (ht : t.regs.fault = 0#8) : w = 0x0100000000#40 ∧ t.regs = Regs.reset := by
  cases hd : decode w with
  | command i =>
    rw [execWord_command hd] at h
    by_cases hs : i = .start
    · subst hs; cases h
      exact ⟨eq_startWord_of_decode hd, rfl⟩
    · exact absurd (live_of_exec h hs ht) hl
  | illegal why =>
    rw [execWord_illegal hd] at h; cases h
    exact absurd ht (illegalCommand_halted hl)

/-- A reset that cuts a command short resets the registers whatever the command would have done (`70_reset_and_hazards.md` R271). -/
theorem execCut_regs {k : Nat} (h : execCut w k s = .next t) : t.regs = Regs.reset := by
  obtain ⟨u, hu⟩ := execWord_next w s
  rw [execCut, hu] at h; cases h
  rfl

/-- Settles O40: a word must be `START`, and each kind of reset resets the registers. -/
theorem onlyStartAndResetLeaveHalt : Obligations.OnlyStartAndResetLeaveHalt := by
  intro s t e rest hev h hl ht
  rw [step_event hev] at h
  cases e with
  | command w =>
    obtain ⟨rfl, hregs⟩ := start_of_execWord_live h hl ht
    exact ⟨.inl rfl, hregs⟩
  | reset =>
    cases h
    exact ⟨.inr (.inl rfl), rfl⟩
  | resetDuring w k => exact ⟨.inr (.inr ⟨w, k, rfl⟩), execCut_regs h⟩

end Sys2Proof.Machine

/-! SUPPORT. The state legality table (`60_exceptions.md` R241): every command but `START` and `RDREG` begins with its row as its check, and its lines after the check raise other faults only. -/

namespace Sys2Proof.Machine

variable {s : State} {i : Instr} {bs : List Byte} {r : Ran} {k : State → Ran}

/-! ## Each check is a row of the table -/

theorem column_idle (c : CState) (z : ZState) :
    LegalityRow.column ⟨true, false, false, false⟩ c z = decide (c = .cIdle ∧ z = .zIdle) := by
  cases c <;> cases z <;> rfl

theorem column_noChunk (c : CState) (z : ZState) :
    LegalityRow.column ⟨true, false, true, false⟩ c z = decide (c = .cIdle) := by
  cases c <;> cases z <;> rfl

theorem column_noStream (c : CState) (z : ZState) :
    LegalityRow.column ⟨true, true, false, false⟩ c z = decide (z = .zIdle) := by
  cases c <;> cases z <;> rfl

theorem column_chunk (c : CState) (z : ZState) :
    LegalityRow.column ⟨false, true, false, false⟩ c z = decide (c = .cOpen ∧ z = .zIdle) := by
  cases c <;> cases z <;> rfl

theorem column_stream (c : CState) (z : ZState) :
    LegalityRow.column ⟨false, false, true, true⟩ c z = decide (z = .zOpen) := by
  cases c <;> cases z <;> rfl

theorem requireIdle_eq_row (h : legalityRow i = ⟨true, false, false, false⟩) (s : State) :
    requireIdle s = require (s.admits i) .badState s := by
  rw [requireIdle, State.admits, h, column_idle]

theorem requireNoChunk_eq_row (h : legalityRow i = ⟨true, false, true, false⟩) (s : State) :
    requireNoChunk s = require (s.admits i) .badState s := by
  rw [requireNoChunk, State.admits, h, column_noChunk]

theorem requireNoStream_eq_row (h : legalityRow i = ⟨true, true, false, false⟩) (s : State) :
    requireNoStream s = require (s.admits i) .badState s := by
  rw [requireNoStream, State.admits, h, column_noStream]

theorem requireChunk_eq_row (h : legalityRow i = ⟨false, true, false, false⟩) (s : State) :
    requireChunk s = require (s.admits i) .badState s := by
  rw [requireChunk, State.admits, h, column_chunk]

theorem requireStream_eq_row (h : legalityRow i = ⟨false, false, true, true⟩) (s : State) :
    requireStream s = require (s.admits i) .badState s := by
  rw [requireStream, State.admits, h, column_stream]

/-- `START` and `RDREG` are admitted in every state. -/
theorem admits_of_bypassesHalt (hb : bypassesHalt i = true) (s : State) : s.admits i = true := by
  have hrow : legalityRow i = ⟨true, true, true, true⟩ := by cases i <;> cases hb <;> rfl
  rw [State.admits, hrow]
  cases s.regs.cstate <;> cases s.regs.zstate <;> rfl

theorem legalityRow_of_writer (hw : writerBytes i = some bs) :
    legalityRow i = ⟨true, true, false, false⟩ := by
  cases i <;> cases hw <;> rfl

/-! ## Pseudocode that does not raise `BAD_STATE` -/

/-- The run ended with `FAULT` at 0, or it raised a fault other than `BAD_STATE`. -/
def Ran.SparesBadState : Ran → Prop
  | .done t => t.regs.fault = 0#8
  | .raised f _ => f ≠ .badState

theorem finish_fault_ne_badState (h : r.SparesBadState) (data : Word) :
    (finish data r).regs.fault ≠ FaultCode.badState.code := by
  cases r with
  | done t => exact fun he => code_ne_zero .badState (he.symm.trans h)
  | raised f t => exact fun he => h (code_injective he)

theorem Ran.SparesBadState.andThen (h : r.SparesBadState)
    (hk : ∀ t, t.regs.fault = 0#8 → (k t).SparesBadState) : (r.andThen k).SparesBadState := by
  cases r with
  | done t => exact hk t h
  | raised f t => exact h

theorem spares_require {f : FaultCode} (c : Bool) (hf : f ≠ .badState) (hl : s.regs.fault = 0#8) :
    (require c f s).SparesBadState := by
  rcases require_cases c f s with h | h <;> rw [h]
  · exact hf
  · exact hl

/-- A run of `Out` stops with `COUNT_OVERFLOW` or `SINK_FAIL` only. -/
theorem spares_emitOut (bs : List Byte) (hl : s.regs.fault = 0#8) :
    (emitAll outByte bs s).SparesBadState := by
  rcases emitOut_cases bs s with ⟨he, -⟩ | ⟨f, t, he, hs⟩ <;> rw [he]
  · exact (congrArg Regs.fault (afterOut_regs s bs)).trans hl
  · obtain ⟨xs, n, -, rfl | ⟨rfl, -⟩⟩ := sent_outStops hs <;> exact nofun

/-- So does a run of tag bytes. -/
theorem spares_emitFolded (bs : List Byte) (hl : s.regs.fault = 0#8) :
    (emitAll outFolded bs s).SparesBadState := by
  rcases emitFolded_cases bs s with ⟨he, -⟩ | ⟨f, t, he, hs⟩ <;> rw [he]
  · exact (congrArg Regs.fault (afterOut_regs s bs)).trans hl
  · obtain ⟨xs, n, -, rfl | ⟨rfl, -⟩⟩ := sent_foldedStops hs <;> exact nofun

/-- A run of `Pay` may also stop with `CHUNK_OVERRUN`. -/
theorem spares_emitPay (bs : List Byte) (hl : s.regs.fault = 0#8) :
    (emitAll payByte bs s).SparesBadState := by
  rcases emitPay_cases bs s with he | ⟨f, t, he, hs⟩ <;> rw [he]
  · exact (afterPay_fault s bs).trans hl
  · obtain ⟨xs, n, -, ⟨rfl, -⟩ | rfl | ⟨rfl, -⟩⟩ := sent_payStops hs <;> exact nofun

theorem spares_payByte (b : Byte) (hl : s.regs.fault = 0#8) : (payByte b s).SparesBadState := by
  have hone : payByte b s = emitAll payByte [b] s := by
    rw [emitAll_cons]
    cases payByte b s <;> rfl
  rw [hone]
  exact spares_emitPay [b] hl

theorem spares_emitChunkHead (len : Word) (hl : s.regs.fault = 0#8) :
    (emitChunkHead len s).SparesBadState :=
  (spares_emitOut (s := declareLength len s) _ hl).andThen fun t hl =>
    (spares_emitFolded (s := startCrc t) _ hl).andThen fun _ hl => hl

theorem spares_startBlock (hl : s.regs.fault = 0#8) : (startBlock s).SparesBadState := by
  rw [startBlock_eq]
  exact (spares_emitPay _ hl).andThen fun _ hl => hl

theorem spares_nextBlock (hl : s.regs.fault = 0#8) : (nextBlock s).SparesBadState := by
  unfold nextBlock
  split
  · exact spares_startBlock hl
  · exact hl

/-! ## Every command -/

/-- From `s` the command runs its row of the table as a check, and then lines that do not raise `BAD_STATE` (R240, R241). -/
def Checked (i : Instr) (s : State) : Prop :=
  ∃ data k, exec i s = .next (finish data ((require (s.admits i) .badState s).andThen k))
    ∧ (k s).SparesBadState

theorem checked_of_body {body : State → Ran} {data : Word} (hl : s.regs.fault = 0#8)
    (he : exec i s = .next (runCommand data body s))
    (hb : body s = (require (s.admits i) .badState s).andThen k) (hk : (k s).SparesBadState) :
    Checked i s :=
  ⟨data, k, by rw [he, runCommand_live hl, hb], hk⟩

/-- A direct command's one write leaves `FAULT`. -/
theorem checked_of_direct {w : Regs → Regs} (hw : directWrite i = some w) (hl : s.regs.fault = 0#8) :
    Checked i s := by
  have hk : (w s.regs).fault = 0#8 := (directWrite_fault hw s.regs).1.trans hl
  have hfinal : require (s.admits i) .badState s = (require (s.admits i) .badState s).andThen .done := by
    cases require (s.admits i) .badState s <;> rfl
  cases i <;> cases hw
  case wrregCtrl | wrregTag | wrregCount =>
    exact checked_of_body hl rfl (congrArg (Ran.andThen · _) (requireIdle_eq_row rfl s)) hk
  case crcInit | crcUpdate =>
    exact checked_of_body hl rfl (congrArg (Ran.andThen · _) (requireNoChunk_eq_row rfl s)) hk
  case adlInit | adlUpdate =>
    exact checked_of_body hl rfl (congrArg (Ran.andThen · _) (requireNoStream_eq_row rfl s)) hk
  case crcFinal => exact checked_of_body hl rfl ((requireNoChunk_eq_row rfl s).trans hfinal) hl
  case adlFinal => exact checked_of_body hl rfl ((requireNoStream_eq_row rfl s).trans hfinal) hl

/-- Class by class: the command's check is its row, and the lines after it are spared one after another. -/
theorem exec_checked (hb : bypassesHalt i = false) (hl : s.regs.fault = 0#8) : Checked i s := by
  rcases command_classes hb with ⟨w, hw⟩ | ⟨bs, hw⟩ | ⟨len, rfl⟩ | rfl | ⟨total, rfl⟩ | ⟨b, rfl⟩ | rfl
  · exact checked_of_direct hw hl
  · exact checked_of_body hl (exec_writer hw s)
      (congrArg (Ran.andThen · _) (requireNoStream_eq_row (legalityRow_of_writer hw) s))
      (spares_emitPay bs hl)
  · refine checked_of_body hl rfl (congrArg (Ran.andThen · _) (requireIdle_eq_row rfl s)) ?_
    exact (spares_require _ (by decide) hl).andThen fun t hl =>
      (spares_require _ (by decide) hl).andThen fun u hl => spares_emitChunkHead len hl
  · refine checked_of_body hl rfl (congrArg (Ran.andThen · _) (requireChunk_eq_row rfl s)) ?_
    exact (spares_require _ (by decide) hl).andThen fun t hl =>
      (spares_emitOut _ hl).andThen fun u hl => hl
  · refine checked_of_body hl rfl (congrArg (Ran.andThen · _) (requireNoStream_eq_row rfl s)) ?_
    exact (spares_payByte (s := openStream total s) _ hl).andThen fun t hl =>
      (spares_payByte _ hl).andThen fun u hl => spares_startBlock hl
  · refine checked_of_body hl rfl (congrArg (Ran.andThen · _) (requireStream_eq_row rfl s)) ?_
    exact (spares_require _ (by decide) hl).andThen fun t hl =>
      (spares_payByte b hl).andThen fun u hl => spares_nextBlock (s := tookData b u) hl
  · refine checked_of_body hl rfl (congrArg (Ran.andThen · _) (requireStream_eq_row rfl s)) ?_
    exact (spares_require _ (by decide) hl).andThen fun t hl =>
      (spares_emitPay _ hl).andThen fun u hl => hl

/-- A command that its row does not admit stops at its check (R233, R241). -/
theorem exec_notAdmitted (hl : s.regs.fault = 0#8) (ha : s.admits i = false) :
    exec i s = .next (s.takeFault .badState) := by
  have hb : bypassesHalt i = false := by
    rw [Bool.eq_false_iff]
    intro hb
    rw [admits_of_bypassesHalt hb] at ha
    cases ha
  obtain ⟨data, k, he, -⟩ := exec_checked hb hl
  rw [he, ha]
  rfl

/-- A command that its row admits is past its only `BAD_STATE` (R241). -/
theorem exec_admitted_fault_ne (hl : s.regs.fault = 0#8) (ha : s.admits i = true) :
    ∃ t, exec i s = .next t ∧ t.regs.fault ≠ FaultCode.badState.code := by
  cases hb : bypassesHalt i with
  | true =>
    by_cases hs : i = .start
    · subst hs
      exact ⟨_, rfl, nofun⟩
    · obtain ⟨r, hr⟩ := rdreg_responds (s := s) hb hs
      exact ⟨_, hr, fun he => code_ne_zero .badState (he.symm.trans hl)⟩
  | false =>
    obtain ⟨data, k, he, hk⟩ := exec_checked hb hl
    rw [ha, require_holds rfl, andThen_done] at he
    exact ⟨_, he, finish_fault_ne_badState hk data⟩

/-- Settles O37: the check is the command's row, and nothing after it raises `BAD_STATE`. -/
theorem badStateExactlyWhereNotAdmitted : Obligations.BadStateExactlyWhereNotAdmitted :=
  fun _ _ hl => ⟨exec_notAdmitted hl, exec_admitted_fault_ne hl⟩

end Sys2Proof.Machine

/-! SUPPORT. The checks of the framer's and the wrapper's commands in their order (`60_exceptions.md` R234, R235, R239, R242, R243). -/

namespace Sys2Proof.Machine

variable {s : State} {len : Word} {b : Byte}

/-! ## The framer -/

/-- Of the three checks of `CHUNK_BEGIN` the second compares the tag (R234). -/
theorem exec_chunkBegin_chunkOrder (hl : s.regs.fault = 0#8) (hc : s.regs.cstate = .cIdle)
    (hz : s.regs.zstate = .zIdle) (htag : expectedTag s.regs.cseq ≠ some s.regs.tag) :
    exec (.chunkBegin len) s = .next (s.takeFault .chunkOrder) := by
  obtain ⟨t, h⟩ := exec_next (.chunkBegin len) s
  rcases chunkBegin_cases hl h with ⟨hn, -⟩ | ⟨-, ⟨-, rfl⟩ | ⟨ht, -⟩⟩
  · exact absurd ⟨hc, hz⟩ hn
  · exact h
  · exact absurd ht htag

/-- The third checks the length (R235). -/
theorem exec_chunkBegin_chunkLength (hl : s.regs.fault = 0#8) (hc : s.regs.cstate = .cIdle)
    (hz : s.regs.zstate = .zIdle) (htag : expectedTag s.regs.cseq = some s.regs.tag)
    (hlen : ¬len ≤ s.params.chunkLenMax) :
    exec (.chunkBegin len) s = .next (s.takeFault .chunkLength) := by
  obtain ⟨t, h⟩ := exec_next (.chunkBegin len) s
  rcases chunkBegin_cases hl h with ⟨hn, -⟩ | ⟨-, ⟨ht, -⟩ | ⟨-, ⟨-, rfl⟩ | ⟨hle, -⟩⟩⟩
  · exact absurd ⟨hc, hz⟩ hn
  · exact absurd htag ht
  · exact h
  · exact absurd hle hlen

/-- After three chunks no tag is in order (`43_chunk_framer.md` R161). -/
theorem expectedTag_ne_of_three {q : BitVec 2} {tag : Word} (hq : q = 3#2) :
    expectedTag q ≠ some tag := by
  subst hq
  exact nofun

/-- Settles O22: the state check is the command's row of the legality table, and the two after it come in turn. -/
theorem chunkBeginChecksInOrder : Obligations.ChunkBeginChecksInOrder := by
  intro s len hl
  refine ⟨fun ho => ?state, fun hc hz => ⟨fun htag => ?order, fun htag hlen => ?length⟩⟩
  case state =>
    have hnot : ¬(s.regs.cstate = .cIdle ∧ s.regs.zstate = .zIdle) := by
      rcases ho with ho | ho <;> simp [ho]
    exact exec_notAdmitted hl ((column_idle _ _).trans (decide_eq_false hnot))
  case order => exact exec_chunkBegin_chunkOrder hl hc hz (htag.elim expectedTag_ne_of_three id)
  case length =>
    exact exec_chunkBegin_chunkLength hl hc hz htag fun hle => Nat.not_lt.mpr hle hlen

/-- Of the two checks of `CHUNK_END` the second compares the payload with the declared length (R239). -/
theorem exec_chunkEnd_chunkUnderrun (hl : s.regs.fault = 0#8) (hc : s.regs.cstate = .cOpen)
    (hz : s.regs.zstate = .zIdle) (hcnt : s.regs.ccnt ≠ s.regs.clen) :
    exec .chunkEnd s = .next (s.takeFault .chunkUnderrun) := by
  obtain ⟨t, h⟩ := exec_next .chunkEnd s
  rcases chunkEnd_cases hl h with ⟨hn, -⟩ | ⟨-, ⟨-, rfl⟩ | ⟨heq, -⟩⟩
  · exact absurd ⟨hc, hz⟩ hn
  · exact h
  · exact absurd heq hcnt

/-- Settles O24. -/
theorem chunkEndChecksInOrder : Obligations.ChunkEndChecksInOrder := by
  intro s hl
  refine ⟨fun ho => ?_, exec_chunkEnd_chunkUnderrun hl⟩
  have hnot : ¬(s.regs.cstate = .cOpen ∧ s.regs.zstate = .zIdle) := by
    rcases ho with ho | ho <;> simp [ho]
  exact exec_notAdmitted hl ((column_chunk _ _).trans (decide_eq_false hnot))

/-! ## The wrapper -/

/-- Of the two checks of `Z_DATA` the second asks whether data is still expected (R242). -/
theorem exec_zData_zOverrun (hl : s.regs.fault = 0#8) (hz : s.regs.zstate = .zOpen)
    (hrem : s.regs.zrem = 0#32) : exec (.zData b) s = .next (s.takeFault .zOverrun) := by
  obtain ⟨t, h⟩ := exec_next (.zData b) s
  rcases zData_cases hl h with ⟨hi, -⟩ | ⟨-, ⟨-, rfl⟩ | ⟨hne, -⟩⟩
  · exact nomatch hz.symm.trans hi
  · exact h
  · exact absurd hrem hne

/-- The second check of `Z_END` asks the opposite (R243). -/
theorem exec_zEnd_zUnderrun (hl : s.regs.fault = 0#8) (hz : s.regs.zstate = .zOpen)
    (hrem : s.regs.zrem ≠ 0#32) : exec .zEnd s = .next (s.takeFault .zUnderrun) := by
  obtain ⟨t, h⟩ := exec_next .zEnd s
  rcases zEnd_cases hl h with ⟨hi, -⟩ | ⟨-, ⟨-, rfl⟩ | ⟨h0, -⟩⟩
  · exact nomatch hz.symm.trans hi
  · exact h
  · exact absurd h0 hrem

/-- Settles O30: in a stream the data counter decides, outside one the legality table refuses both commands. -/
theorem streamLengthChecks : Obligations.StreamLengthChecks := by
  intro s b hl
  refine ⟨exec_zData_zOverrun hl, exec_zEnd_zUnderrun hl, fun hz => ?_⟩
  have hnot : s.regs.zstate ≠ .zOpen := by simp [hz]
  have hrow := (column_stream s.regs.cstate s.regs.zstate).trans (decide_eq_false hnot)
  exact ⟨exec_notAdmitted hl hrow, exec_notAdmitted hl hrow⟩

end Sys2Proof.Machine

/-! SUPPORT. Hardware reset while a command is in progress (`70_reset_and_hazards.md` R271). -/

namespace Sys2Proof.Machine

variable {s t : State} {w : CommandWord}

theorem execCut_of_execWord (h : execWord w s = .next t) (k : Nat) :
    execCut w k s = .next (s.cutByReset t k) := by
  rw [execCut, h]

/-- The cut's own bound, the number of bytes the command appends, is where the beginning of its bytes ends anyway. -/
theorem cutByReset_out {emitted : List Byte} (h : t.out = s.out ++ emitted) (k : Nat) :
    (s.cutByReset t k).out = s.out ++ emitted.take k := by
  have hn : t.out.length - s.out.length = emitted.length := by simp [h]
  calc (s.cutByReset t k).out
      = (s.out ++ emitted).take (s.out.length + min k emitted.length) := by
        rw [State.cutByReset, hn, h]
    _ = s.out ++ emitted.take k := by
        rw [List.take_length_add_append, ← List.take_eq_take_min]

/-- Settles O6: the bytes cut are those the whole command appends to `OUT`. -/
theorem resetCutsCommandShort : Obligations.ResetCutsCommandShort := by
  intro s t w k rest hev hw
  obtain ⟨⟨emitted, hout⟩, -⟩ := execWord_appends hw
  exact ⟨_, emitted, (step_event hev).trans (execCut_of_execWord hw k), hout, cutByReset_out hout k,
    rfl, rfl, rfl, rfl⟩

end Sys2Proof.Machine
